-- ==== Sys2Proof/Word.lean ====
section
/-! DEFINITION. The machine word and the set `Int64` of 00_scope.md R9. -/

namespace Sys2Proof

/-- One memory word, the relative base, every operand and result: a signed 64-bit two's complement
integer (00 R9, 40 R102). Its integer value is `toInt`. -/
abbrev Word := BitVec 64

/-- The integer lies in `Int64`, the range [-2^63, 2^63 - 1] (00 R9). -/
abbrev FitsInt64 (v : Int) : Prop := -(2 ^ 63) ≤ v ∧ v ≤ 2 ^ 63 - 1

/-- The unique `Int64` congruent to `v` modulo 2^64; it is `v` itself when `v` fits (00 R12). -/
def wordOfInt (v : Int) : Word := BitVec.ofInt 64 v

end Sys2Proof
end

