-- ==== Sys2Proof/Config.lean ====
section
/-! DEFINITION. The implementation parameters of 00_scope.md R7. They are fixed for the life of a
core (10 R29); the state carries them as the field `cfg`, so that a claim about every state is a
claim about every allowed value (00 R8; assumption log 1). -/

namespace Sys2Proof

/-- `ARITH_OVERFLOW` (00 R7, 40 R104): what an exact result outside `Int64` does. -/
inductive ArithOverflow where
  | fault
  | wrap
  deriving DecidableEq, Repr

/-- `BAD_MODE_DIGIT_ACTION` (00 R7, 30 R77): what a checked mode digit 3 to 9 does. -/
inductive BadDigitAction where
  | skip
  | fault
  deriving DecidableEq, Repr

/-- `BAD_MODE_DIGIT_SCOPE` (00 R7, 30 R77): which mode digits are checked. -/
inductive BadDigitScope where
  | used
  | all
  deriving DecidableEq, Repr

/-- `OVERFLOW_REGION` (00 R4, R7): whether addresses at or beyond `N` exist. -/
inductive OverflowRegion where
  | enabled
  | disabled
  deriving DecidableEq, Repr

/-- `CHANNEL_CAPACITY` (00 R7, 41 R132): how many values a channel holds. -/
inductive Capacity where
  | unbounded
  | bounded (n : Nat)
  deriving DecidableEq, Repr

/-- The parameters of one core. -/
structure Config where
  arithOverflow   : ArithOverflow
  badDigitAction  : BadDigitAction
  badDigitScope   : BadDigitScope
  overflowRegion  : OverflowRegion
  channelCapacity : Capacity
  deriving DecidableEq, Repr

/-- The spec's default of every parameter (00 R7). -/
def Config.default : Config where
  arithOverflow   := .fault
  badDigitAction  := .skip
  badDigitScope   := .used
  overflowRegion  := .enabled
  channelCapacity := .unbounded

/-- The parameters with `ARITH_OVERFLOW`, `BAD_MODE_DIGIT_ACTION` and `BAD_MODE_DIGIT_SCOPE` at their
defaults (00 R7), and the other two as they are (assumption log 25). -/
def Config.openDefaults (c : Config) : Config :=
  { c with
    arithOverflow  := Config.default.arithOverflow
    badDigitAction := Config.default.badDigitAction
    badDigitScope  := Config.default.badDigitScope }

end Sys2Proof
end

