-- ==== Sys2Proof/Syntax.lean ====
section
/-! DEFINITION. The instructions of spec/opcode_table.json as data. An instruction carries its
parameter modes only: operand words are memory words, read when the instruction executes
(30_encoding.md R70, R87). -/

namespace Sys2Proof

/-- The three parameter modes (30 R72). -/
inductive Mode where
  | position
  | immediate
  | relative
  deriving DecidableEq, Repr

/-- The eleven decoded variants (30 R73), one per row of the opcode table; `m1`, `m2`, `m3` are the
modes of the operands p1, p2, p3 (30 R81). -/
inductive Instr where
  | add (m1 m2 m3 : Mode)
  | mul (m1 m2 m3 : Mode)
  | read (m1 : Mode)
  | write (m1 : Mode)
  | jumpIfTrue (m1 m2 : Mode)
  | jumpIfFalse (m1 m2 : Mode)
  | lessThan (m1 m2 m3 : Mode)
  | equals (m1 m2 m3 : Mode)
  | adjustRelativeBase (m1 : Mode)
  | halt
  | skip
  deriving DecidableEq, Repr

/-- The number of operand words (30 R74, formats F0 to F3). -/
def Instr.arity : Instr → Nat
  | .add _ _ _            => 3
  | .mul _ _ _            => 3
  | .read _               => 1
  | .write _              => 1
  | .jumpIfTrue _ _       => 2
  | .jumpIfFalse _ _      => 2
  | .lessThan _ _ _       => 3
  | .equals _ _ _         => 3
  | .adjustRelativeBase _ => 1
  | .halt                 => 0
  | .skip                 => 0

/-- The length in words: the instruction word and its operand words (30 R74). -/
def Instr.length (i : Instr) : Nat := i.arity + 1

/-- An instruction with the operand words that follow it in memory, as the assembler of 30 R85
writes it. -/
structure Line where
  instr    : Instr
  operands : List Word
  deriving DecidableEq, Repr

end Sys2Proof
end

