-- ==== Sys2Proof/WellFormed.lean ====
section
/-! DEFINITION. Which terms are well formed. Every term of `Instr` is: each mode is legal in each
position, destinations included (30_encoding.md R81, 20_memory.md R47), so the checks are over what
surrounds an instruction: its operand words, the parameters, and the program image. -/

namespace Sys2Proof

/-- A line has exactly the operand words its format asks for (30 R74). -/
def Line.wellFormed (l : Line) : Bool := l.operands.length == l.instr.arity

/-- `CHANNEL_CAPACITY` is unbounded or a natural number of at least 2 (00 R7, 41 R132). -/
def Capacity.allowed : Capacity → Bool
  | .unbounded => true
  | .bounded n => decide (2 ≤ n)

/-- Every parameter has an allowed value (00 R7); only the capacity has a forbidden one. -/
def Config.wellFormed (c : Config) : Bool := c.channelCapacity.allowed

/-- Every literal of a program image lies in `Int64` (70 R245, 92 D1). -/
def imageWellFormed (image : List Int) : Bool := image.all fun v => decide (FitsInt64 v)

end Sys2Proof
end

