-- ==== Sys2Proof/Decode.lean ====
section
/-! DEFINITION. The Instruction Decoder (30_encoding.md R70 to R84), the encoder written from the
same tables, and `decodeTableWord` for the host. -/

namespace Sys2Proof

/-- `digit(w, k)`: the k-th decimal digit of a non-negative word, digit 0 the units (00 R10). -/
def digit (n k : Nat) : Nat := n / 10 ^ k % 10

/-- The mode of a mode digit (30 R72). Digits above 2 name no mode; `decode` never asks for the mode
of one, since it is either checked and rejected or belongs to no operand (30 R77, R79). -/
def modeOfDigit : Nat → Mode
  | 0 => .position
  | 1 => .immediate
  | _ => .relative

/-- The decoder's answer (30 R78): an instruction, or `Invalid(w)`, which the engine turns into the
error `InvalidModeDigit(w)`. -/
inductive Decoded where
  | instr (i : Instr)
  | invalid (w : Word)
  deriving DecidableEq, Repr

/-- The opcode table (30 R73, R74, R78): arity and constructor of each known opcode. The numbers 5, 6
and 7 are PRESUMED by the spec (92 D16; assumption log 12). -/
def opcodeRow : Nat → Option (Nat × (Mode → Mode → Mode → Instr))
  | 1  => some (3, .add)
  | 2  => some (3, .mul)
  | 3  => some (1, fun m1 _ _ => .read m1)
  | 4  => some (1, fun m1 _ _ => .write m1)
  | 5  => some (2, fun m1 m2 _ => .jumpIfTrue m1 m2)
  | 6  => some (2, fun m1 m2 _ => .jumpIfFalse m1 m2)
  | 7  => some (3, .lessThan)
  | 8  => some (3, .equals)
  | 9  => some (1, fun m1 _ _ => .adjustRelativeBase m1)
  | 99 => some (0, fun _ _ _ => .halt)
  | _  => none

/-- The three mode digits M1, M2, M3 of a non-negative word (30 R71). -/
def modeDigits (n : Nat) : List Nat := [digit n 2, digit n 3, digit n 4]

/-- The mode digits that are checked (30 R77, R78). -/
def checkedDigits (scope : BadDigitScope) (arity n : Nat) : List Nat :=
  match scope with
  | .used => (modeDigits n).take arity
  | .all  => modeDigits n

/-- `Decode(w)` (30 R78): pure and total, a function of the word and the two decoding parameters. -/
def decode (cfg : Config) (w : Word) : Decoded :=
  if w.toInt < 0 then .instr .skip
  else
    let n := w.toNat
    match opcodeRow (n % 100) with
    | none => .instr .skip
    | some (arity, build) =>
      if (checkedDigits cfg.badDigitScope arity n).any (fun d => decide (2 < d)) then
        match cfg.badDigitAction with
        | .skip  => .instr .skip
        | .fault => .invalid w
      else
        .instr (build (modeOfDigit (digit n 2)) (modeOfDigit (digit n 3)) (modeOfDigit (digit n 4)))

/-- The digit that names a mode (30 R72). -/
def digitOfMode : Mode → Nat
  | .position  => 0
  | .immediate => 1
  | .relative  => 2

/-- The canonical word `op + 100*m1 + 1000*m2 + 10000*m3` (30 R84). -/
def canonicalWord (op : Nat) (m1 m2 m3 : Mode) : Word :=
  BitVec.ofNat 64 (op + 100 * digitOfMode m1 + 1000 * digitOfMode m2 + 10000 * digitOfMode m3)

/-- The canonical instruction word of every instruction (30 R84): mode digit 0 for an absent operand,
and 0 for Skip, which has many spellings. -/
def encode : Instr → Word
  | .add m1 m2 m3          => canonicalWord 1 m1 m2 m3
  | .mul m1 m2 m3          => canonicalWord 2 m1 m2 m3
  | .read m1               => canonicalWord 3 m1 .position .position
  | .write m1              => canonicalWord 4 m1 .position .position
  | .jumpIfTrue m1 m2      => canonicalWord 5 m1 m2 .position
  | .jumpIfFalse m1 m2     => canonicalWord 6 m1 m2 .position
  | .lessThan m1 m2 m3     => canonicalWord 7 m1 m2 m3
  | .equals m1 m2 m3       => canonicalWord 8 m1 m2 m3
  | .adjustRelativeBase m1 => canonicalWord 9 m1 .position .position
  | .halt                  => canonicalWord 99 .position .position .position
  | .skip                  => canonicalWord 0 .position .position .position

/-- The words of an assembled line: the canonical word, then its operand words (30 R70, R85). -/
def assemble (l : Line) : List Word := encode l.instr :: l.operands

/-- The line at the front of a list of words, and the words after it (30 R70, R82): the instruction word
alone fixes how many operand words follow. -/
def disassemble (cfg : Config) (ws : List Word) : Option (Line × List Word) :=
  match ws with
  | [] => none
  | w :: rest =>
    match decode cfg w with
    | .invalid _ => none
    | .instr i =>
      if i.arity ≤ rest.length then some (⟨i, rest.take i.arity⟩, rest.drop i.arity) else none

/-- Word `k` of an instruction given as one number, 64 bits a word, the first word lowest; bits at or
above `nbits` are 0 (assumption log 13). -/
def tableWord (nbits w k : Nat) : Word := BitVec.ofNat 64 (w % 2 ^ nbits / 2 ^ (64 * k))

/-- The instruction the decoder reads from a word of the opcode table, at the spec's default
parameters (assumption log 13). -/
def decodeTableWord (nbits w : Nat) : Option Instr :=
  match decode Config.default (tableWord nbits w 0) with
  | .instr i   => some i
  | .invalid _ => none

end Sys2Proof
end

