-- ==== Sys2Proof/Machine/State.lean ====
section
/-! DEFINITION. The state of one core: the tuple of 10_state.md R20, the channels its ports name
(10 R30), and the parameters it was built with (10 R29). -/

namespace Sys2Proof.Machine

/-- The two ports of a core (41_io.md R122). -/
inductive Port where
  | reader
  | writer
  deriving DecidableEq, Repr

/-- The operations whose exact result may leave `Int64` (40 R104, 60 R201 E6). -/
inductive ArithOp where
  | add
  | mul
  | adjustRelativeBase
  | relativeAddress
  deriving DecidableEq, Repr

/-- The error values E1 to E8 with their payloads (60 R201). -/
inductive ErrorValue where
  | indexNotFound (a : Nat)
  | negativeAddress (a : Word)
  | readFromInput
  | writeToOutput
  | portDisabled (p : Port)
  | arithmeticOverflow (op : ArithOp)
  | negativeJumpTarget (t : Word)
  | invalidModeDigit (w : Word)
  deriving DecidableEq, Repr

/-- The run state (10 R26). Waiting is no fourth value (10 R27). -/
inductive Status where
  | running
  | halted
  | errored (e : ErrorValue)
  deriving DecidableEq, Repr

/-- The Reader binding (10 R28): `q` holds the values not yet consumed, `c` is a channel's identity. -/
inductive ReaderPort where
  | disabled
  | fixedSeq (q : List Word)
  | channel (c : Nat)
  deriving DecidableEq, Repr

/-- The Writer binding (10 R28): `log` holds the values written so far, `c` is a channel's identity. -/
inductive WriterPort where
  | disabled
  | fixedSeq (log : List Word)
  | channel (c : Nat)
  deriving DecidableEq, Repr

/-- A Cross-Machine Channel (10 R30, 41 R131). A side may be held by one core's port, by the host, or
by both; the two hold flags of a side say which (41 R133, R136; assumption log 9), and the side is
open while one of them is set (`Channel.senderOpen`, `Channel.receiverOpen` in Ops.lean). -/
structure Channel where
  queue        : List Word
  cap          : Capacity
  senderPort   : Bool
  senderHost   : Bool
  receiverPort : Bool
  receiverHost : Bool
  deriving DecidableEq, Repr

/-- The memory (20 R40, R41): the initial store `S`, whose length is `N`, and the overflow map `O` as
(address, word) pairs in the canonical form of `Memory.wf` (Ops.lean; assumption logs 2, 3). -/
structure Memory where
  store    : List Word
  overflow : List (Nat × Word)
  deriving DecidableEq, Repr

/-- The state of one core. A channel's identity is its place in `channels`. -/
structure State where
  mem      : Memory
  pc       : Nat
  rb       : Word
  status   : Status
  reader   : ReaderPort
  writer   : WriterPort
  channels : List Channel
  cfg      : Config
  deriving DecidableEq, Repr

/-- Why a step stops without a next state. The spec's own errors are not among these: they are taken,
as next states whose status is `errored` (60 R210; assumption log 5). -/
inductive Fault where
  /-- Raised by Read and Write when the port is bound to a channel identity `c` that no channel has.
  The host creates each channel before the core runs (70 R243), so no run from a launch meets it, and
  the spec gives no effect. Safe: the model stops where nothing is said (assumption log 10). -/
  | channelNotCreated (c : Nat)
  deriving DecidableEq, Repr

/-- Why the model has no meaning for an instruction. -/
inductive Refusal where
  /-- Raised by an arm of `exec` that has no meaning yet; no arm is left in that case. Safe. -/
  | notModelled (mnemonic : String)
  deriving DecidableEq, Repr

/-- The core right after the load of the empty image, before the host presets or binds anything
(70 R240, 92 D20, D21; assumption log 4), at the spec's default parameters (assumption log 1). -/
def State.reset : State where
  mem      := ⟨[], []⟩
  pc       := 0
  rb       := 0
  status   := .running
  reader   := .disabled
  writer   := .disabled
  channels := []
  cfg      := Config.default

end Sys2Proof.Machine
end

