-- ==== Sys2Proof/Machine/Ops.lean ====
section
/-! DEFINITION. The named operations over the state: updates, memory (20_memory.md R42 to R44),
`chk64` (00_scope.md R12), taking an error and halting (60_exceptions.md R210, 41_io.md R136), and the
fetch (30_encoding.md R87). -/

namespace Sys2Proof.Machine

/-! ### Updates, one a field -/

def State.setMem (s : State) (m : Memory) : State := { s with mem := m }
def State.setPc (s : State) (p : Nat) : State := { s with pc := p }
def State.setRb (s : State) (v : Word) : State := { s with rb := v }
def State.setStatus (s : State) (st : Status) : State := { s with status := st }
def State.setReader (s : State) (r : ReaderPort) : State := { s with reader := r }
def State.setWriter (s : State) (w : WriterPort) : State := { s with writer := w }
def State.setChannels (s : State) (cs : List Channel) : State := { s with channels := cs }
def State.setCfg (s : State) (c : Config) : State := { s with cfg := c }

/-- Sequential flow: `pc <- pc + k`, never wrapping (10 R22, R23; 42 R144). -/
def State.advance (s : State) (k : Nat) : State := s.setPc (s.pc + k)

/-- The status is Running (10 R26). -/
def State.isRunning (s : State) : Bool :=
  match s.status with
  | .running   => true
  | .halted    => false
  | .errored _ => false

/-! ### Memory -/

/-- `N`, the length of the initial store (10 R20, 20 R41). -/
def Memory.size (m : Memory) : Nat := m.store.length

/-- `O(a)`, or 0 where the overflow map has no entry (20 R44). -/
def overflowGet (a : Nat) : List (Nat × Word) → Word
  | []             => 0#64
  | (b, v) :: rest => if a = b then v else overflowGet a rest

/-- `O(a) <- v` on the canonical list: addresses rise strictly, and a word 0 leaves no entry, which
nothing can observe (20 R44, 92 D24). -/
def overflowPut (a : Nat) (v : Word) : List (Nat × Word) → List (Nat × Word)
  | []             => if v = 0#64 then [] else [(a, v)]
  | (b, x) :: rest =>
    if a < b then
      if v = 0#64 then (b, x) :: rest else (a, v) :: (b, x) :: rest
    else if a = b then
      if v = 0#64 then rest else (a, v) :: rest
    else
      (b, x) :: overflowPut a v rest

/-- The canonical form: overflow addresses rise strictly, are at or beyond `N`, and no entry holds 0,
which is what an unlisted address reads as (20 R41, R44; assumption log 3). -/
abbrev Memory.wf (m : Memory) : Prop :=
  m.overflow.Pairwise (fun x y => x.1 < y.1) ∧ ∀ c ∈ m.overflow, m.size ≤ c.1 ∧ c.2 ≠ 0#64

/-- `M(a)`, memory as a total function (20 R44). -/
def Memory.peek (m : Memory) (a : Nat) : Word :=
  if a < m.size then m.store.getD a 0#64 else overflowGet a m.overflow

/-- Memory with `M(a)` set to `v` and every other word, and `N`, unchanged (20 R43, R44). -/
def Memory.poke (m : Memory) (a : Nat) (v : Word) : Memory :=
  if a < m.size then { m with store := m.store.set a v }
  else { m with overflow := overflowPut a v m.overflow }

/-- The address exists: below `N`, or the overflow region is enabled (20 R42, R43). -/
def Memory.accessible (cfg : Config) (m : Memory) (a : Nat) : Bool :=
  decide (a < m.size) || cfg.overflowRegion == .enabled

/-- `MemRead(a, 1)` (20 R42). -/
def Memory.read (cfg : Config) (m : Memory) (a : Nat) : Except ErrorValue Word :=
  if m.accessible cfg a then .ok (m.peek a) else .error (.indexNotFound a)

/-- `MemWrite(a, 1, v)` (20 R43). -/
def Memory.write (cfg : Config) (m : Memory) (a : Nat) (v : Word) : Except ErrorValue Memory :=
  if m.accessible cfg a then .ok (m.poke a v) else .error (.indexNotFound a)

/-- `MemRead` on the core's memory. -/
def State.load (s : State) (a : Nat) : Except ErrorValue Word := s.mem.read s.cfg a

/-- `MemWrite` on the core's memory; nothing else of the state changes (20 R43). -/
def State.store (s : State) (a : Nat) (v : Word) : Except ErrorValue State :=
  (s.mem.write s.cfg a v).map s.setMem

/-! ### Exact arithmetic -/

/-- `chk64(op, v)` (00 R12, 40 R104): `v` when it fits, else what `ARITH_OVERFLOW` says. -/
def chk64 (cfg : Config) (op : ArithOp) (v : Int) : Except ErrorValue Word :=
  if FitsInt64 v then .ok (wordOfInt v)
  else
    match cfg.arithOverflow with
    | .fault => .error (.arithmeticOverflow op)
    | .wrap  => .ok (wordOfInt v)

/-! ### Channels -/

/-- Some agent holds the sending side (10 R30, 41 R133). -/
def Channel.senderOpen (c : Channel) : Bool := c.senderPort || c.senderHost

/-- Some agent holds the receiving side (10 R30, 41 R133). -/
def Channel.receiverOpen (c : Channel) : Bool := c.receiverPort || c.receiverHost

/-- The queue holds `CHANNEL_CAPACITY` values (10 R27, 41 R128, R132). -/
def Channel.full (c : Channel) : Bool :=
  match c.cap with
  | .unbounded => false
  | .bounded n => decide (n ≤ c.queue.length)

/-- The core's port lets go of the sending side (41 R136). -/
def Channel.releaseSenderPort (c : Channel) : Channel := { c with senderPort := false }

/-- The core's port lets go of the receiving side (41 R136). -/
def Channel.releaseReceiverPort (c : Channel) : Channel := { c with receiverPort := false }

/-- The receiving side of the Reader's channel is released (41 R136). -/
def releaseReader (r : ReaderPort) (cs : List Channel) : List Channel :=
  match r with
  | .disabled   => cs
  | .fixedSeq _ => cs
  | .channel c  => cs.modify c Channel.releaseReceiverPort

/-- The sending side of the Writer's channel is released (41 R136). -/
def releaseWriter (w : WriterPort) (cs : List Channel) : List Channel :=
  match w with
  | .disabled   => cs
  | .fixedSeq _ => cs
  | .channel c  => cs.modify c Channel.releaseSenderPort

/-! ### Stopping: Halted and Errored -/

/-- The core enters a terminal status and releases its channel endpoints (41 R136; assumption log 15).
Nothing else changes: `pc`, `rb`, memory and the bindings stay (92 D9). -/
def State.terminate (s : State) (st : Status) : State :=
  (s.setChannels (releaseWriter s.writer (releaseReader s.reader s.channels))).setStatus st

/-- Taking an error (60 R210): the status becomes `Errored(e)`; there is no handler, no saved `pc` and
no return (60 R200, R212). -/
def State.raise (s : State) (e : ErrorValue) : State := s.terminate (.errored e)

/-- The numbering E1 to E8 of the error values (60 R201, 92 D25). -/
def ErrorValue.code : ErrorValue → Nat
  | .indexNotFound _      => 1
  | .negativeAddress _    => 2
  | .readFromInput        => 3
  | .writeToOutput        => 4
  | .portDisabled _       => 5
  | .arithmeticOverflow _ => 6
  | .negativeJumpTarget _ => 7
  | .invalidModeDigit _   => 8

/-- The end of an instruction that began in `s`: its new state, or the error taken in `s`, so that an
error leaves none of the instruction's effects behind (00 R12, 60 R210). -/
def settle (s : State) (r : Except ErrorValue State) : Host.Outcome State Fault Refusal :=
  match r with
  | .ok t    => .next t
  | .error e => .next (s.raise e)

/-! ### Fetch -/

/-- Fetch and decode (30 R87): the word at `pc`, and what it decodes to. -/
def State.fetchDecode (s : State) : Except ErrorValue Instr :=
  match s.load s.pc with
  | .error e => .error e
  | .ok w =>
    match decode s.cfg w with
    | .instr i   => .ok i
    | .invalid w => .error (.invalidModeDigit w)

/-- Place one word where a fetch at `a` will read it, whatever `OVERFLOW_REGION` is: where the address
does not exist, the initial store grows to hold it (assumption log 14). The host's act, not the core's. -/
def Memory.place (cfg : Config) (m : Memory) (a : Nat) (v : Word) : Memory :=
  if m.accessible cfg a then m.poke a v
  else { m with store := (m.store ++ List.replicate (a + 1 - m.size) 0#64).set a v }

/-- The four words of a table row's instruction placed at `pc` (assumption logs 13, 14). -/
def State.placeAtPc (s : State) (nbits w : Nat) : State :=
  let put := fun (m : Memory) (k : Nat) => m.place s.cfg (s.pc + k) (tableWord nbits w k)
  (s.setMem (put (put (put (put s.mem 0) 1) 2) 3)).setStatus .running

end Sys2Proof.Machine
end

