-- ==== Sys2Proof/Machine/Operands.lean ====
section
/-! DEFINITION. The operand forms: the three parameter modes as sources and as destinations
(20_memory.md R45 to R49). -/

namespace Sys2Proof.Machine

/-- The sign check of a resolved address (20 R45, 60 R203). -/
def addressOf (a : Word) : Except ErrorValue Nat :=
  if a.toInt < 0 then .error (.negativeAddress a) else .ok a.toInt.toNat

/-- `Resolve(index, mode)` (20 R45): the read of the operand word, then the Relative sum, then the sign
check (60 R211 step 4). -/
def resolve (s : State) (index : Nat) (mode : Mode) : Except ErrorValue Nat :=
  match mode with
  | .position  => do
      let w ← s.load index
      addressOf w
  | .immediate => .ok index
  | .relative  => do
      let w ← s.load index
      let a ← chk64 s.cfg .relativeAddress (w.toInt + s.rb.toInt)
      addressOf a

/-- `Operand(k, m)`, the value of source operand `k` (20 R46). -/
def operand (s : State) (k : Nat) (m : Mode) : Except ErrorValue Word := do
  let a ← resolve s (s.pc + k) m
  s.load a

/-- `Dest(k, m)`, the address destination operand `k` names (20 R47). -/
def dest (s : State) (k : Nat) (m : Mode) : Except ErrorValue Nat := resolve s (s.pc + k) m

/-- The shape of Add, Mul, LessThan and Equals (40 R100, R101; 43 R160, R161): read p1 and p2, resolve
p3, compute, write, advance by 4. -/
def binaryToDest (f : Word → Word → Except ErrorValue Word) (m1 m2 m3 : Mode) (s : State) :
    Host.Outcome State Fault Refusal :=
  settle s do
    let a ← operand s 1 m1
    let b ← operand s 2 m2
    let d ← dest s 3 m3
    let r ← f a b
    let t ← s.store d r
    return t.advance 4

end Sys2Proof.Machine
end

