-- ==== Sys2Proof/Machine/Arithmetic.lean ====
section
/-! DEFINITION. Add and Mul (40_arithmetic.md R100, R101). -/

namespace Sys2Proof.Machine

/-- Add (40 R100): the exact sum through `chk64`. -/
def execAdd (m1 m2 m3 : Mode) (s : State) : Host.Outcome State Fault Refusal :=
  binaryToDest (fun a b => chk64 s.cfg .add (a.toInt + b.toInt)) m1 m2 m3 s

/-- Mul (40 R101): the exact product through `chk64`. -/
def execMul (m1 m2 m3 : Mode) (s : State) : Host.Outcome State Fault Refusal :=
  binaryToDest (fun a b => chk64 s.cfg .mul (a.toInt * b.toInt)) m1 m2 m3 s

end Sys2Proof.Machine
end

