-- ==== Sys2Proof/Machine/Flags.lean ====
section
/-! DEFINITION. The core has no flags, condition codes or predicates (10_state.md R25). What stands in
for them are words: comparisons write 1 or 0 (43_compare.md R162), and the jumps test a word against 0
(42_control.md R140, R141). -/

namespace Sys2Proof.Machine

/-- The word of a comparison's result: 1 for true, 0 for false (43 R162). -/
def truthWord (b : Bool) : Word := if b then 1 else 0

/-- `a < b` as signed integers (43 R160, 40 R103). The direction is PRESUMED by the spec (92 D16;
assumption log 12). -/
def signedLess (a b : Word) : Bool := decide (a.toInt < b.toInt)

/-- `a = b` as integers (43 R161, 40 R103). -/
def signedEqual (a b : Word) : Bool := decide (a.toInt = b.toInt)

/-- A condition word is true when it is not 0 (42 R140). -/
def wordIsTrue (c : Word) : Bool := decide (c.toInt ≠ 0)

/-- A condition word is false when it is exactly 0 (42 R141). -/
def wordIsFalse (c : Word) : Bool := decide (c.toInt = 0)

end Sys2Proof.Machine
end

