-- ==== Sys2Proof/Machine/Compare.lean ====
section
/-! DEFINITION. LessThan and Equals (43_compare.md R160, R161). -/

namespace Sys2Proof.Machine

/-- LessThan (43 R160): 1 when the first operand is less than the second. -/
def execLessThan (m1 m2 m3 : Mode) (s : State) : Host.Outcome State Fault Refusal :=
  binaryToDest (fun a b => .ok (truthWord (signedLess a b))) m1 m2 m3 s

/-- Equals (43 R161): 1 when the operands are equal. -/
def execEquals (m1 m2 m3 : Mode) (s : State) : Host.Outcome State Fault Refusal :=
  binaryToDest (fun a b => .ok (truthWord (signedEqual a b))) m1 m2 m3 s

end Sys2Proof.Machine
end

