-- ==== Sys2Proof/Machine/Control.lean ====
section
/-! DEFINITION. JumpIfTrue and JumpIfFalse (42_control.md R140 to R142). -/

namespace Sys2Proof.Machine

/-- A taken jump to `t` (42 R142): the target must not be negative. -/
def jumpTo (s : State) (t : Word) : Except ErrorValue State :=
  if t.toInt < 0 then .error (.negativeJumpTarget t) else .ok (s.setPc t.toInt.toNat)

/-- The shape of the two jumps: both operands are read whether or not the jump is taken, and only a
taken jump looks at the target's sign (42 R140, R141; 92 D4, D7). -/
def jumpWhen (taken : Word → Bool) (m1 m2 : Mode) (s : State) : Host.Outcome State Fault Refusal :=
  settle s do
    let c ← operand s 1 m1
    let t ← operand s 2 m2
    if taken c then jumpTo s t else return s.advance 3

/-- JumpIfTrue (42 R140): every word but 0 is true. -/
def execJumpIfTrue (m1 m2 : Mode) (s : State) : Host.Outcome State Fault Refusal :=
  jumpWhen wordIsTrue m1 m2 s

/-- JumpIfFalse (42 R141): only 0 is false. -/
def execJumpIfFalse (m1 m2 : Mode) (s : State) : Host.Outcome State Fault Refusal :=
  jumpWhen wordIsFalse m1 m2 s

end Sys2Proof.Machine
end

