-- ==== Sys2Proof/Machine/Ports.lean ====
section
/-! DEFINITION. The I/O port multiplexer (41_io.md R122 to R135): one Reader and one Writer, each
Disabled, a Fixed Sequence, or a Cross-Machine Channel. -/

namespace Sys2Proof.Machine

/-- What receiving from a channel gives (41 R124, R126). -/
inductive ReceiveResult where
  /-- The head of the queue, and the channel without it. -/
  | received (v : Word) (c : Channel)
  /-- The queue is empty and the sending side is closed. -/
  | closed
  /-- The queue is empty and the sending side is open. -/
  | empty
  deriving DecidableEq, Repr

/-- What sending on a channel gives (41 R128). -/
inductive SendResult where
  /-- The channel with the value at the end of its queue. -/
  | sent (c : Channel)
  /-- The receiving side is closed. -/
  | closed
  /-- The queue is full and the receiving side is open. -/
  | full
  deriving DecidableEq, Repr

/-- Receive (41 R124): a queued value is delivered even after the sending side has closed (R126). -/
def Channel.receive (c : Channel) : ReceiveResult :=
  match c.queue with
  | v :: rest => .received v { c with queue := rest }
  | []        => if c.senderOpen then .empty else .closed

/-- Send (41 R128): the closed receiving side is looked at before the capacity. -/
def Channel.send (c : Channel) (v : Word) : SendResult :=
  if c.receiverOpen then
    if c.full then .full else .sent { c with queue := c.queue ++ [v] }
  else .closed

/-- What a port operation gives: a result and the state after it, an error, a wait, or a channel
identity that no channel has (assumption log 10). -/
inductive PortResult (α : Type) where
  | done (x : α) (s : State)
  | error (e : ErrorValue)
  | wait
  | missing (c : Nat)
  deriving DecidableEq, Repr

/-- `ReaderRead()` (41 R124). -/
def readerRead (s : State) : PortResult Word :=
  match s.reader with
  | .disabled => .error (.portDisabled .reader)
  | .fixedSeq q =>
    match q with
    | []        => .error .readFromInput
    | v :: rest => .done v (s.setReader (.fixedSeq rest))
  | .channel c =>
    match s.channels[c]? with
    | none => .missing c
    | some ch =>
      match ch.receive with
      | .received v ch' => .done v (s.setChannels (s.channels.set c ch'))
      | .closed         => .error .readFromInput
      | .empty          => .wait

/-- `WriterWrite(v)` (41 R128). -/
def writerWrite (s : State) (v : Word) : PortResult Unit :=
  match s.writer with
  | .disabled     => .error (.portDisabled .writer)
  | .fixedSeq log => .done () (s.setWriter (.fixedSeq (log ++ [v])))
  | .channel c =>
    match s.channels[c]? with
    | none => .missing c
    | some ch =>
      match ch.send v with
      | .sent ch' => .done () (s.setChannels (s.channels.set c ch'))
      | .closed   => .error .writeToOutput
      | .full     => .wait

/-- The Reader is a channel whose queue is empty while its sending side is open (10 R27). -/
def State.readerBlocked (s : State) : Bool :=
  match s.reader with
  | .disabled   => false
  | .fixedSeq _ => false
  | .channel c  =>
    match s.channels[c]? with
    | none    => false
    | some ch => ch.queue.isEmpty && ch.senderOpen

/-- The Writer is a channel at its capacity while its receiving side is open (10 R27). -/
def State.writerBlocked (s : State) : Bool :=
  match s.writer with
  | .disabled   => false
  | .fixedSeq _ => false
  | .channel c  =>
    match s.channels[c]? with
    | none    => false
    | some ch => ch.full && ch.receiverOpen

/-- How an instruction that began in `s` goes on after its port operation. A wait takes no step: the
state is unchanged and the instruction runs from its start when it is next tried (41 R134, 92 D22;
assumption log 7). -/
def afterPort {α : Type} (s : State) (r : PortResult α)
    (k : α → State → Host.Outcome State Fault Refusal) : Host.Outcome State Fault Refusal :=
  match r with
  | .done x t  => k x t
  | .error e   => .next (s.raise e)
  | .wait      => .next s
  | .missing c => .fault (.channelNotCreated c)

end Sys2Proof.Machine
end

