-- ==== Sys2Proof/Machine/InOut.lean ====
section
/-! DEFINITION. Read and Write (41_io.md R120, R121), and when they wait (10_state.md R27). -/

namespace Sys2Proof.Machine

/-- Read (41 R120): the Reader is consulted before the destination is resolved, so an error of the
destination is taken in the state that has already lost the value (92 D8). -/
def execRead (m1 : Mode) (s : State) : Host.Outcome State Fault Refusal :=
  afterPort s (readerRead s) fun v t =>
    settle t do
      let d ← dest t 1 m1
      let u ← t.store d v
      return u.advance 2

/-- Write (41 R121): on a full channel with an open receiving side nothing of the instruction happens,
not even the read of its operand (10 R27, 41 R134; assumption log 8). Otherwise the operand is read
first, so its errors come before the port's (60 R211 steps 4 and 6). -/
def execWrite (m1 : Mode) (s : State) : Host.Outcome State Fault Refusal :=
  if s.writerBlocked then .next s
  else
    match operand s 1 m1 with
    | .error e => .next (s.raise e)
    | .ok v    => afterPort s (writerWrite s v) fun _ t => .next (t.advance 2)

/-- The core is waiting (10 R27, 41 R134): Running, and the word at `pc` decodes to a Read whose Reader
is blocked, or to a Write whose Writer is. -/
def State.waiting (s : State) : Bool :=
  s.isRunning &&
  match s.fetchDecode with
  | .ok (.read _)  => s.readerBlocked
  | .ok (.write _) => s.writerBlocked
  | _ => false

/-- The core's step is enabled (60 R222). -/
def State.enabled (s : State) : Bool := s.isRunning && !s.waiting

end Sys2Proof.Machine
end

