-- ==== Sys2Proof/Machine/System.lean ====
section
/-! DEFINITION. AdjustRelativeBase, Halt and Skip (44_system.md R180 to R182). -/

namespace Sys2Proof.Machine

/-- AdjustRelativeBase (44 R180): the operand is read with the old `rb`; a negative new base is no
error (92 D26). -/
def execAdjustRelativeBase (m1 : Mode) (s : State) : Host.Outcome State Fault Refusal :=
  settle s do
    let v ← operand s 1 m1
    let b ← chk64 s.cfg .adjustRelativeBase (s.rb.toInt + v.toInt)
    return (s.setRb b).advance 2

/-- Halt (44 R181): the status becomes Halted, `pc` stays at the Halt word, and the core releases its
channel endpoints (41 R136). -/
def execHalt (s : State) : Host.Outcome State Fault Refusal := .next (s.terminate .halted)

/-- Skip (44 R182): one word further, nothing else. -/
def execSkip (s : State) : Host.Outcome State Fault Refusal := .next (s.advance 1)

end Sys2Proof.Machine
end

