-- ==== Sys2Proof/Machine/Step.lean ====
section
/-! DEFINITION. One step of the Execution Engine (30_encoding.md R87), and the host's placing of an
instruction where the next step fetches it. -/

namespace Sys2Proof.Machine

/-- `Step()` (30 R87): while Running, fetch, decode and execute; an error of the fetch or of the decode
is taken. A stopped core has no step: a step request changes nothing (30 R89, 92 D9; assumption
log 6). -/
def step (s : State) : Host.Outcome State Fault Refusal :=
  if s.isRunning then
    match s.fetchDecode with
    | .ok i    => exec i s
    | .error e => .next (s.raise e)
  else .next s

/-- `s`, Running, with the instruction whose words are the number `w` stored at `pc`
(assumption log 14). -/
def State.withFetchWord (s : State) (nbits w : Nat) : State := s.placeAtPc nbits w

end Sys2Proof.Machine
end

