-- ==== Sys2Proof/Machine/HostSide.lean ====
section
/-! DEFINITION. What the host does: load, preset, bind and pre-seed before the first step
(70_reset_and_hazards.md R240 to R245), act on channels during the run (41_io.md R133, R137), and read
the end of the run (70 R250). Each act answers `none` where it is refused or not enabled (assumption
logs 17, 18). -/

namespace Sys2Proof.Machine

/-! ### Load and presets -/

/-- `Load(image)` (70 R240): reset with the image as the initial store. -/
def loadImage (cfg : Config) (image : List Word) : State :=
  { State.reset with mem := ⟨image, []⟩, cfg := cfg }

/-- Load of a list of integers; a literal outside `Int64` is a parse failure, and no core is made
(70 R245, 93 U15). -/
def loadIntegers (cfg : Config) (image : List Int) : Option State :=
  if imageWellFormed image then some (loadImage cfg (image.map wordOfInt)) else none

/-- The host sets one memory word (70 R241), where the address exists (20 R43). -/
def presetWord (s : State) (a : Nat) (v : Word) : Option State := (s.store a v).toOption

/-- The host sets the words of a list, in order. -/
def presetWords (s : State) : List (Nat × Word) → Option State
  | []             => some s
  | (a, v) :: rest => (presetWord s a v).bind fun t => presetWords t rest

/-! ### Bindings -/

/-- The host binds the unbound Reader (70 R243 step 4; 41 R122, 10 R28). A channel is named by its
identity; it is created after the binding (step 5). -/
def bindReader (s : State) (r : ReaderPort) : Option State :=
  if s.reader = .disabled then some (s.setReader r) else none

/-- A Writer as it stands once bound: a Fixed Sequence log is empty at bind (10 R28). -/
def WriterPort.atBind : WriterPort → WriterPort
  | .disabled   => .disabled
  | .fixedSeq _ => .fixedSeq []
  | .channel c  => .channel c

/-- The host binds the unbound Writer (70 R243 step 4; 41 R122, 10 R28). -/
def bindWriter (s : State) (w : WriterPort) : Option State :=
  if s.writer = .disabled then some (s.setWriter w.atBind) else none

/-- The channel a Reader names. -/
def ReaderPort.channelId : ReaderPort → Option Nat
  | .disabled   => none
  | .fixedSeq _ => none
  | .channel c  => some c

/-- The channel a Writer names. -/
def WriterPort.channelId : WriterPort → Option Nat
  | .disabled   => none
  | .fixedSeq _ => none
  | .channel c  => some c

/-- The channels that the Readers of some cores name. -/
def readerIds (cores : List State) : List Nat := cores.filterMap fun s => s.reader.channelId

/-- The channels that the Writers of some cores name. -/
def writerIds (cores : List State) : List Nat := cores.filterMap fun s => s.writer.channelId

/-! ### Channels -/

/-- The host creates `k` channels for cores already bound (70 R243 step 5). At creation the queue is
empty and both sides are open (10 R30): held by the port bound to the side, if there is one, and by
the host, who makes the network (assumption log 9). -/
def createChannels (cap : Capacity) (k : Nat) (cores : List State) : List Channel :=
  (List.range k).map fun c =>
    { queue        := []
      cap          := cap
      senderPort   := decide (c ∈ writerIds cores)
      senderHost   := true
      receiverPort := decide (c ∈ readerIds cores)
      receiverHost := true }

/-- Every port names a channel that is made, and no side is bound to two cores' ports (41 R131). -/
def wiringOk (k : Nat) (cores : List State) : Bool :=
  decide ((∀ c ∈ readerIds cores, c < k) ∧ (∀ c ∈ writerIds cores, c < k) ∧
    (readerIds cores).Nodup ∧ (writerIds cores).Nodup)

/-- The cores start (70 R243 step 6): the host, which pre-seeded the channel, lets go of a sending side
that a core's port holds, since it holds a side alongside a core only to receive a final result
(41 R131; assumption log 24). -/
def Channel.start (ch : Channel) : Channel :=
  { ch with senderHost := ch.senderHost && !ch.senderPort }

/-! ### The host as a channel agent -/

/-- The acts of the host on a channel (41 R133, R137). -/
inductive HostAct where
  | send (c : Nat) (v : Word)
  | receive (c : Nat)
  | releaseSender (c : Nat)
  | releaseReceiver (c : Nat)
  deriving DecidableEq, Repr

/-- The host sends, by the queue rules of a Writer, on a channel whose sending side it holds: this is
pre-seeding (41 R137, 70 R244). -/
def hostSend (cs : List Channel) (c : Nat) (v : Word) : Option (List Channel) :=
  match cs[c]? with
  | none => none
  | some ch =>
    if ch.senderHost then
      match ch.send v with
      | .sent ch' => some (cs.set c ch')
      | .closed   => none
      | .full     => none
    else none

/-- The host receives, by the queue rules of a Reader, from a channel whose receiving side it holds
(41 R137): the value, and the channels after it. A result is final once no core's port holds that side
(41 R131; assumption log 24). -/
def hostReceive (cs : List Channel) (c : Nat) : Option (Word × List Channel) :=
  match cs[c]? with
  | none => none
  | some ch =>
    if ch.receiverHost && !ch.receiverPort then
      match ch.receive with
      | .received v ch' => some (v, cs.set c ch')
      | .closed         => none
      | .empty          => none
    else none

/-- One act of the host on the channels. Releasing a side it does not hold changes nothing. -/
def hostAct (a : HostAct) (cs : List Channel) : Option (List Channel) :=
  match a with
  | .send c v          => hostSend cs c v
  | .receive c         => (hostReceive cs c).map Prod.snd
  | .releaseSender c   => some (cs.modify c fun ch => { ch with senderHost := false })
  | .releaseReceiver c => some (cs.modify c fun ch => { ch with receiverHost := false })

/-- Acts of the host, in order. -/
def hostActs (cs : List Channel) : List HostAct → Option (List Channel)
  | []        => some cs
  | a :: rest => (hostAct a cs).bind fun ds => hostActs ds rest

/-! ### Boot -/

/-- What a launch says of one core (70 R251): the image, the presets and the bindings. -/
structure CoreLaunch where
  image  : List Int
  rb     : Word
  words  : List (Nat × Word)
  reader : ReaderPort
  writer : WriterPort
  deriving DecidableEq, Repr

/-- The launch of one core: with it the parameters, the number of channels, and the host's acts on them
before the core starts (pre-seeding, and releasing the sides it does not keep). -/
structure Launch extends CoreLaunch where
  cfg      : Config
  channels : Nat
  acts     : List HostAct
  deriving DecidableEq, Repr

/-- Steps 1 to 4 of the boot order (70 R243): parse, load, preset, bind. -/
def bootCore (cfg : Config) (l : CoreLaunch) : Option State :=
  (loadIntegers cfg l.image).bind fun s0 =>
  (presetWords (s0.setRb l.rb) l.words).bind fun s1 =>
  (bindReader s1 l.reader).bind fun s2 => bindWriter s2 l.writer

/-- Steps 5 and 6 of the boot order (70 R243): create the channels for the bound cores, pre-seed, and
start. -/
def bootChannels (cap : Capacity) (k : Nat) (cores : List State) (acts : List HostAct) :
    Option (List Channel) :=
  if wiringOk k cores then
    (hostActs (createChannels cap k cores) acts).map fun cs => cs.map Channel.start
  else none

/-- The boot of one core, in the order of 70 R243. -/
def boot (l : Launch) : Option State :=
  (bootCore l.cfg l.toCoreLaunch).bind fun s =>
  (bootChannels l.cfg.channelCapacity l.channels [s] l.acts).map s.setChannels

/-! ### The end of a run -/

/-- What the host may read of a core (70 R250): the log only of a Fixed Sequence Writer. -/
structure HostView where
  status : Status
  mem    : Memory
  log    : Option (List Word)
  pc     : Nat
  rb     : Word
  deriving DecidableEq, Repr

/-- The host's view of a core (70 R250, 60 R214). -/
def hostView (s : State) : HostView where
  status := s.status
  mem    := s.mem
  log    :=
    match s.writer with
    | .disabled     => none
    | .fixedSeq log => some log
    | .channel _    => none
  pc     := s.pc
  rb     := s.rb

end Sys2Proof.Machine
end

