-- ==== Sys2Proof/Machine/Network.lean ====
section
/-! DEFINITION. Several cores and the host, joined only by channels (41_io.md R131, R138;
60_exceptions.md R221, R222). The topology is the host's and is not modelled (00_scope.md R6); which
agent moves next is the argument of `Network.act`, so every interleaving is a list of agents
(assumption log 19). -/

namespace Sys2Proof.Machine

/-- The cores and the channels they share. Between its steps a core's own `channels` field is empty:
the channels stand here. -/
structure Network where
  cores    : List State
  channels : List Channel
  deriving DecidableEq, Repr

/-- The agents (60 R222): each core, and the host. -/
inductive Agent where
  | core (k : Nat)
  | host (a : HostAct)
  deriving DecidableEq, Repr

/-- The state of core `k` as it sees it: its own state, and the shared channels. -/
def Network.core (n : Network) (k : Nat) : Option State :=
  (n.cores[k]?).map fun s => s.setChannels n.channels

/-- Core `k` moved to the state `t`: its own state and the shared channels change, no other core. -/
def Network.setCore (n : Network) (k : Nat) (t : State) : Network :=
  { cores := n.cores.set k (t.setChannels []), channels := t.channels }

/-- One atomic step of core `k` (92 D22). -/
def Network.coreStep (n : Network) (k : Nat) : Option Network :=
  match n.core k with
  | none => none
  | some s =>
    match step s with
    | .next t    => some (n.setCore k t)
    | .fault _   => none
    | .refused _ => none

/-- One move of an agent. -/
def Network.act (n : Network) (g : Agent) : Option Network :=
  match g with
  | .core k => n.coreStep k
  | .host a => (hostAct a n.channels).map fun cs => { n with channels := cs }

/-- A run of the network: the moves of a list of agents, in order. -/
def Network.run (n : Network) : List Agent → Option Network
  | []      => some n
  | g :: gs => (n.act g).bind fun m => m.run gs

/-- The network with its cores built with other parameters (10 R29). -/
def Network.setCfg (n : Network) (c : Config) : Network :=
  { n with cores := n.cores.map fun s => s.setCfg c }

/-! ### Boot and end -/

/-- The launch of a network: the parameters, the cores, the number of channels, and the host's acts on
them before any core starts (70 R243, R244). That all cores of a network are built with the same
parameters is the model's choice (assumption log 26). -/
structure NetworkLaunch where
  cfg      : Config
  cores    : List CoreLaunch
  channels : Nat
  acts     : List HostAct
  deriving DecidableEq, Repr

/-- Steps 1 to 4 of the boot order for each core (70 R243). -/
def bootCores (cfg : Config) : List CoreLaunch → Option (List State)
  | []        => some []
  | l :: rest => (bootCore cfg l).bind fun s => (bootCores cfg rest).map fun ss => s :: ss

/-- The boot of a network: every core is bound before the channels are made and pre-seeded, and every
channel before any core steps (70 R243, R244). -/
def bootNetwork (l : NetworkLaunch) : Option Network :=
  (bootCores l.cfg l.cores).bind fun cores =>
  (bootChannels l.cfg.channelCapacity l.channels cores l.acts).map fun cs => ⟨cores, cs⟩

/-- The run of a network has ended: the run of every core has (70 R249). -/
def Network.ended (n : Network) : Bool := n.cores.all fun s => !s.isRunning

/-- The host's final receive (70 R249, 41 R137): when the run has ended, a result from channel `c`. -/
def Network.finalReceive (n : Network) (c : Nat) : Option (Word × Network) :=
  if n.ended then
    (hostReceive n.channels c).map fun r => (r.1, { n with channels := r.2 })
  else none

end Sys2Proof.Machine
end

