-- ==== Sys2Proof/Safety.lean ====
section
/-! DEFINITION. The terms claims are stated in: the invariant of the state, final states and safe
ones, and the premise of 95_test_vectors.md section 4 for one step. -/

namespace Sys2Proof.Machine

/-- A channel has the capacity of the core's parameter and holds no more than that (10 R30, 41 R132),
and the host does not hold its sending side alongside a core (41 R131). -/
def Channel.wf (cfg : Config) (c : Channel) : Bool :=
  decide (c.cap = cfg.channelCapacity) && !(c.senderPort && c.senderHost) &&
  match c.cap with
  | .unbounded => true
  | .bounded n => decide (c.queue.length ≤ n)

/-- A Reader bound to a channel names one that exists, and the core holds its receiving side while it
is Running (10 R28, 41 R136). -/
def State.readerWf (s : State) : Bool :=
  match s.reader with
  | .disabled   => true
  | .fixedSeq _ => true
  | .channel c  =>
    match s.channels[c]? with
    | none    => false
    | some ch => !s.isRunning || ch.receiverPort

/-- A Writer bound to a channel names one that exists, and the core holds its sending side while it
is Running (10 R28, 41 R136). -/
def State.writerWf (s : State) : Bool :=
  match s.writer with
  | .disabled   => true
  | .fixedSeq _ => true
  | .channel c  =>
    match s.channels[c]? with
    | none    => false
    | some ch => !s.isRunning || ch.senderPort

/-- The invariant of a core: canonical memory (20 R41, R44), allowed parameters (00 R7), channels within
their capacity (41 R132), ports bound to channels that exist (70 R243). -/
abbrev State.wf (s : State) : Prop :=
  s.mem.wf ∧ s.cfg.wellFormed = true ∧ (∀ c ∈ s.channels, c.wf s.cfg = true) ∧
    s.readerWf = true ∧ s.writerWf = true

/-- The run of the core has ended (70 R249): Halted or Errored, both final. -/
def State.final (s : State) : Bool := !s.isRunning

/-- No error has been taken: a run is safe when every state of it is. -/
def State.safe (s : State) : Bool :=
  match s.status with
  | .running   => true
  | .halted    => true
  | .errored _ => false

/-- The fetched word, if there is one and it is not negative, has no mode digit above 2
(00 R8, 95 section 4 point 2). -/
def State.digitsFit (s : State) : Bool :=
  match s.load s.pc with
  | .error _ => true
  | .ok w    => decide (w.toInt < 0) || (modeDigits w.toNat).all fun d => decide (d ≤ 2)

/-- Every exact result the step computes lies in `Int64` (95 section 4 point 1): with `ARITH_OVERFLOW =
fault`, the step takes no `ArithmeticOverflow`. -/
def State.resultsFit (s : State) : Bool :=
  match step (s.setCfg { s.cfg with arithOverflow := .fault }) with
  | .next t =>
    match t.status with
    | .running   => true
    | .halted    => true
    | .errored e => e.code != 6
  | .fault _   => true
  | .refused _ => true

/-- `WellFormedRun` of one step (00 R8, 95 section 4). -/
def State.wellFormedStep (s : State) : Bool := s.digitsFit && s.resultsFit

/-- Every step of the run from `s` is well formed (95 section 4). -/
def State.wellFormedRun (s : State) : Prop :=
  ∀ (k : Nat) (t : State), Sys2Proof.core.run k s = .next t → t.isRunning = true →
    t.wellFormedStep = true

/-- Every step of every core is well formed in every run of the network (95 section 4): whatever agents
move, in whatever order (60 R222; assumption log 25). -/
def Network.wellFormedRun (n : Network) : Prop :=
  ∀ (gs : List Agent) (m : Network) (k : Nat) (s : State), n.run gs = some m → m.core k = some s →
    s.isRunning = true → s.wellFormedStep = true

/-- `WellFormedRun` of a launch (00 R8, 95 section 4): of the run it gives under the defaults. -/
def Launch.wellFormedRun (l : Launch) : Prop :=
  ∀ s, boot { l with cfg := l.cfg.openDefaults } = some s → s.wellFormedRun

/-- `WellFormedRun` of the launch of a network (00 R8, 95 section 4). -/
def NetworkLaunch.wellFormedRun (l : NetworkLaunch) : Prop :=
  ∀ n, bootNetwork { l with cfg := l.cfg.openDefaults } = some n → n.wellFormedRun

/-- The channels after the core let go of its endpoints (41 R136): each keeps its queue, its capacity
and the host's holds, and loses the hold of this core's port, if it had one. -/
def State.endpointsReleased (s : State) (cs : List Channel) : Prop :=
  cs.length = s.channels.length ∧
  ∀ (c : Nat) (ch : Channel), s.channels[c]? = some ch →
    cs[c]? = some { ch with
      receiverPort := ch.receiverPort && !decide (s.reader = .channel c)
      senderPort := ch.senderPort && !decide (s.writer = .channel c) }

/-- The core that a launch asks for (70 R240 to R243, R245): Running at `pc` 0 with the launch's `rb` and
bindings, a Fixed Sequence log empty (10 R28); a word the presets name holds the last value listed for
it, every other word is the image's, or 0 beyond it. -/
structure LaunchedAs (l : CoreLaunch) (s : State) : Prop where
  status         : s.status = .running
  pc             : s.pc = 0
  rb             : s.rb = l.rb
  reader         : s.reader = l.reader
  writerDisabled : l.writer = .disabled → s.writer = .disabled
  writerFixedSeq : ∀ log, l.writer = .fixedSeq log → s.writer = .fixedSeq []
  writerChannel  : ∀ c, l.writer = .channel c → s.writer = .channel c
  size           : s.mem.size = l.image.length
  presets        : ∀ pre post a v, l.words = pre ++ (a, v) :: post → (∀ p ∈ post, p.1 ≠ a) →
    s.mem.peek a = v
  image          : ∀ a v, (∀ p ∈ l.words, p.1 ≠ a) → l.image[a]? = some v → (s.mem.peek a).toInt = v
  beyond         : ∀ a, (∀ p ∈ l.words, p.1 ≠ a) → l.image.length ≤ a → s.mem.peek a = 0

/-- The value an act of the host sends on channel `c`, if it is such a send. -/
def HostAct.sentOn (c : Nat) : HostAct → Option Word
  | .send b v          => if b = c then some v else none
  | .receive _         => none
  | .releaseSender _   => none
  | .releaseReceiver _ => none

/-- The duties of a launch for one core: its literals lie in `Int64` (70 R245), its presets are at
addresses that exist (70 R241, 20 R43), and its ports name channels that are made (70 R243). -/
def CoreLaunch.duties (cfg : Config) (channels : Nat) (l : CoreLaunch) : Prop :=
  (∀ v ∈ l.image, FitsInt64 v) ∧
  (∀ p ∈ l.words, p.1 < l.image.length ∨ cfg.overflowRegion = .enabled) ∧
  (∀ c, l.reader = .channel c → c < channels) ∧ ∀ c, l.writer = .channel c → c < channels

/-- The host pre-seeds channels that are made, within their capacity, and then lets go of whatever sides
it does not keep (70 R244, 41 R132, R133, R137). Releases of sides it does not hold are among those
allowed here, as assumption log 18 has it. -/
def PreSeeds (cfg : Config) (channels : Nat) (acts : List HostAct) : Prop :=
  ∃ sends releases, acts = sends ++ releases ∧
    (∀ a ∈ sends, ∃ c v, a = .send c v ∧ c < channels) ∧
    (∀ c n, cfg.channelCapacity = .bounded n → (sends.filterMap (HostAct.sentOn c)).length ≤ n) ∧
    ∀ a ∈ releases, ∃ c, a = .releaseSender c ∨ a = .releaseReceiver c

/-- Core `s` uses channel `c`: one of its ports is bound to it (10 R28). -/
def State.uses (s : State) (c : Nat) : Prop := s.reader = .channel c ∨ s.writer = .channel c

/-- The invariant of a network: every core is well formed as it sees the shared channels, each side of a
channel is bound to at most one core's port (41 R131), and a side is held by a port only while a
Running core is bound to it, so that a side closes when its last holder stops or lets go (41 R133,
R136). -/
def Network.wf (n : Network) : Prop :=
  (∀ (k : Nat) (s : State), n.core k = some s → s.wf) ∧
  (∀ (j k : Nat) (s t : State) (c : Nat), j ≠ k → n.core j = some s → n.core k = some t →
    (s.reader = .channel c → t.reader ≠ .channel c) ∧
    (s.writer = .channel c → t.writer ≠ .channel c)) ∧
  (∀ (c : Nat) (ch : Channel), n.channels[c]? = some ch →
    (ch.receiverPort = true → ∃ k s, n.core k = some s ∧ s.isRunning = true ∧
      s.reader = .channel c) ∧
    (ch.senderPort = true → ∃ k s, n.core k = some s ∧ s.isRunning = true ∧
      s.writer = .channel c))

/-- Two parameter choices that differ at most in `ARITH_OVERFLOW`, `BAD_MODE_DIGIT_ACTION` and
`BAD_MODE_DIGIT_SCOPE`. -/
def sameBlock (c d : Config) : Prop :=
  c.overflowRegion = d.overflowRegion ∧ c.channelCapacity = d.channelCapacity

end Sys2Proof.Machine
end

