-- ==== Sys2Proof/Certificates/Slice0/Obligations.lean ====
section
/-! DEFINITION. The statements for the provers. A statement about every state holds for every allowed
value of the parameters, since the state carries them (00_scope.md R8; assumption log 1). -/

open Sys2Proof Sys2Proof.Machine

/-! ### Encoding and decoding (30_encoding.md) -/

/-- 30 R70, R74, R84: an assembled line, with whatever operand words, is read back whole, and what
follows it is left. The canonical word is the spec's own derived convention. -/
def Obligations.AssembledLinesDisassemble : Prop :=
  ∀ (cfg : Config) (l : Line) (rest : List Word), l.wellFormed = true →
    disassemble cfg (assemble l ++ rest) = some (l, rest)

/-- 30 R71 to R73, read backwards: a word that decodes to an instruction other than Skip is not
negative, its low two digits are the opcode of that instruction and its mode digits the modes. -/
def Obligations.DecodedFieldsAreTheWordsDigits : Prop :=
  ∀ (cfg : Config) (w : Word) (i : Instr), decode cfg w = .instr i → i ≠ .skip →
    0 ≤ w.toInt ∧ w.toNat % 100 = (encode i).toNat % 100 ∧
      ∀ k, k < i.arity → digit w.toNat (k + 2) = digit (encode i).toNat (k + 2)

/-- 30 R75. -/
def Obligations.NegativeWordsDecodeToSkip : Prop :=
  ∀ (cfg : Config) (w : Word), w.toInt < 0 → decode cfg w = .instr .skip

/-- 30 R76. -/
def Obligations.UnknownOpcodesDecodeToSkip : Prop :=
  ∀ (cfg : Config) (w : Word), 0 ≤ w.toInt →
    (w.toNat % 100 = 0 ∨ (10 ≤ w.toNat % 100 ∧ w.toNat % 100 ≤ 98)) → decode cfg w = .instr .skip

/-- 30 R77 (the spec's decision D5): a checked mode digit above 2 makes the word Skip or Invalid, as the
parameter says; with none, the word of a known opcode decodes to an instruction of that opcode. `i`
names the opcode. -/
def Obligations.BadModeDigitsFollowTheParameters : Prop :=
  ∀ (cfg : Config) (w : Word) (i : Instr), i ≠ .skip → 0 ≤ w.toInt →
    w.toNat % 100 = (encode i).toNat % 100 →
    ((∃ k, k < (if cfg.badDigitScope = .used then i.arity else 3) ∧ 2 < digit w.toNat (k + 2)) →
      decode cfg w = if cfg.badDigitAction = .skip then .instr .skip else .invalid w) ∧
    ((∀ k, k < (if cfg.badDigitScope = .used then i.arity else 3) → digit w.toNat (k + 2) ≤ 2) →
      ∃ j, decode cfg w = .instr j ∧ j ≠ .skip ∧ j.arity = i.arity ∧
        (encode j).toNat % 100 = (encode i).toNat % 100)

/-- 30 R79 (the spec's decision D6): digits at position 5 and above change nothing, and neither does a
mode digit 0, 1 or 2 in a position the opcode does not use. -/
def Obligations.IgnoredDigitsChangeNothing : Prop :=
  (∀ (cfg : Config) (w v : Word) (i : Instr), 0 ≤ w.toInt → 0 ≤ v.toInt →
    w.toNat % 100000 = v.toNat % 100000 → decode cfg w = .instr i → decode cfg v = .instr i) ∧
  (∀ (cfg : Config) (w v : Word) (i : Instr), 0 ≤ v.toInt → decode cfg w = .instr i → i ≠ .skip →
    v.toNat % 100 = w.toNat % 100 →
    (∀ k, k < i.arity → digit v.toNat (k + 2) = digit w.toNat (k + 2)) →
    (∀ k, i.arity ≤ k → k < 3 → digit v.toNat (k + 2) ≤ 2) → decode cfg v = .instr i)

/-- 95 section 2.1: words of the spec's table, decoded at the default parameters. -/
def Obligations.SampleWordsDecode : Prop :=
  ∀ p ∈ ([(1, .add .position .position .position), (1002, .mul .position .immediate .position),
      (203, .read .relative), (1104, .write .immediate), (1105, .jumpIfTrue .immediate .immediate),
      (1106, .jumpIfFalse .immediate .immediate), (1107, .lessThan .immediate .immediate .position),
      (21108, .equals .immediate .immediate .relative), (109, .adjustRelativeBase .immediate),
      (399, .halt), (301, .skip), (-99, .skip)] : List (Int × Instr)),
    decode Config.default (wordOfInt p.1) = .instr p.2

/-- 60 R213: garbage words decode to Skip, Skip only advances by one, and at the default parameters no
word's decoding stops the core. -/
def Obligations.DefaultDecodingNeverStops : Prop :=
  (∀ w : Word, (w.toInt < 0 ∨ w.toNat % 100 = 0 ∨ (10 ≤ w.toNat % 100 ∧ w.toNat % 100 ≤ 98)) →
    decode Config.default w = .instr .skip) ∧
  (∀ s : State, exec .skip s = .next { s with pc := s.pc + 1 }) ∧
  (∀ w : Word, ∃ i, decode Config.default w = .instr i)

/-! ### Memory (20_memory.md) -/

/-- 20 R42 (the spec's decisions D17, D24): the three cases of `MemRead`. -/
def Obligations.MemReadByAddress : Prop :=
  ∀ (cfg : Config) (m : Memory) (a : Nat), m.wf →
    (∀ h : a < m.store.length, m.read cfg a = .ok m.store[a]) ∧
    (m.store.length ≤ a → cfg.overflowRegion = .enabled →
      (∀ v, (a, v) ∈ m.overflow → m.read cfg a = .ok v) ∧
      ((∀ v, (a, v) ∉ m.overflow) → m.read cfg a = .ok 0)) ∧
    (m.store.length ≤ a → cfg.overflowRegion = .disabled →
      m.read cfg a = .error (.indexNotFound a))

/-- 20 R43, R44: a write changes exactly one word, to the value written, and never `N`; without the
overflow region, a write at or beyond `N` raises. -/
def Obligations.MemWriteChangesOneWord : Prop :=
  ∀ (cfg : Config) (m : Memory) (a : Nat) (v : Word), m.wf →
    ((a < m.size ∨ cfg.overflowRegion = .enabled) →
      ∃ n, m.write cfg a v = .ok n ∧ n.wf ∧ n.size = m.size ∧ n.read cfg a = .ok v ∧
        ∀ b, b ≠ a → n.read cfg b = m.read cfg b) ∧
    (m.size ≤ a → cfg.overflowRegion = .disabled →
      m.write cfg a v = .error (.indexNotFound a))

/-- 20 R44, 92 D24 and assumption log 3 (the model's choice of representation): two canonical memories
of one `N` that read alike everywhere are the same data. -/
def Obligations.CanonicalMemoriesThatReadAlikeAreEqual : Prop :=
  ∀ m n : Memory, m.wf → n.wf → m.size = n.size → (∀ a, m.peek a = n.peek a) → m = n

/-- 20 R45, 60 R203: what each mode resolves to, and when it raises. -/
def Obligations.ResolveByMode : Prop :=
  ∀ (s : State) (i : Nat),
    resolve s i .immediate = .ok i ∧
    (∀ e, s.load i = .error e →
      resolve s i .position = .error e ∧ resolve s i .relative = .error e) ∧
    ∀ w : Word, s.load i = .ok w →
      (0 ≤ w.toInt → resolve s i .position = .ok w.toInt.toNat) ∧
      (w.toInt < 0 → resolve s i .position = .error (.negativeAddress w)) ∧
      (FitsInt64 (w.toInt + s.rb.toInt) → 0 ≤ w.toInt + s.rb.toInt →
        resolve s i .relative = .ok (w.toInt + s.rb.toInt).toNat) ∧
      (FitsInt64 (w.toInt + s.rb.toInt) → w.toInt + s.rb.toInt < 0 →
        ∃ a : Word, a.toInt = w.toInt + s.rb.toInt ∧
          resolve s i .relative = .error (.negativeAddress a)) ∧
      (¬ FitsInt64 (w.toInt + s.rb.toInt) → s.cfg.arithOverflow = .fault →
        resolve s i .relative = .error (.arithmeticOverflow .relativeAddress)) ∧
      (¬ FitsInt64 (w.toInt + s.rb.toInt) → s.cfg.arithOverflow = .wrap →
        ∃ a : Word, (2 : Int) ^ 64 ∣ a.toInt - (w.toInt + s.rb.toInt) ∧
          resolve s i .relative =
            if a.toInt < 0 then .error (.negativeAddress a) else .ok a.toInt.toNat)

/-- 20 R46: the value of a source operand is the word at the resolved address, an error of the
resolution is the operand's; and what that is in each mode, in terms of plain memory reads. -/
def Obligations.OperandByMode : Prop :=
  ∀ (s : State) (k : Nat),
    (∀ (m : Mode) (a : Nat), resolve s (s.pc + k) m = .ok a → operand s k m = s.mem.read s.cfg a) ∧
    (∀ (m : Mode) (e : ErrorValue), resolve s (s.pc + k) m = .error e → operand s k m = .error e) ∧
    operand s k .immediate = s.load (s.pc + k) ∧
    ∀ w : Word, s.load (s.pc + k) = .ok w →
      (0 ≤ w.toInt → operand s k .position = s.load w.toInt.toNat) ∧
      (FitsInt64 (w.toInt + s.rb.toInt) → 0 ≤ w.toInt + s.rb.toInt →
        operand s k .relative = s.load (w.toInt + s.rb.toInt).toNat)

/-- 20 R47 (the spec's own derivation), 60 R203: a destination operand names the address its mode
resolves to, and fails as that resolution does; what that is in each mode. An Immediate destination is
the operand word's own address. -/
def Obligations.DestByMode : Prop :=
  ∀ (s : State) (k : Nat),
    (∀ m, dest s k m = resolve s (s.pc + k) m) ∧
    dest s k .immediate = .ok (s.pc + k) ∧
    (∀ e, s.load (s.pc + k) = .error e →
      dest s k .position = .error e ∧ dest s k .relative = .error e) ∧
    ∀ w : Word, s.load (s.pc + k) = .ok w →
      (0 ≤ w.toInt → dest s k .position = .ok w.toInt.toNat) ∧
      (w.toInt < 0 → dest s k .position = .error (.negativeAddress w)) ∧
      (FitsInt64 (w.toInt + s.rb.toInt) → 0 ≤ w.toInt + s.rb.toInt →
        dest s k .relative = .ok (w.toInt + s.rb.toInt).toNat) ∧
      (FitsInt64 (w.toInt + s.rb.toInt) → w.toInt + s.rb.toInt < 0 →
        ∃ a : Word, a.toInt = w.toInt + s.rb.toInt ∧
          dest s k .relative = .error (.negativeAddress a)) ∧
      (¬ FitsInt64 (w.toInt + s.rb.toInt) → s.cfg.arithOverflow = .fault →
        dest s k .relative = .error (.arithmeticOverflow .relativeAddress)) ∧
      (¬ FitsInt64 (w.toInt + s.rb.toInt) → s.cfg.arithOverflow = .wrap →
        ∃ a : Word, (2 : Int) ^ 64 ∣ a.toInt - (w.toInt + s.rb.toInt) ∧
          dest s k .relative =
            if a.toInt < 0 then .error (.negativeAddress a) else .ok a.toInt.toNat)

/-! ### What each instruction does -/

/-- 40 R100, R101: Add and Mul complete with the exact sum and the exact product, and advance by 4. -/
def Obligations.AddAndMulComplete : Prop :=
  ∀ (s : State) (m1 m2 m3 : Mode) (a b : Word) (d : Nat),
    operand s 1 m1 = .ok a → operand s 2 m2 = .ok b → dest s 3 m3 = .ok d →
    s.mem.accessible s.cfg d = true →
    (FitsInt64 (a.toInt + b.toInt) → ∃ r : Word, r.toInt = a.toInt + b.toInt ∧
      exec (.add m1 m2 m3) s = .next { s with mem := s.mem.poke d r, pc := s.pc + 4 }) ∧
    (FitsInt64 (a.toInt * b.toInt) → ∃ r : Word, r.toInt = a.toInt * b.toInt ∧
      exec (.mul m1 m2 m3) s = .next { s with mem := s.mem.poke d r, pc := s.pc + 4 })

/-- 40 R104 (the spec's decision D2): where the exact result of Add, Mul or AdjustRelativeBase leaves
`Int64`, `fault` takes `ArithmeticOverflow(op)` and `wrap` stores the word congruent modulo 2^64. -/
def Obligations.OverflowFollowsTheParameter : Prop :=
  (∀ (s : State) (m1 m2 m3 : Mode) (a b : Word) (d : Nat),
    operand s 1 m1 = .ok a → operand s 2 m2 = .ok b → dest s 3 m3 = .ok d →
    (¬ FitsInt64 (a.toInt + b.toInt) → s.cfg.arithOverflow = .fault →
      exec (.add m1 m2 m3) s = .next (s.raise (.arithmeticOverflow .add))) ∧
    (¬ FitsInt64 (a.toInt * b.toInt) → s.cfg.arithOverflow = .fault →
      exec (.mul m1 m2 m3) s = .next (s.raise (.arithmeticOverflow .mul))) ∧
    (¬ FitsInt64 (a.toInt + b.toInt) → s.cfg.arithOverflow = .wrap →
      s.mem.accessible s.cfg d = true →
      ∃ r : Word, (2 : Int) ^ 64 ∣ r.toInt - (a.toInt + b.toInt) ∧
        exec (.add m1 m2 m3) s = .next { s with mem := s.mem.poke d r, pc := s.pc + 4 }) ∧
    (¬ FitsInt64 (a.toInt * b.toInt) → s.cfg.arithOverflow = .wrap →
      s.mem.accessible s.cfg d = true →
      ∃ r : Word, (2 : Int) ^ 64 ∣ r.toInt - a.toInt * b.toInt ∧
        exec (.mul m1 m2 m3) s = .next { s with mem := s.mem.poke d r, pc := s.pc + 4 })) ∧
  (∀ (s : State) (m1 : Mode) (v : Word), operand s 1 m1 = .ok v →
    ¬ FitsInt64 (s.rb.toInt + v.toInt) →
    (s.cfg.arithOverflow = .fault →
      exec (.adjustRelativeBase m1) s =
        .next (s.raise (.arithmeticOverflow .adjustRelativeBase))) ∧
    (s.cfg.arithOverflow = .wrap →
      ∃ r : Word, (2 : Int) ^ 64 ∣ r.toInt - (s.rb.toInt + v.toInt) ∧
        exec (.adjustRelativeBase m1) s = .next { s with rb := r, pc := s.pc + 2 }))

/-- 40 R105 (the spec's own derivation): Mul and Add of two 8-digit values are exact whatever
`ARITH_OVERFLOW` is. -/
def Obligations.EightDigitArithmeticIsExact : Prop :=
  ∀ (s : State) (m1 m2 m3 : Mode) (a b : Word) (d : Nat),
    operand s 1 m1 = .ok a → operand s 2 m2 = .ok b → dest s 3 m3 = .ok d →
    s.mem.accessible s.cfg d = true →
    -99999999 ≤ a.toInt → a.toInt ≤ 99999999 → -99999999 ≤ b.toInt → b.toInt ≤ 99999999 →
    (∃ r : Word, r.toInt = a.toInt * b.toInt ∧
      exec (.mul m1 m2 m3) s = .next { s with mem := s.mem.poke d r, pc := s.pc + 4 }) ∧
    (∃ r : Word, r.toInt = a.toInt + b.toInt ∧
      exec (.add m1 m2 m3) s = .next { s with mem := s.mem.poke d r, pc := s.pc + 4 })

/-- 43 R160, R161: LessThan and Equals complete for all operand values, with the signed comparison of
the first operand with the second. LessThan's direction is supplied by the spec from general knowledge
(92 D16; assumption log 12). -/
def Obligations.ComparisonsComplete : Prop :=
  ∀ (s : State) (m1 m2 m3 : Mode) (a b : Word) (d : Nat),
    operand s 1 m1 = .ok a → operand s 2 m2 = .ok b → dest s 3 m3 = .ok d →
    s.mem.accessible s.cfg d = true →
    exec (.lessThan m1 m2 m3) s = .next
      { s with mem := s.mem.poke d (if a.toInt < b.toInt then 1 else 0), pc := s.pc + 4 } ∧
    exec (.equals m1 m2 m3) s = .next
      { s with mem := s.mem.poke d (if a.toInt = b.toInt then 1 else 0), pc := s.pc + 4 }

/-- 43 R162: a comparison that does not raise leaves exactly 1 or 0 at its destination, and a jump on
such a word tests it against 0. -/
def Obligations.ComparisonsWriteExactlyOneOrZero : Prop :=
  (∀ (s t : State) (i : Instr) (m1 m2 m3 : Mode) (d : Nat),
    i = .lessThan m1 m2 m3 ∨ i = .equals m1 m2 m3 → s.mem.wf → s.isRunning = true →
    dest s 3 m3 = .ok d → exec i s = .next t → t.isRunning = true →
    t.mem.peek d = 1 ∨ t.mem.peek d = 0) ∧
  (∀ (s : State) (m1 m2 : Mode) (w : Word), operand s 2 m2 = .ok w → 0 ≤ w.toInt →
    (operand s 1 m1 = .ok 1 →
      exec (.jumpIfTrue m1 m2) s = .next { s with pc := w.toInt.toNat } ∧
      exec (.jumpIfFalse m1 m2) s = .next { s with pc := s.pc + 3 }) ∧
    (operand s 1 m1 = .ok 0 →
      exec (.jumpIfTrue m1 m2) s = .next { s with pc := s.pc + 3 } ∧
      exec (.jumpIfFalse m1 m2) s = .next { s with pc := w.toInt.toNat }))

/-- 42 R140: JumpIfTrue completes; every word but 0 is true, and a jump not taken does not look at the
sign of the target. -/
def Obligations.JumpIfTrueCompletes : Prop :=
  ∀ (s : State) (m1 m2 : Mode) (c w : Word), operand s 1 m1 = .ok c → operand s 2 m2 = .ok w →
    (c.toInt ≠ 0 → 0 ≤ w.toInt →
      exec (.jumpIfTrue m1 m2) s = .next { s with pc := w.toInt.toNat }) ∧
    (c.toInt = 0 → exec (.jumpIfTrue m1 m2) s = .next { s with pc := s.pc + 3 })

/-- 42 R141: JumpIfFalse completes; only 0 is false. -/
def Obligations.JumpIfFalseCompletes : Prop :=
  ∀ (s : State) (m1 m2 : Mode) (c w : Word), operand s 1 m1 = .ok c → operand s 2 m2 = .ok w →
    (c.toInt = 0 → 0 ≤ w.toInt →
      exec (.jumpIfFalse m1 m2) s = .next { s with pc := w.toInt.toNat }) ∧
    (c.toInt ≠ 0 → exec (.jumpIfFalse m1 m2) s = .next { s with pc := s.pc + 3 })

/-- 60 R208 (the spec's decision D4): a taken jump to a negative target takes
`NegativeJumpTarget(t)`. -/
def Obligations.TakenJumpToNegativeTargetRaises : Prop :=
  ∀ (s : State) (m1 m2 : Mode) (c w : Word), operand s 1 m1 = .ok c → operand s 2 m2 = .ok w →
    w.toInt < 0 →
    (c.toInt ≠ 0 → exec (.jumpIfTrue m1 m2) s = .next (s.raise (.negativeJumpTarget w))) ∧
    (c.toInt = 0 → exec (.jumpIfFalse m1 m2) s = .next (s.raise (.negativeJumpTarget w)))

/-- 41 R120, R125, R126: Read completes with the next value of a Fixed Sequence, or of a channel, even
one whose sending side has closed. -/
def Obligations.ReadCompletes : Prop :=
  ∀ (s : State) (m1 : Mode) (d : Nat) (v : Word) (q : List Word), dest s 1 m1 = .ok d →
    s.mem.accessible s.cfg d = true →
    (s.reader = .fixedSeq (v :: q) → exec (.read m1) s = .next
      { s with reader := .fixedSeq q, mem := s.mem.poke d v, pc := s.pc + 2 }) ∧
    (∀ (c : Nat) (ch : Channel), s.reader = .channel c → s.channels[c]? = some ch →
      ch.queue = v :: q → exec (.read m1) s = .next
        { s with channels := s.channels.set c { ch with queue := q }, mem := s.mem.poke d v,
                 pc := s.pc + 2 })

/-- 41 R121, R129, R130: Write completes by appending the operand to the Fixed Sequence log, or to the
queue of a channel that has room and whose receiving side is open. -/
def Obligations.WriteCompletes : Prop :=
  ∀ (s : State) (m1 : Mode) (v : Word), operand s 1 m1 = .ok v →
    (∀ log, s.writer = .fixedSeq log → exec (.write m1) s = .next
      { s with writer := .fixedSeq (log ++ [v]), pc := s.pc + 2 }) ∧
    (∀ (c : Nat) (ch : Channel), s.writer = .channel c → s.channels[c]? = some ch →
      ch.receiverOpen = true →
      (ch.cap = .unbounded ∨ ∃ n, ch.cap = .bounded n ∧ ch.queue.length < n) →
      exec (.write m1) s = .next
        { s with channels := s.channels.set c { ch with queue := ch.queue ++ [v] },
                 pc := s.pc + 2 })

/-- 44 R180: AdjustRelativeBase completes with the exact sum, negative ones included. -/
def Obligations.AdjustRelativeBaseCompletes : Prop :=
  ∀ (s : State) (m1 : Mode) (v : Word), operand s 1 m1 = .ok v →
    FitsInt64 (s.rb.toInt + v.toInt) →
    ∃ r : Word, r.toInt = s.rb.toInt + v.toInt ∧
      exec (.adjustRelativeBase m1) s = .next { s with rb := r, pc := s.pc + 2 }

/-- 44 R181, 41 R136 (the spec's decisions D9, D23): Halt completes in every state; only the status and
the core's holds on its channels change. That it lets go in that same step is the model's reading
(assumption log 15). -/
def Obligations.HaltCompletes : Prop :=
  ∀ s : State, ∃ cs, s.endpointsReleased cs ∧
    exec .halt s = .next { s with status := .halted, channels := cs }

/-- 44 R182: Skip completes in every state and only advances by one. -/
def Obligations.SkipCompletes : Prop :=
  ∀ s : State, exec .skip s = .next { s with pc := s.pc + 1 }

/-! ### Errors and waiting -/

/-- 60 R205, R206 (the spec's decision D10): a Disabled port and a closed receiving side. -/
def Obligations.PortErrorsAreTaken : Prop :=
  (∀ (s : State) (m1 : Mode), s.reader = .disabled →
    exec (.read m1) s = .next (s.raise (.portDisabled .reader))) ∧
  (∀ (s : State) (m1 : Mode) (v : Word), operand s 1 m1 = .ok v →
    (s.writer = .disabled → exec (.write m1) s = .next (s.raise (.portDisabled .writer))) ∧
    (∀ (c : Nat) (ch : Channel), s.writer = .channel c → s.channels[c]? = some ch →
      ch.receiverOpen = false → exec (.write m1) s = .next (s.raise .writeToOutput)))

/-- 60 R204: `ReadFromInput` is taken exactly when a Fixed Sequence is exhausted, or a channel's queue
is empty and its sending side closed. -/
def Obligations.ReadFromInputIsTaken : Prop :=
  (∀ s : State, readerRead s = .error .readFromInput ↔
    s.reader = .fixedSeq [] ∨ ∃ (c : Nat) (ch : Channel), s.reader = .channel c ∧ s.channels[c]? = some ch ∧
      ch.queue = [] ∧ ch.senderOpen = false) ∧
  (∀ (s : State) (m1 : Mode), readerRead s = .error .readFromInput →
    exec (.read m1) s = .next (s.raise .readFromInput))

/-- 41 R120, 60 R210, R211 (the spec's decision D8): a Read whose destination fails, in resolving or
because the address it resolves to does not exist, has lost the value it took. -/
def Obligations.ReadLosesItsInputToABadDestination : Prop :=
  ∀ (s : State) (m1 : Mode) (v : Word) (q : List Word) (e : ErrorValue),
    (dest s 1 m1 = .error e ∨
      ∃ d, dest s 1 m1 = .ok d ∧ s.mem.accessible s.cfg d = false ∧ e = .indexNotFound d) →
    (s.reader = .fixedSeq (v :: q) →
      exec (.read m1) s = .next (State.raise { s with reader := .fixedSeq q } e)) ∧
    (∀ (c : Nat) (ch : Channel), s.reader = .channel c → s.channels[c]? = some ch →
      ch.queue = v :: q → exec (.read m1) s = .next
        (State.raise { s with channels := s.channels.set c { ch with queue := q } } e))

/-- 41 R134, 10 R27 (the spec's decision D22; assumption logs 7, 8): a Read of an empty open channel, or
a Write to a full open one, leaves the state as it is, whatever its operand; `waiting` is exactly that;
a waiting core's step changes nothing. -/
def Obligations.WaitingChangesNothing : Prop :=
  (∀ (s : State) (m1 : Mode) (c : Nat) (ch : Channel), s.reader = .channel c →
    s.channels[c]? = some ch → ch.queue = [] → ch.senderOpen = true →
    exec (.read m1) s = .next s) ∧
  (∀ (s : State) (m1 : Mode) (c : Nat) (ch : Channel) (n : Nat),
    s.writer = .channel c → s.channels[c]? = some ch →
    ch.cap = .bounded n → n ≤ ch.queue.length → ch.receiverOpen = true →
    exec (.write m1) s = .next s) ∧
  (∀ s : State, s.waiting = true ↔ s.status = .running ∧
    ((∃ m1 c ch, s.fetchDecode = .ok (.read m1) ∧ s.reader = .channel c ∧
        s.channels[c]? = some ch ∧ ch.queue = [] ∧ ch.senderOpen = true) ∨
     (∃ m1 c ch n, s.fetchDecode = .ok (.write m1) ∧ s.writer = .channel c ∧
        s.channels[c]? = some ch ∧ ch.cap = .bounded n ∧ n ≤ ch.queue.length ∧
        ch.receiverOpen = true))) ∧
  (∀ s : State, s.waiting = true → step s = .next s)

/-- 41 R134, R137: a waiting Read is lifted exactly by what happens to its channel, a value in its queue
or the closing of its sending side. The host's send lifts it, and the Read then takes that value; so does
the release of the sending side the host alone held, after which the Read raises. -/
def Obligations.WaitingReadIsLiftedBySendOrClose : Prop :=
  ∀ (s : State) (m1 : Mode) (c : Nat), s.waiting = true → s.fetchDecode = .ok (.read m1) →
    s.reader = .channel c →
    (∀ (ch : Channel) (cs : List Channel), cs[c]? = some ch →
      (State.waiting { s with channels := cs } = false ↔
        ch.queue ≠ [] ∨ ch.senderOpen = false)) ∧
    (∀ (v : Word) (cs : List Channel), hostAct (.send c v) s.channels = some cs →
      State.waiting { s with channels := cs } = false ∧
      ∃ t, readerRead { s with channels := cs } = .done v t ∧ t.channels = s.channels) ∧
    (∀ (ch : Channel) (cs : List Channel), s.channels[c]? = some ch → ch.senderPort = false →
      hostAct (.releaseSender c) s.channels = some cs →
      step { s with channels := cs } =
        .next (State.raise { s with channels := cs } .readFromInput))

/-- 60 R211 (the spec's decisions D7, D8): the error taken is the first reached in the order of the
pseudocode. A Write that waits takes no step, and so no error (10 R27; assumption log 8). -/
def Obligations.FirstErrorReachedIsTaken : Prop :=
  (∀ (s : State) (e : ErrorValue), s.isRunning = true → s.load s.pc = .error e →
    step s = .next (s.raise e)) ∧
  (∀ (s : State) (i : Instr) (m1 m2 m3 : Mode) (e : ErrorValue),
    i = .add m1 m2 m3 ∨ i = .mul m1 m2 m3 ∨ i = .lessThan m1 m2 m3 ∨ i = .equals m1 m2 m3 →
    (operand s 1 m1 = .error e → exec i s = .next (s.raise e)) ∧
    (∀ a, operand s 1 m1 = .ok a → operand s 2 m2 = .error e → exec i s = .next (s.raise e)) ∧
    (∀ a b, operand s 1 m1 = .ok a → operand s 2 m2 = .ok b → dest s 3 m3 = .error e →
      exec i s = .next (s.raise e))) ∧
  (∀ (s : State) (m1 m2 m3 : Mode) (a b : Word) (d : Nat),
    operand s 1 m1 = .ok a → operand s 2 m2 = .ok b → dest s 3 m3 = .ok d →
    s.mem.accessible s.cfg d = false →
    exec (.equals m1 m2 m3) s = .next (s.raise (.indexNotFound d)) ∧
    exec (.lessThan m1 m2 m3) s = .next (s.raise (.indexNotFound d)) ∧
    (FitsInt64 (a.toInt + b.toInt) ∨ s.cfg.arithOverflow = .wrap →
      exec (.add m1 m2 m3) s = .next (s.raise (.indexNotFound d))) ∧
    (FitsInt64 (a.toInt * b.toInt) ∨ s.cfg.arithOverflow = .wrap →
      exec (.mul m1 m2 m3) s = .next (s.raise (.indexNotFound d)))) ∧
  (∀ (s : State) (i : Instr) (m1 m2 : Mode) (e : ErrorValue),
    i = .jumpIfTrue m1 m2 ∨ i = .jumpIfFalse m1 m2 →
    (operand s 1 m1 = .error e → exec i s = .next (s.raise e)) ∧
    (∀ c, operand s 1 m1 = .ok c → operand s 2 m2 = .error e → exec i s = .next (s.raise e))) ∧
  (∀ (s : State) (i : Instr) (m1 : Mode) (e : ErrorValue),
    (i = .write m1 ∧ s.writerBlocked = false) ∨ i = .adjustRelativeBase m1 →
    operand s 1 m1 = .error e → exec i s = .next (s.raise e)) ∧
  (∀ (s : State) (m1 : Mode) (e : ErrorValue), readerRead s = .error e →
    exec (.read m1) s = .next (s.raise e))

/-- 60 R210 (the spec's decisions D7 to D9): an error taken in a step leaves `pc`, `rb`, memory, the
Writer and the parameters as they were; the one thing lost is the value a Read had taken. That the core
releases its endpoints in the same step is the model's reading (assumption log 15), and so is that a
further step request answers the same state (assumption log 6). -/
def Obligations.ErrorEntryIsPrecise : Prop :=
  ∀ (s t : State) (e : ErrorValue), s.isRunning = true → step s = .next t → t.status = .errored e →
    t.pc = s.pc ∧ t.rb = s.rb ∧ t.mem = s.mem ∧ t.writer = s.writer ∧ t.cfg = s.cfg ∧
    step t = .next t ∧
    ((t.reader = s.reader ∧ s.endpointsReleased t.channels) ∨
      (∃ m1, s.fetchDecode = .ok (.read m1) ∧ ∃ v u, readerRead s = .done v u ∧
        t.reader = u.reader ∧ u.endpointsReleased t.channels))

/-- 60 R209, 30 R87 (the spec's decision D5): a word that decodes to `Invalid(w)` raises
`InvalidModeDigit(w)`, which happens only under `BAD_MODE_DIGIT_ACTION = fault`. -/
def Obligations.InvalidModeDigitIsTaken : Prop :=
  (∀ (s : State) (w v : Word), s.isRunning = true → s.load s.pc = .ok w →
    decode s.cfg w = .invalid v → step s = .next (s.raise (.invalidModeDigit w))) ∧
  (∀ (s t : State) (w : Word), s.isRunning = true → step s = .next t →
    t.status = .errored (.invalidModeDigit w) →
    s.cfg.badDigitAction = .fault ∧ s.load s.pc = .ok w)

/-- 60 R202 (the spec's decision D17): `IndexNotFound(a)` comes only from an access at or beyond `N`
without the overflow region; with it, no step takes that error. -/
def Obligations.IndexNotFoundOnlyWithoutOverflowRegion : Prop :=
  (∀ (cfg : Config) (m : Memory) (a : Nat) (v : Word),
    ((∃ b, m.read cfg a = .error (.indexNotFound b)) ↔
      m.size ≤ a ∧ cfg.overflowRegion = .disabled) ∧
    ((∃ b, m.write cfg a v = .error (.indexNotFound b)) ↔
      m.size ≤ a ∧ cfg.overflowRegion = .disabled) ∧
    (∀ b, m.read cfg a = .error (.indexNotFound b) → b = a) ∧
    (∀ b, m.write cfg a v = .error (.indexNotFound b) → b = a)) ∧
  (∀ (s t : State) (a : Nat), s.cfg.overflowRegion = .enabled → s.isRunning = true →
    step s = .next t → t.status ≠ .errored (.indexNotFound a))

/-- 60 R207 (the spec's decision D2): `chk64` raises exactly under `fault` on a result outside `Int64`,
and under `wrap` no step takes the error. -/
def Obligations.ArithmeticOverflowOnlyUnderFault : Prop :=
  (∀ (cfg : Config) (op : ArithOp) (v : Int),
    (chk64 cfg op v = .error (.arithmeticOverflow op) ↔
      ¬ FitsInt64 v ∧ cfg.arithOverflow = .fault)) ∧
  (∀ (s t : State) (op : ArithOp), s.cfg.arithOverflow = .wrap → s.isRunning = true →
    step s = .next t → t.status ≠ .errored (.arithmeticOverflow op))

/-- 60 R201, column "raised by": which instruction may take which error. -/
def Obligations.EachErrorComesFromItsInstructions : Prop :=
  ∀ (i : Instr) (s t : State) (e : ErrorValue), s.isRunning = true → exec i s = .next t →
    t.status = .errored e →
    match e with
    | .indexNotFound a    => 1 ≤ i.arity ∧ s.mem.size ≤ a
    | .negativeAddress a  => 1 ≤ i.arity ∧ a.toInt < 0
    | .readFromInput      => ∃ m1, i = .read m1
    | .writeToOutput      => ∃ m1, i = .write m1
    | .portDisabled p     => (p = .reader ∧ ∃ m1, i = .read m1) ∨ (p = .writer ∧ ∃ m1, i = .write m1)
    | .arithmeticOverflow op =>
      match op with
      | .add                => ∃ m1 m2 m3, i = .add m1 m2 m3
      | .mul                => ∃ m1 m2 m3, i = .mul m1 m2 m3
      | .adjustRelativeBase => ∃ m1, i = .adjustRelativeBase m1
      | .relativeAddress    => 1 ≤ i.arity
    | .negativeJumpTarget w =>
      w.toInt < 0 ∧ ∃ m1 m2, i = .jumpIfTrue m1 m2 ∨ i = .jumpIfFalse m1 m2
    | .invalidModeDigit _ => False

/-! ### The machine as a whole -/

/-- 30 R87: while Running, a step executes the instruction that the word at `pc` decodes to, and adds
nothing around it. -/
def Obligations.StepRunsTheDecodedInstruction : Prop :=
  ∀ (s : State) (w : Word) (i : Instr), s.status = .running → s.mem.read s.cfg s.pc = .ok w →
    decode s.cfg w = .instr i → step s = exec i s

/-- 30 R89, 92 D9 (assumption log 6: a step request of a stopped core answers the same state): a core
that is Halted or Errored never changes again, however often it is stepped. -/
def Obligations.StoppedCoreNeverChanges : Prop :=
  ∀ (s : State) (k : Nat), s.status ≠ .running → Sys2Proof.core.run k s = .next s

/-- 10 R23 and 42 R144: how each instruction changes `pc`, and that only Halt and an error stop the
core. A Read or Write whose port is blocked leaves the whole state as it is (41 R134; that a waiting
core's step answers the same state is the model's reading, assumption log 7). -/
def Obligations.PcAndStatusAfterAnInstruction : Prop :=
  ∀ (i : Instr) (s t : State), s.isRunning = true → exec i s = .next t →
    (∃ e, t.status = .errored e ∧ t.pc = s.pc) ∨
    match i with
    | .add _ _ _            => t.status = .running ∧ t.pc = s.pc + 4
    | .mul _ _ _            => t.status = .running ∧ t.pc = s.pc + 4
    | .lessThan _ _ _       => t.status = .running ∧ t.pc = s.pc + 4
    | .equals _ _ _         => t.status = .running ∧ t.pc = s.pc + 4
    | .read _               => (s.readerBlocked = true ∧ t = s) ∨
        (s.readerBlocked = false ∧ t.status = .running ∧ t.pc = s.pc + 2)
    | .write _              => (s.writerBlocked = true ∧ t = s) ∨
        (s.writerBlocked = false ∧ t.status = .running ∧ t.pc = s.pc + 2)
    | .adjustRelativeBase _ => t.status = .running ∧ t.pc = s.pc + 2
    | .jumpIfTrue m1 m2     => t.status = .running ∧ ∃ c w, operand s 1 m1 = .ok c ∧
        operand s 2 m2 = .ok w ∧ t.pc = if c.toInt ≠ 0 then w.toInt.toNat else s.pc + 3
    | .jumpIfFalse m1 m2    => t.status = .running ∧ ∃ c w, operand s 1 m1 = .ok c ∧
        operand s 2 m2 = .ok w ∧ t.pc = if c.toInt = 0 then w.toInt.toNat else s.pc + 3
    | .halt                 => t.status = .halted ∧ t.pc = s.pc
    | .skip                 => t.status = .running ∧ t.pc = s.pc + 1

/-- 10 R24, R29, 20 R41: only AdjustRelativeBase changes `rb`, and no step changes `N`, the parameters
or the kind of a port's binding. -/
def Obligations.OnlyAdjustRelativeBaseChangesRb : Prop :=
  ∀ (s t : State), step s = .next t →
    (t.rb ≠ s.rb → ∃ m1, s.fetchDecode = .ok (.adjustRelativeBase m1)) ∧
    t.mem.size = s.mem.size ∧ t.cfg = s.cfg ∧
    (s.reader = .disabled ↔ t.reader = .disabled) ∧
    (s.writer = .disabled ↔ t.writer = .disabled) ∧
    (∀ c, s.reader = .channel c ↔ t.reader = .channel c) ∧
    (∀ c, s.writer = .channel c ↔ t.writer = .channel c)

/-- 20 R59, 70 R247 (the spec's own derivation): what an Add writes is what the next fetch of that
address reads. -/
def Obligations.WrittenWordIsWhatTheNextFetchReads : Prop :=
  ∀ (s t : State) (m1 m2 m3 : Mode) (r : Word) (j : Instr), s.mem.wf → s.isRunning = true →
    dest s 3 m3 = .ok (s.pc + 4) → exec (.add m1 m2 m3) s = .next t → t.isRunning = true →
    (∀ a b, operand s 1 m1 = .ok a → operand s 2 m2 = .ok b → r = wordOfInt (a.toInt + b.toInt)) →
    decode s.cfg r = .instr j → step t = exec j t

/-- 20 R48, 95 P4: a core whose `pc` has passed everything written Skips, one word a step, for ever. -/
def Obligations.UnwrittenMemorySkipsForEver : Prop :=
  ∀ (s : State) (k : Nat), s.status = .running → s.cfg.overflowRegion = .enabled →
    (∀ a, s.pc ≤ a → s.mem.peek a = 0) →
    Sys2Proof.core.run k s = .next { s with pc := s.pc + k }

/-! ### Frames -/

/-- 40 R100, R101, 43 R160, R161: what Add, Mul, LessThan and Equals leave unchanged. Every word other
than the destination reads as before; where no destination resolves, all of memory is as before. On an
error the core lets go of its channel sides (41 R136, 60 R210), in that same step by the model's reading
(assumption log 15). -/
def Obligations.FourWordInstructionsFrame : Prop :=
  ∀ (s t : State) (i : Instr) (m1 m2 m3 : Mode), s.mem.wf →
    i = .add m1 m2 m3 ∨ i = .mul m1 m2 m3 ∨ i = .lessThan m1 m2 m3 ∨ i = .equals m1 m2 m3 →
    exec i s = .next t →
    t.rb = s.rb ∧ t.reader = s.reader ∧ t.writer = s.writer ∧ t.cfg = s.cfg ∧
    t.mem.size = s.mem.size ∧
    ((t.status = s.status ∧ t.channels = s.channels) ∨
      ∃ e, t.status = .errored e ∧ t.pc = s.pc ∧ t.mem = s.mem ∧
        s.endpointsReleased t.channels) ∧
    (∀ d, dest s 3 m3 = .ok d → ∀ a, a ≠ d → t.mem.peek a = s.mem.peek a) ∧
    (∀ e, dest s 3 m3 = .error e → ∀ a, t.mem.peek a = s.mem.peek a)

/-- 42 R140, R141, 44 R180 to R182: the instructions that write no memory. All of memory, the ports and
the parameters are as before; `rb` too, but for AdjustRelativeBase. On a halt or an error the core lets go
of its channel sides (41 R136, 60 R210), in that same step by the model's reading (assumption log 15). -/
def Obligations.InstructionsThatStoreNothingFrame : Prop :=
  ∀ (s t : State) (i : Instr) (m1 m2 : Mode),
    i = .jumpIfTrue m1 m2 ∨ i = .jumpIfFalse m1 m2 ∨ i = .adjustRelativeBase m1 ∨ i = .halt ∨
      i = .skip →
    exec i s = .next t →
    t.mem = s.mem ∧ t.reader = s.reader ∧ t.writer = s.writer ∧ t.cfg = s.cfg ∧
    (i ≠ .adjustRelativeBase m1 → t.rb = s.rb) ∧
    ((t.status = s.status ∧ t.channels = s.channels) ∨
      ((t.status = .halted ∨ ∃ e, t.status = .errored e) ∧ t.rb = s.rb ∧ t.pc = s.pc ∧
        s.endpointsReleased t.channels))

/-- 41 R120, R124: what Read leaves unchanged. The Reader loses at most the head of its sequence; a
channel other than the Reader's is as before; every word other than the destination reads as before. -/
def Obligations.ReadFrame : Prop :=
  ∀ (s t : State) (m1 : Mode), s.mem.wf → s.isRunning = true → exec (.read m1) s = .next t →
    t.rb = s.rb ∧ t.writer = s.writer ∧ t.cfg = s.cfg ∧ t.mem.size = s.mem.size ∧
    (t.reader = s.reader ∨ ∃ v q, s.reader = .fixedSeq (v :: q) ∧ t.reader = .fixedSeq q) ∧
    (t.status = .running ∨ ∃ e, t.status = .errored e ∧ t.pc = s.pc ∧ t.mem = s.mem) ∧
    (t.isRunning = true → ∀ c, s.reader ≠ .channel c → t.channels[c]? = s.channels[c]?) ∧
    (∀ (c : Nat) (ch : Channel), s.channels[c]? = some ch → ∃ ch', t.channels[c]? = some ch' ∧
      (ch'.queue = ch.queue ∨ (s.reader = .channel c ∧ ∃ v, ch.queue = v :: ch'.queue))) ∧
    (∀ d, dest s 1 m1 = .ok d → ∀ a, a ≠ d → t.mem.peek a = s.mem.peek a) ∧
    (∀ e, dest s 1 m1 = .error e → ∀ a, t.mem.peek a = s.mem.peek a)

/-- 41 R121, R128: what Write leaves unchanged. No memory is written; the log gains at most the operand
at its end; a channel other than the Writer's is as before. -/
def Obligations.WriteFrame : Prop :=
  ∀ (s t : State) (m1 : Mode), s.isRunning = true → exec (.write m1) s = .next t →
    t.mem = s.mem ∧ t.rb = s.rb ∧ t.reader = s.reader ∧ t.cfg = s.cfg ∧
    (t.writer = s.writer ∨ ∃ log v, operand s 1 m1 = .ok v ∧ s.writer = .fixedSeq log ∧
      t.writer = .fixedSeq (log ++ [v])) ∧
    (t.status = .running ∨ ∃ e, t.status = .errored e ∧ t.pc = s.pc ∧ t.writer = s.writer) ∧
    (t.isRunning = true → ∀ c, s.writer ≠ .channel c → t.channels[c]? = s.channels[c]?) ∧
    (∀ (c : Nat) (ch : Channel), s.channels[c]? = some ch → ∃ ch', t.channels[c]? = some ch' ∧
      (ch'.queue = ch.queue ∨ (s.writer = .channel c ∧ t.isRunning = true ∧
        ∃ v, operand s 1 m1 = .ok v ∧ ch'.queue = ch.queue ++ [v])))

/-! ### Invariants, channels and networks -/

/-- The invariant `State.wf` (canonical memory, allowed parameters, channels within capacity, ports
bound to channels that exist and that the core holds while Running) holds at reset. -/
def Obligations.ResetIsWellFormed : Prop := State.reset.wf ∧ State.reset.status = .running ∧
  State.reset.pc = 0 ∧ State.reset.rb = 0 ∧ State.reset.reader = .disabled ∧
  State.reset.writer = .disabled ∧ ∀ a, State.reset.mem.read State.reset.cfg a = .ok 0

/-- Every step keeps `State.wf`, from every state that has it. -/
def Obligations.StepKeepsWellFormed : Prop :=
  ∀ s t : State, s.wf → step s = .next t → t.wf

/-- A well-formed core always answers a next state: no word, no mode, no operand and no port ends a run
in a fault or a refusal of the model (60 R213, 30 R83). -/
def Obligations.WellFormedCoreAlwaysAnswers : Prop :=
  ∀ (s : State) (k : Nat), s.wf → ∃ t, Sys2Proof.core.run k s = .next t ∧ t.wf

/-- 70 R240, R241, R243 to R245: a launch that keeps its duties, and pre-seeds within the capacity, boots;
a boot that succeeds gives a well-formed core that is as the launch asks
(`LaunchedAs`: Running at `pc` 0, with `rb`, both bindings, the image and the presets), and the channels
the launch makes, each pre-seeded with the values the host has sent on it, in order. A literal outside
`Int64` gives no core. That presets take effect in the order listed, and that a release of a side the
host does not hold changes nothing, is the model's (assumption logs 17, 18). -/
def Obligations.BootGivesTheLaunchedCore : Prop :=
  (∀ (l : Launch) (s : State), l.cfg.wellFormed = true → boot l = some s →
    s.wf ∧ s.cfg = l.cfg ∧ LaunchedAs l.toCoreLaunch s ∧ s.channels.length = l.channels ∧
    ∀ (c : Nat) (ch : Channel), s.channels[c]? = some ch → (∀ a ∈ l.acts, a ≠ .receive c) →
      ch.queue = l.acts.filterMap (HostAct.sentOn c)) ∧
  (∀ l : Launch, l.duties l.cfg l.channels → PreSeeds l.cfg l.channels l.acts →
    ∃ s, boot l = some s) ∧
  (∀ l : Launch, (∃ v ∈ l.image, ¬ FitsInt64 v) → boot l = none)

/-- 41 R131, R133, 20 R55: in one step of a core each channel keeps its queue, loses its head, or gains
one value at its end; its capacity and the host's holds stay; a closed side never reopens. -/
def Obligations.ChannelsAreFifoAndNeverReopen : Prop :=
  ∀ (s t : State), step s = .next t → t.channels.length = s.channels.length ∧
    ∀ (c : Nat) (ch ch' : Channel), s.channels[c]? = some ch → t.channels[c]? = some ch' →
      (ch'.queue = ch.queue ∨ (∃ v, ch.queue = v :: ch'.queue) ∨
        ∃ v, ch'.queue = ch.queue ++ [v]) ∧
      ch'.cap = ch.cap ∧ ch'.senderHost = ch.senderHost ∧ ch'.receiverHost = ch.receiverHost ∧
      (ch.senderOpen = false → ch'.senderOpen = false) ∧
      (ch.receiverOpen = false → ch'.receiverOpen = false)

/-- 41 R131, R133, R137: the host's acts obey the queue rules of a port, and reopen nothing. A send on a
side the host holds is possible when the receiving side is open and there is room, a receive when the
host alone holds the side and there is a value, and a release always; that a release of a side the host
does not hold is possible, and changes nothing, is the model's choice (assumption log 18). In a
well-formed network it neither sends nor receives beside a Running core's port (that it receives only
once no port holds the side is the model's reading of "only to receive a final result", assumption
log 24). -/
def Obligations.HostActsObeyTheQueueRules : Prop :=
  (∀ (a : HostAct) (cs ds : List Channel), hostAct a cs = some ds → ds.length = cs.length ∧
    ∀ (c : Nat) (ch ch' : Channel), cs[c]? = some ch → ds[c]? = some ch' →
      (ch.senderOpen = false → ch'.senderOpen = false) ∧
      (ch.receiverOpen = false → ch'.receiverOpen = false) ∧ ch'.cap = ch.cap ∧
      (ch'.queue = ch.queue ∨
        (∃ v, a = .send c v ∧ ch.senderHost = true ∧ ch.receiverOpen = true ∧ ch.full = false ∧
          ch'.queue = ch.queue ++ [v]) ∨
        (a = .receive c ∧ ch.receiverHost = true ∧ ch.receiverPort = false ∧
          ∃ v, ch.queue = v :: ch'.queue))) ∧
  (∀ (cs : List Channel) (c : Nat) (ch : Channel), cs[c]? = some ch →
    (∀ v, ch.senderHost = true → ch.receiverOpen = true → ch.full = false →
      hostAct (.send c v) cs = some (cs.set c { ch with queue := ch.queue ++ [v] })) ∧
    (∀ v q, ch.receiverHost = true → ch.receiverPort = false → ch.queue = v :: q →
      hostAct (.receive c) cs = some (cs.set c { ch with queue := q })) ∧
    hostAct (.releaseSender c) cs = some (cs.set c { ch with senderHost := false }) ∧
    hostAct (.releaseReceiver c) cs = some (cs.set c { ch with receiverHost := false })) ∧
  (∀ (n : Network) (k : Nat) (s : State) (c : Nat), n.wf → n.core k = some s →
    s.isRunning = true →
    (s.writer = .channel c → ∀ v, n.act (.host (.send c v)) = none) ∧
    (s.reader = .channel c → n.act (.host (.receive c)) = none))

/-- 41 R138, 60 R221 (the spec's decision D27): a step of one core leaves every other core and every
channel it does not use as they were, and does the same whatever the rest of the network holds. -/
def Obligations.CoresInteractOnlyThroughTheirChannels : Prop :=
  ∀ (n n' p : Network) (k : Nat) (s : State), n.core k = some s → n.coreStep k = some n' →
    (∀ j, j ≠ k → n'.cores[j]? = n.cores[j]?) ∧
    (∀ c, ¬ s.uses c → n'.channels[c]? = n.channels[c]?) ∧
    (p.cores[k]? = n.cores[k]? → (∀ c, s.uses c → p.channels[c]? = n.channels[c]?) →
      ∃ p', p.coreStep k = some p' ∧ p'.cores[k]? = n'.cores[k]? ∧
        ∀ c, s.uses c → p'.channels[c]? = n'.channels[c]?)

/-- 60 R222 with `Network.wf`: whichever agent moves, a core or the host, a well-formed network stays
well formed. The network is the model's (assumption log 19), and so is that a core which stops lets go of
its channel sides in that same step (assumption log 15). -/
def Obligations.EveryAgentKeepsTheNetworkWellFormed : Prop :=
  ∀ (n n' : Network) (g : Agent), n.wf → n.act g = some n' → n'.wf

/-- 00 R8, 95 section 4 (the spec's own derivation): the values of `ARITH_OVERFLOW`,
`BAD_MODE_DIGIT_ACTION` and `BAD_MODE_DIGIT_SCOPE` are irrelevant to a well-formed step, and under
`WellFormedRun` to the whole run of a launch, of one core or of a network: it boots and runs the same,
step for step, under every other choice of them. That a network's premise is over every interleaving,
and that the other two parameters are kept as the launch names them, is assumption log 25. -/
def Obligations.OpenParametersAreIrrelevantToAWellFormedRun : Prop :=
  (∀ (s t : State) (c : Config), s.isRunning = true → s.wellFormedStep = true →
    sameBlock s.cfg c → step s = .next t →
    step { s with cfg := c } = .next { t with cfg := c }) ∧
  (∀ (l : Launch) (s : State) (c : Config), l.wellFormedRun → sameBlock l.cfg c →
    boot { l with cfg := l.cfg.openDefaults } = some s →
    boot { l with cfg := c } = some { s with cfg := c } ∧
    ∀ (k : Nat) (t : State), Sys2Proof.core.run k s = .next t →
      Sys2Proof.core.run k { s with cfg := c } = .next { t with cfg := c }) ∧
  (∀ (l : NetworkLaunch) (n : Network) (c : Config), l.wellFormedRun → sameBlock l.cfg c →
    bootNetwork { l with cfg := l.cfg.openDefaults } = some n →
    bootNetwork { l with cfg := c } = some (n.setCfg c) ∧
    ∀ gs : List Agent, (n.setCfg c).run gs = (n.run gs).map fun m => m.setCfg c)

/-! ### Waiting Writes, and the boot and the end of a network -/

/-- 41 R134: a waiting Write is lifted exactly by what happens to its channel, room in its queue or the
closing of its receiving side. The host's receive lifts it, and the Write then appends its operand; so
does the release of the receiving side the host alone held, after which the Write raises. Lifted, it
executes from the start: an error of its operand comes first. -/
def Obligations.WaitingWriteIsLiftedByReceiveOrClose : Prop :=
  ∀ (s : State) (m1 : Mode) (c : Nat) (ch : Channel), s.wf → s.waiting = true →
    s.fetchDecode = .ok (.write m1) → s.writer = .channel c → s.channels[c]? = some ch →
    (∀ (ch' : Channel) (cs : List Channel), cs[c]? = some ch' →
      (State.waiting { s with channels := cs } = false ↔
        ch'.full = false ∨ ch'.receiverOpen = false)) ∧
    (∀ cs, hostAct (.receive c) s.channels = some cs → ∃ v q, ch.queue = v :: q ∧
      State.waiting { s with channels := cs } = false ∧
      (∀ w, operand s 1 m1 = .ok w → step { s with channels := cs } = .next
        { s with channels := cs.set c { ch with queue := q ++ [w] }, pc := s.pc + 2 }) ∧
      (∀ e, operand s 1 m1 = .error e →
        step { s with channels := cs } = .next (State.raise { s with channels := cs } e))) ∧
    (∀ cs, ch.receiverPort = false → hostAct (.releaseReceiver c) s.channels = some cs →
      (∀ w, operand s 1 m1 = .ok w → step { s with channels := cs } =
        .next (State.raise { s with channels := cs } .writeToOutput)) ∧
      (∀ e, operand s 1 m1 = .error e →
        step { s with channels := cs } = .next (State.raise { s with channels := cs } e)))

/-- 70 R243, R244, 41 R131: a network that boots is well formed; each core is as its launch asks
(`LaunchedAs`: Running at `pc` 0, with `rb`, both bindings, the image and the presets, which take effect
in the order listed: assumption log 17); its channels are made, each pre-seeded with the values the host
has sent on it, in order; and the host holds no sending side beside a core's port (that it lets go at the
start is the model's reading, assumption log 24). A launch whose cores keep their duties, no two of them
bound to one side of a channel, and whose host pre-seeds within the capacity, boots; releases of sides
the host does not hold change nothing (assumption log 18). All cores have the launch's parameters
(assumption log 26). -/
def Obligations.BootedNetworkIsWellFormed : Prop :=
  (∀ (l : NetworkLaunch) (n : Network), l.cfg.wellFormed = true → bootNetwork l = some n →
    n.wf ∧ n.cores.length = l.cores.length ∧ n.channels.length = l.channels ∧
    (∀ ch ∈ n.channels, ch.senderPort = true → ch.senderHost = false) ∧
    (∀ (c : Nat) (ch : Channel), n.channels[c]? = some ch → (∀ a ∈ l.acts, a ≠ .receive c) →
      ch.queue = l.acts.filterMap (HostAct.sentOn c)) ∧
    ∀ (k : Nat) (cl : CoreLaunch), l.cores[k]? = some cl → ∃ s, n.core k = some s ∧
      s.cfg = l.cfg ∧ LaunchedAs cl s) ∧
  ∀ l : NetworkLaunch, (∀ cl ∈ l.cores, cl.duties l.cfg l.channels) →
    (∀ (j k : Nat) (a b : CoreLaunch) (c : Nat), j ≠ k → l.cores[j]? = some a →
      l.cores[k]? = some b → (a.reader = .channel c → b.reader ≠ .channel c) ∧
        (a.writer = .channel c → b.writer ≠ .channel c)) →
    PreSeeds l.cfg l.channels l.acts → ∃ n, bootNetwork l = some n

/-- 70 R249, 41 R137: the run of a network ends when every core's run has ended; from then on no core
changes anything, whatever agent moves the run stays ended, and the host's final receive gives the head
of a channel whose receiving side it holds. That a final receive asked for before the end has no result
is the model's choice (assumption log 18). -/
def Obligations.NetworkRunEndsWithItsCores : Prop :=
  ∀ n : Network,
    (n.ended = true ↔ ∀ k s, n.core k = some s → s.status ≠ .running) ∧
    (n.ended = true → ∀ k n', n.coreStep k = some n' →
      n'.channels = n.channels ∧ ∀ j, n'.core j = n.core j) ∧
    (n.ended = true → ∀ g n', n.act g = some n' → n'.ended = true) ∧
    (n.wf → n.ended = true → ∀ (c : Nat) (ch : Channel) (v : Word) (q : List Word),
      n.channels[c]? = some ch → ch.receiverHost = true → ch.queue = v :: q →
      n.finalReceive c =
        some (v, { n with channels := n.channels.set c { ch with queue := q } })) ∧
    (n.ended = false → ∀ c, n.finalReceive c = none)
end

