-- ==== Sys2Proof/Laws/State.lean ====
section
/-! SUPPORT. One lemma per field per update of State, true by definition, so that no proof unfolds a
record update. -/

namespace Sys2Proof.Machine

variable (s : State)

@[simp] theorem State.setMem_mem (m : Memory) : (s.setMem m).mem = m := rfl
@[simp] theorem State.setMem_pc (m : Memory) : (s.setMem m).pc = s.pc := rfl
@[simp] theorem State.setMem_rb (m : Memory) : (s.setMem m).rb = s.rb := rfl
@[simp] theorem State.setMem_status (m : Memory) : (s.setMem m).status = s.status := rfl
@[simp] theorem State.setMem_reader (m : Memory) : (s.setMem m).reader = s.reader := rfl
@[simp] theorem State.setMem_writer (m : Memory) : (s.setMem m).writer = s.writer := rfl
@[simp] theorem State.setMem_channels (m : Memory) : (s.setMem m).channels = s.channels := rfl
@[simp] theorem State.setMem_cfg (m : Memory) : (s.setMem m).cfg = s.cfg := rfl

@[simp] theorem State.setPc_mem (p : Nat) : (s.setPc p).mem = s.mem := rfl
@[simp] theorem State.setPc_pc (p : Nat) : (s.setPc p).pc = p := rfl
@[simp] theorem State.setPc_rb (p : Nat) : (s.setPc p).rb = s.rb := rfl
@[simp] theorem State.setPc_status (p : Nat) : (s.setPc p).status = s.status := rfl
@[simp] theorem State.setPc_reader (p : Nat) : (s.setPc p).reader = s.reader := rfl
@[simp] theorem State.setPc_writer (p : Nat) : (s.setPc p).writer = s.writer := rfl
@[simp] theorem State.setPc_channels (p : Nat) : (s.setPc p).channels = s.channels := rfl
@[simp] theorem State.setPc_cfg (p : Nat) : (s.setPc p).cfg = s.cfg := rfl

@[simp] theorem State.setRb_mem (v : Word) : (s.setRb v).mem = s.mem := rfl
@[simp] theorem State.setRb_pc (v : Word) : (s.setRb v).pc = s.pc := rfl
@[simp] theorem State.setRb_rb (v : Word) : (s.setRb v).rb = v := rfl
@[simp] theorem State.setRb_status (v : Word) : (s.setRb v).status = s.status := rfl
@[simp] theorem State.setRb_reader (v : Word) : (s.setRb v).reader = s.reader := rfl
@[simp] theorem State.setRb_writer (v : Word) : (s.setRb v).writer = s.writer := rfl
@[simp] theorem State.setRb_channels (v : Word) : (s.setRb v).channels = s.channels := rfl
@[simp] theorem State.setRb_cfg (v : Word) : (s.setRb v).cfg = s.cfg := rfl

@[simp] theorem State.setStatus_mem (st : Status) : (s.setStatus st).mem = s.mem := rfl
@[simp] theorem State.setStatus_pc (st : Status) : (s.setStatus st).pc = s.pc := rfl
@[simp] theorem State.setStatus_rb (st : Status) : (s.setStatus st).rb = s.rb := rfl
@[simp] theorem State.setStatus_status (st : Status) : (s.setStatus st).status = st := rfl
@[simp] theorem State.setStatus_reader (st : Status) : (s.setStatus st).reader = s.reader := rfl
@[simp] theorem State.setStatus_writer (st : Status) : (s.setStatus st).writer = s.writer := rfl
@[simp] theorem State.setStatus_channels (st : Status) : (s.setStatus st).channels = s.channels := rfl
@[simp] theorem State.setStatus_cfg (st : Status) : (s.setStatus st).cfg = s.cfg := rfl

@[simp] theorem State.setReader_mem (r : ReaderPort) : (s.setReader r).mem = s.mem := rfl
@[simp] theorem State.setReader_pc (r : ReaderPort) : (s.setReader r).pc = s.pc := rfl
@[simp] theorem State.setReader_rb (r : ReaderPort) : (s.setReader r).rb = s.rb := rfl
@[simp] theorem State.setReader_status (r : ReaderPort) : (s.setReader r).status = s.status := rfl
@[simp] theorem State.setReader_reader (r : ReaderPort) : (s.setReader r).reader = r := rfl
@[simp] theorem State.setReader_writer (r : ReaderPort) : (s.setReader r).writer = s.writer := rfl
@[simp] theorem State.setReader_channels (r : ReaderPort) : (s.setReader r).channels = s.channels := rfl
@[simp] theorem State.setReader_cfg (r : ReaderPort) : (s.setReader r).cfg = s.cfg := rfl

@[simp] theorem State.setWriter_mem (w : WriterPort) : (s.setWriter w).mem = s.mem := rfl
@[simp] theorem State.setWriter_pc (w : WriterPort) : (s.setWriter w).pc = s.pc := rfl
@[simp] theorem State.setWriter_rb (w : WriterPort) : (s.setWriter w).rb = s.rb := rfl
@[simp] theorem State.setWriter_status (w : WriterPort) : (s.setWriter w).status = s.status := rfl
@[simp] theorem State.setWriter_reader (w : WriterPort) : (s.setWriter w).reader = s.reader := rfl
@[simp] theorem State.setWriter_writer (w : WriterPort) : (s.setWriter w).writer = w := rfl
@[simp] theorem State.setWriter_channels (w : WriterPort) : (s.setWriter w).channels = s.channels := rfl
@[simp] theorem State.setWriter_cfg (w : WriterPort) : (s.setWriter w).cfg = s.cfg := rfl

@[simp] theorem State.setChannels_mem (cs : List Channel) : (s.setChannels cs).mem = s.mem := rfl
@[simp] theorem State.setChannels_pc (cs : List Channel) : (s.setChannels cs).pc = s.pc := rfl
@[simp] theorem State.setChannels_rb (cs : List Channel) : (s.setChannels cs).rb = s.rb := rfl
@[simp] theorem State.setChannels_status (cs : List Channel) : (s.setChannels cs).status = s.status := rfl
@[simp] theorem State.setChannels_reader (cs : List Channel) : (s.setChannels cs).reader = s.reader := rfl
@[simp] theorem State.setChannels_writer (cs : List Channel) : (s.setChannels cs).writer = s.writer := rfl
@[simp] theorem State.setChannels_channels (cs : List Channel) : (s.setChannels cs).channels = cs := rfl
@[simp] theorem State.setChannels_cfg (cs : List Channel) : (s.setChannels cs).cfg = s.cfg := rfl

@[simp] theorem State.setCfg_mem (c : Config) : (s.setCfg c).mem = s.mem := rfl
@[simp] theorem State.setCfg_pc (c : Config) : (s.setCfg c).pc = s.pc := rfl
@[simp] theorem State.setCfg_rb (c : Config) : (s.setCfg c).rb = s.rb := rfl
@[simp] theorem State.setCfg_status (c : Config) : (s.setCfg c).status = s.status := rfl
@[simp] theorem State.setCfg_reader (c : Config) : (s.setCfg c).reader = s.reader := rfl
@[simp] theorem State.setCfg_writer (c : Config) : (s.setCfg c).writer = s.writer := rfl
@[simp] theorem State.setCfg_channels (c : Config) : (s.setCfg c).channels = s.channels := rfl
@[simp] theorem State.setCfg_cfg (c : Config) : (s.setCfg c).cfg = c := rfl

@[simp] theorem State.advance_mem (k : Nat) : (s.advance k).mem = s.mem := rfl
@[simp] theorem State.advance_pc (k : Nat) : (s.advance k).pc = s.pc + k := rfl
@[simp] theorem State.advance_rb (k : Nat) : (s.advance k).rb = s.rb := rfl
@[simp] theorem State.advance_status (k : Nat) : (s.advance k).status = s.status := rfl
@[simp] theorem State.advance_reader (k : Nat) : (s.advance k).reader = s.reader := rfl
@[simp] theorem State.advance_writer (k : Nat) : (s.advance k).writer = s.writer := rfl
@[simp] theorem State.advance_channels (k : Nat) : (s.advance k).channels = s.channels := rfl
@[simp] theorem State.advance_cfg (k : Nat) : (s.advance k).cfg = s.cfg := rfl

@[simp] theorem State.terminate_mem (st : Status) : (s.terminate st).mem = s.mem := rfl
@[simp] theorem State.terminate_pc (st : Status) : (s.terminate st).pc = s.pc := rfl
@[simp] theorem State.terminate_rb (st : Status) : (s.terminate st).rb = s.rb := rfl
@[simp] theorem State.terminate_status (st : Status) : (s.terminate st).status = st := rfl
@[simp] theorem State.terminate_reader (st : Status) : (s.terminate st).reader = s.reader := rfl
@[simp] theorem State.terminate_writer (st : Status) : (s.terminate st).writer = s.writer := rfl
@[simp] theorem State.terminate_channels (st : Status) : (s.terminate st).channels =
    releaseWriter s.writer (releaseReader s.reader s.channels) := rfl
@[simp] theorem State.terminate_cfg (st : Status) : (s.terminate st).cfg = s.cfg := rfl

@[simp] theorem State.raise_mem (e : ErrorValue) : (s.raise e).mem = s.mem := rfl
@[simp] theorem State.raise_pc (e : ErrorValue) : (s.raise e).pc = s.pc := rfl
@[simp] theorem State.raise_rb (e : ErrorValue) : (s.raise e).rb = s.rb := rfl
@[simp] theorem State.raise_status (e : ErrorValue) : (s.raise e).status = .errored e := rfl
@[simp] theorem State.raise_reader (e : ErrorValue) : (s.raise e).reader = s.reader := rfl
@[simp] theorem State.raise_writer (e : ErrorValue) : (s.raise e).writer = s.writer := rfl
@[simp] theorem State.raise_channels (e : ErrorValue) : (s.raise e).channels =
    releaseWriter s.writer (releaseReader s.reader s.channels) := rfl
@[simp] theorem State.raise_cfg (e : ErrorValue) : (s.raise e).cfg = s.cfg := rfl

theorem State.isRunning_iff : s.isRunning = true ↔ s.status = .running := by
  unfold State.isRunning; cases s.status <;> simp

end Sys2Proof.Machine
end

