-- ==== Sys2Proof/Laws/Memory.lean ====
section
/-! SUPPORT. The laws of the memory operations: read after write, the frame of a write, and that every
operation keeps the canonical form. -/

namespace Sys2Proof.Machine

/-! ### The overflow list -/

theorem overflowGet_eq_zero {a : Nat} {l : List (Nat × Word)} (h : ∀ c ∈ l, a < c.1) :
    overflowGet a l = 0#64 := by
  induction l with
  | nil => rfl
  | cons c rest ih =>
    have hc : a < c.1 := h c (by simp)
    have : a ≠ c.1 := by omega
    simp [overflowGet, this, ih fun d hd => h d (by simp [hd])]

theorem overflowGet_put_same {a : Nat} {v : Word} {l : List (Nat × Word)}
    (h : l.Pairwise fun x y => x.1 < y.1) : overflowGet a (overflowPut a v l) = v := by
  induction l with
  | nil => by_cases hv : v = 0#64 <;> simp [overflowPut, overflowGet, hv]
  | cons c rest ih =>
    obtain ⟨b, x⟩ := c
    obtain ⟨hb, hrest⟩ := List.pairwise_cons.1 h
    by_cases h1 : a < b
    · have hz : overflowGet a ((b, x) :: rest) = 0#64 :=
        overflowGet_eq_zero fun d hd => by
          rcases List.mem_cons.1 hd with rfl | hd
          · exact h1
          · exact h1.trans (hb d hd)
      by_cases hv : v = 0#64
      · simp [overflowPut, h1, hv, hz]
      · simp [overflowPut, h1, hv, overflowGet]
    · by_cases h2 : a = b
      · subst h2
        by_cases hv : v = 0#64
        · simp [overflowPut, hv, overflowGet_eq_zero hb]
        · simp [overflowPut, hv, overflowGet]
      · simp [overflowPut, h1, h2, overflowGet, ih hrest]

theorem overflowGet_put_other {a b : Nat} {v : Word} {l : List (Nat × Word)} (hab : b ≠ a)
    (h : l.Pairwise fun x y => x.1 < y.1) :
    overflowGet b (overflowPut a v l) = overflowGet b l := by
  induction l with
  | nil => by_cases hv : v = 0#64 <;> simp [overflowPut, overflowGet, hv, hab]
  | cons c rest ih =>
    obtain ⟨k, x⟩ := c
    obtain ⟨_, hrest⟩ := List.pairwise_cons.1 h
    by_cases h1 : a < k
    · by_cases hv : v = 0#64 <;> simp [overflowPut, h1, hv, overflowGet, hab]
    · by_cases h2 : a = k
      · subst h2
        by_cases hv : v = 0#64 <;> simp [overflowPut, hv, overflowGet, hab]
      · by_cases h3 : b = k <;> simp [overflowPut, h1, h2, h3, overflowGet, ih hrest]

theorem mem_overflowPut {a : Nat} {v : Word} {l : List (Nat × Word)} {c : Nat × Word}
    (h : c ∈ overflowPut a v l) : c ∈ l ∨ (c = (a, v) ∧ v ≠ 0#64) := by
  induction l with
  | nil => by_cases hv : v = 0#64 <;> simp_all [overflowPut]
  | cons d rest ih =>
    obtain ⟨b, x⟩ := d
    unfold overflowPut at h
    split at h
    · split at h <;> simp_all
      tauto
    · split at h
      · split at h <;> simp_all
        tauto
      · rcases List.mem_cons.1 h with h | h
        · simp [h]
        · rcases ih h with h | h
          · simp [h]
          · exact .inr h

theorem overflowPut_pairwise {a : Nat} {v : Word} {l : List (Nat × Word)}
    (h : l.Pairwise fun x y => x.1 < y.1) :
    (overflowPut a v l).Pairwise fun x y => x.1 < y.1 := by
  induction l with
  | nil => by_cases hv : v = 0#64 <;> simp [overflowPut, hv]
  | cons d rest ih =>
    obtain ⟨b, x⟩ := d
    obtain ⟨hb, hrest⟩ := List.pairwise_cons.1 h
    unfold overflowPut
    split
    · rename_i h1
      split
      · exact h
      · refine List.pairwise_cons.2 ⟨fun c hc => ?_, h⟩
        rcases List.mem_cons.1 hc with rfl | hc
        · exact h1
        · exact h1.trans (hb c hc)
    · rename_i h1
      split
      · rename_i h2
        subst h2
        split
        · exact hrest
        · exact List.pairwise_cons.2 ⟨hb, hrest⟩
      · rename_i h2
        refine List.pairwise_cons.2 ⟨fun c hc => ?_, ih hrest⟩
        rcases mem_overflowPut hc with hc | ⟨rfl, -⟩
        · exact hb c hc
        · show b < a
          omega

/-! ### The memory -/

@[simp] theorem Memory.size_poke (m : Memory) (a : Nat) (v : Word) : (m.poke a v).size = m.size := by
  unfold Memory.poke Memory.size
  split <;> simp

/-- A write keeps the canonical form. -/
theorem Memory.poke_wf {m : Memory} (h : m.wf) (a : Nat) (v : Word) : (m.poke a v).wf := by
  unfold Memory.poke
  split
  · refine ⟨h.1, fun c hc => ?_⟩
    simpa [Memory.size] using h.2 c hc
  · rename_i ha
    refine ⟨overflowPut_pairwise h.1, fun c hc => ?_⟩
    rcases mem_overflowPut hc with hc | ⟨rfl, hv⟩
    · exact h.2 c hc
    · exact ⟨Nat.le_of_not_lt ha, hv⟩

theorem Memory.write_wf {cfg : Config} {m n : Memory} {a : Nat} {v : Word} (h : m.wf)
    (hw : m.write cfg a v = .ok n) : n.wf := by
  unfold Memory.write at hw
  split at hw
  · cases hw; exact m.poke_wf h a v
  · cases hw

/-- The host's placing of a word keeps the canonical form. -/
theorem Memory.place_wf {cfg : Config} {m : Memory} (h : m.wf) (a : Nat) (v : Word)
    (hcfg : cfg.overflowRegion = .disabled → m.overflow = []) : (m.place cfg a v).wf := by
  unfold Memory.place
  split
  · exact m.poke_wf h a v
  · rename_i ha
    have hd : cfg.overflowRegion = .disabled := by
      cases hr : cfg.overflowRegion
      · simp [Memory.accessible, hr] at ha
      · rfl
    simp [Memory.wf, hcfg hd]

theorem Memory.reset_wf : State.reset.mem.wf := by decide

theorem Memory.peek_poke_same {m : Memory} (h : m.wf) (a : Nat) (v : Word) :
    (m.poke a v).peek a = v := by
  by_cases ha : a < m.size
  · have ha' : a < m.store.length := ha
    simp [Memory.poke, Memory.peek, Memory.size, ha']
  · have : ¬ a < m.store.length := ha
    simp [Memory.poke, Memory.peek, Memory.size, this]
    exact overflowGet_put_same h.1

theorem Memory.peek_poke_other {m : Memory} (h : m.wf) {a b : Nat} (hab : b ≠ a) (v : Word) :
    (m.poke a v).peek b = m.peek b := by
  by_cases ha : a < m.size
  · have hs : Memory.size { m with store := m.store.set a v } = m.size := by simp [Memory.size]
    simp only [Memory.poke, ha, if_true, Memory.peek, hs]
    split
    · simp [List.getD_eq_getElem?_getD, hab.symm]
    · rfl
  · simp only [Memory.poke, ha, if_false, Memory.peek]
    split
    · rename_i hb
      have : b < m.size := hb
      simp [this]
    · rename_i hb
      have : ¬ b < m.size := hb
      simp [this, overflowGet_put_other hab h.1]

theorem Memory.accessible_of_size {cfg : Config} {m n : Memory} (h : n.size = m.size) (a : Nat) :
    n.accessible cfg a = m.accessible cfg a := by
  simp [Memory.accessible, h]

theorem Memory.accessible_enabled {cfg : Config} (h : cfg.overflowRegion = .enabled) (m : Memory)
    (a : Nat) : m.accessible cfg a = true := by
  simp [Memory.accessible, h]

theorem Memory.read_ok {cfg : Config} {m : Memory} {a : Nat} {v : Word} :
    m.read cfg a = .ok v ↔ m.accessible cfg a = true ∧ m.peek a = v := by
  unfold Memory.read
  split <;> simp [*]

theorem Memory.read_error {cfg : Config} {m : Memory} {a : Nat} {e : ErrorValue} :
    m.read cfg a = .error e ↔ m.accessible cfg a = false ∧ e = .indexNotFound a := by
  unfold Memory.read
  split <;> simp [*, eq_comm]

theorem State.store_ok {s t : State} {a : Nat} {v : Word} :
    s.store a v = .ok t ↔ s.mem.accessible s.cfg a = true ∧ t = s.setMem (s.mem.poke a v) := by
  unfold State.store Memory.write
  split <;> simp [*, Except.map, eq_comm]

theorem State.store_error {s : State} {a : Nat} {v : Word} {e : ErrorValue} :
    s.store a v = .error e ↔ s.mem.accessible s.cfg a = false ∧ e = .indexNotFound a := by
  unfold State.store Memory.write
  split <;> simp [*, Except.map, eq_comm]

end Sys2Proof.Machine
end

