-- ==== Sys2Proof/Laws/Ops.lean ====
section
/-! SUPPORT. What the shared operations can do: `chk64`, `settle`, and the operand forms. -/

namespace Sys2Proof.Machine

/-! ### Chains of operations that may raise -/

theorem bind_ok_iff {ε α β : Type} {x : Except ε α} {f : α → Except ε β} {b : β} :
    (x >>= f) = .ok b ↔ ∃ a, x = .ok a ∧ f a = .ok b := by
  cases x <;> simp [bind, Except.bind]

theorem bind_error_iff {ε α β : Type} {x : Except ε α} {f : α → Except ε β} {e : ε} :
    (x >>= f) = .error e ↔ x = .error e ∨ ∃ a, x = .ok a ∧ f a = .error e := by
  cases x <;> simp [bind, Except.bind]

theorem ok_bind {ε α β : Type} (a : α) (f : α → Except ε β) : (Except.ok a >>= f) = f a := rfl

theorem error_bind {ε α β : Type} (e : ε) (f : α → Except ε β) :
    (Except.error e >>= f) = .error e := rfl

/-- An instruction's end is a next state: the one it computed, or the error it raised, taken. -/
theorem settle_next_iff {s t : State} {r : Except ErrorValue State} :
    settle s r = .next t ↔ r = .ok t ∨ ∃ e, r = .error e ∧ t = s.raise e := by
  cases r <;> simp [settle, eq_comm]

@[simp] theorem settle_ok (s t : State) : settle s (.ok t) = .next t := rfl

@[simp] theorem settle_error (s : State) (e : ErrorValue) :
    settle s (.error e) = .next (s.raise e) := rfl

/-! ### Exact arithmetic -/

theorem toInt_wordOfInt {v : Int} (h : FitsInt64 v) : (wordOfInt v).toInt = v := by
  obtain ⟨h1, h2⟩ := h
  rw [wordOfInt, BitVec.toInt_ofInt, Int.bmod_def]
  split <;> omega

theorem fitsInt64_toInt (w : Word) : FitsInt64 w.toInt := by
  have h1 := BitVec.le_toInt w
  have h2 := BitVec.toInt_lt (x := w)
  constructor <;> omega

theorem wordOfInt_toInt (w : Word) : wordOfInt w.toInt = w := BitVec.ofInt_toInt

theorem chk64_fits {v : Int} (h : FitsInt64 v) (cfg : Config) (op : ArithOp) :
    chk64 cfg op v = .ok (wordOfInt v) := by
  unfold chk64
  rw [if_pos h]

theorem chk64_fault {cfg : Config} {v : Int} (h : ¬ FitsInt64 v) (hc : cfg.arithOverflow = .fault)
    (op : ArithOp) : chk64 cfg op v = .error (.arithmeticOverflow op) := by
  unfold chk64
  rw [if_neg h, hc]

theorem chk64_wrap {cfg : Config} (hc : cfg.arithOverflow = .wrap) (op : ArithOp) (v : Int) :
    chk64 cfg op v = .ok (wordOfInt v) := by
  unfold chk64
  rw [hc]
  split <;> rfl

theorem chk64_error {cfg : Config} {op : ArithOp} {v : Int} {e : ErrorValue}
    (h : chk64 cfg op v = .error e) :
    ¬ FitsInt64 v ∧ cfg.arithOverflow = .fault ∧ e = .arithmeticOverflow op := by
  unfold chk64 at h
  split at h
  · cases h
  · split at h <;> simp_all

theorem chk64_ok {cfg : Config} {op : ArithOp} {v : Int} {w : Word} (h : chk64 cfg op v = .ok w) :
    w = wordOfInt v := by
  unfold chk64 at h
  split at h
  · cases h; rfl
  · split at h <;> simp_all

theorem wordOfInt_congr (v : Int) : (2 : Int) ^ 64 ∣ (wordOfInt v).toInt - v := by
  have h : (wordOfInt v).toInt % 2 ^ 64 = v % 2 ^ 64 := by
    rw [wordOfInt, BitVec.toInt_ofInt]
    exact Int.bmod_emod
  omega

/-! ### Truth words -/

theorem truthWord_signedLess (a b : Word) :
    truthWord (signedLess a b) = if a.toInt < b.toInt then 1 else 0 := by
  by_cases h : a.toInt < b.toInt <;> simp [truthWord, signedLess, h]

theorem truthWord_signedEqual (a b : Word) :
    truthWord (signedEqual a b) = if a.toInt = b.toInt then 1 else 0 := by
  by_cases h : a.toInt = b.toInt <;> simp [truthWord, signedEqual, h]

theorem truthWord_one_or_zero (b : Bool) : truthWord b = 1 ∨ truthWord b = 0 := by
  cases b <;> simp [truthWord]

theorem wordIsTrue_iff {c : Word} : wordIsTrue c = true ↔ c.toInt ≠ 0 := by simp [wordIsTrue]

theorem wordIsFalse_iff {c : Word} : wordIsFalse c = true ↔ c.toInt = 0 := by simp [wordIsFalse]

/-! ### Operand forms -/

/-- The errors that resolving an operand, reading it or writing through it can raise
(60 R211 steps 4 and 7). -/
def AddressError (cfg : Config) (m : Memory) : ErrorValue → Prop
  | .indexNotFound a      => m.accessible cfg a = false
  | .negativeAddress a    => a.toInt < 0
  | .readFromInput        => False
  | .writeToOutput        => False
  | .portDisabled _       => False
  | .arithmeticOverflow o => o = .relativeAddress ∧ cfg.arithOverflow = .fault
  | .negativeJumpTarget _ => False
  | .invalidModeDigit _   => False

theorem addressOf_nonneg {a : Word} (h : 0 ≤ a.toInt) : addressOf a = .ok a.toInt.toNat := by
  unfold addressOf
  rw [if_neg (by omega)]

theorem addressOf_neg {a : Word} (h : a.toInt < 0) : addressOf a = .error (.negativeAddress a) := by
  unfold addressOf
  rw [if_pos h]

theorem load_error {s : State} {a : Nat} {e : ErrorValue} (h : s.load a = .error e) :
    AddressError s.cfg s.mem e := by
  obtain ⟨h1, rfl⟩ := Memory.read_error.1 h
  exact h1

theorem addressOf_error {cfg : Config} {m : Memory} {a : Word} {e : ErrorValue}
    (h : addressOf a = .error e) : AddressError cfg m e := by
  unfold addressOf at h
  split at h
  · cases h; assumption
  · cases h

theorem resolve_error {s : State} {i : Nat} {m : Mode} {e : ErrorValue}
    (h : resolve s i m = .error e) : AddressError s.cfg s.mem e := by
  cases m with
  | position =>
    rcases bind_error_iff.1 h with h | ⟨w, -, h⟩
    · exact load_error h
    · exact addressOf_error h
  | immediate => cases h
  | relative =>
    rcases bind_error_iff.1 h with h | ⟨w, -, h⟩
    · exact load_error h
    · rcases bind_error_iff.1 h with h | ⟨a, -, h⟩
      · obtain ⟨-, hc, rfl⟩ := chk64_error h
        exact ⟨rfl, hc⟩
      · exact addressOf_error h

theorem dest_error {s : State} {k : Nat} {m : Mode} {e : ErrorValue} (h : dest s k m = .error e) :
    AddressError s.cfg s.mem e := resolve_error h

theorem operand_error {s : State} {k : Nat} {m : Mode} {e : ErrorValue}
    (h : operand s k m = .error e) : AddressError s.cfg s.mem e := by
  rcases bind_error_iff.1 h with h | ⟨a, -, h⟩
  · exact resolve_error h
  · exact load_error h

theorem store_error {s : State} {a : Nat} {v : Word} {e : ErrorValue} (h : s.store a v = .error e) :
    AddressError s.cfg s.mem e := by
  obtain ⟨h1, rfl⟩ := State.store_error.1 h
  exact h1

/-- Resolution looks at the memory, the relative base and the parameters only. -/
theorem resolve_congr {s t : State} (hm : t.mem = s.mem) (hr : t.rb = s.rb) (hc : t.cfg = s.cfg)
    (i : Nat) (m : Mode) : resolve t i m = resolve s i m := by
  cases m <;> simp [resolve, State.load, hm, hr, hc]

theorem operand_congr {s t : State} (hm : t.mem = s.mem) (hp : t.pc = s.pc) (hr : t.rb = s.rb)
    (hc : t.cfg = s.cfg) (k : Nat) (m : Mode) : operand t k m = operand s k m := by
  simp [operand, resolve_congr hm hr hc, State.load, hm, hp, hc]

theorem dest_congr {s t : State} (hm : t.mem = s.mem) (hp : t.pc = s.pc) (hr : t.rb = s.rb)
    (hc : t.cfg = s.cfg) (k : Nat) (m : Mode) : dest t k m = dest s k m := by
  simp [dest, resolve_congr hm hr hc, hp]

/-- Everything a binary instruction can do (40 R100, R101; 43 R160, R161). -/
theorem binaryToDest_next {f : Word → Word → Except ErrorValue Word} {m1 m2 m3 : Mode} {s t : State}
    (h : binaryToDest f m1 m2 m3 s = .next t) :
    (∃ a b d r, operand s 1 m1 = .ok a ∧ operand s 2 m2 = .ok b ∧ dest s 3 m3 = .ok d ∧
      f a b = .ok r ∧ s.mem.accessible s.cfg d = true ∧
      t = (s.setMem (s.mem.poke d r)).advance 4) ∨
    (∃ e, t = s.raise e ∧ (AddressError s.cfg s.mem e ∨
      ∃ a b, operand s 1 m1 = .ok a ∧ operand s 2 m2 = .ok b ∧ f a b = .error e)) := by
  rcases settle_next_iff.1 h with h | ⟨e, he, rfl⟩
  · obtain ⟨a, ha, h⟩ := bind_ok_iff.1 h
    obtain ⟨b, hb, h⟩ := bind_ok_iff.1 h
    obtain ⟨d, hd, h⟩ := bind_ok_iff.1 h
    obtain ⟨r, hr, h⟩ := bind_ok_iff.1 h
    obtain ⟨u, hu, h⟩ := bind_ok_iff.1 h
    obtain ⟨hacc, rfl⟩ := State.store_ok.1 hu
    cases h
    exact .inl ⟨a, b, d, r, ha, hb, hd, hr, hacc, rfl⟩
  · refine .inr ⟨e, rfl, ?_⟩
    rcases bind_error_iff.1 he with h1 | ⟨a, ha, he⟩
    · exact .inl (operand_error h1)
    rcases bind_error_iff.1 he with h1 | ⟨b, hb, he⟩
    · exact .inl (operand_error h1)
    rcases bind_error_iff.1 he with h1 | ⟨d, hd, he⟩
    · exact .inl (dest_error h1)
    rcases bind_error_iff.1 he with h1 | ⟨r, hr, he⟩
    · exact .inr ⟨a, b, ha, hb, h1⟩
    rcases bind_error_iff.1 he with h1 | ⟨u, hu, he⟩
    · exact .inl (store_error h1)
    · cases he

/-- A binary instruction whose operands resolve and whose result is computed completes. -/
theorem binaryToDest_done {f : Word → Word → Except ErrorValue Word} {m1 m2 m3 : Mode} {s : State}
    {a b r : Word} {d : Nat} (ha : operand s 1 m1 = .ok a) (hb : operand s 2 m2 = .ok b)
    (hd : dest s 3 m3 = .ok d) (hr : f a b = .ok r) (hacc : s.mem.accessible s.cfg d = true) :
    binaryToDest f m1 m2 m3 s = .next ((s.setMem (s.mem.poke d r)).advance 4) := by
  rw [binaryToDest, ha, ok_bind, hb, ok_bind, hd, ok_bind, hr, ok_bind,
    State.store_ok.2 ⟨hacc, rfl⟩]
  rfl

end Sys2Proof.Machine
end

