-- ==== Sys2Proof/Laws/Ports.lean ====
section
/-! SUPPORT. What the ports and the channels can do. -/

namespace Sys2Proof.Machine

/-! ### Channels -/

theorem Channel.receive_received {c d : Channel} {v : Word} (h : c.receive = .received v d) :
    c.queue = v :: d.queue ∧ d = { c with queue := d.queue } := by
  unfold Channel.receive at h
  split at h
  · rename_i hq
    cases h
    exact ⟨hq, rfl⟩
  · split at h <;> cases h

theorem Channel.receive_closed {c : Channel} :
    c.receive = .closed ↔ c.queue = [] ∧ c.senderOpen = false := by
  unfold Channel.receive
  split <;> simp_all

theorem Channel.receive_empty {c : Channel} :
    c.receive = .empty ↔ c.queue = [] ∧ c.senderOpen = true := by
  unfold Channel.receive
  split <;> simp_all

theorem Channel.send_sent {c d : Channel} {v : Word} :
    c.send v = .sent d ↔
      c.receiverOpen = true ∧ c.full = false ∧ d = { c with queue := c.queue ++ [v] } := by
  unfold Channel.send
  split
  · split <;> simp [*, eq_comm]
  · simp [*]

theorem Channel.send_closed {c : Channel} {v : Word} :
    c.send v = .closed ↔ c.receiverOpen = false := by
  unfold Channel.send
  split
  · split <;> simp_all
  · simp_all

theorem Channel.send_full {c : Channel} {v : Word} :
    c.send v = .full ↔ c.receiverOpen = true ∧ c.full = true := by
  unfold Channel.send
  split
  · split <;> simp_all
  · simp_all

/-! ### Ports -/

/-- Everything a completed `ReaderRead` can do (41 R124). -/
theorem readerRead_done {s t : State} {v : Word} (h : readerRead s = .done v t) :
    (∃ q, s.reader = .fixedSeq (v :: q) ∧ t = s.setReader (.fixedSeq q)) ∨
    (∃ c ch ch', s.reader = .channel c ∧ s.channels[c]? = some ch ∧ ch.receive = .received v ch' ∧
      t = s.setChannels (s.channels.set c ch')) := by
  unfold readerRead at h
  split at h
  · cases h
  · rename_i q hr
    cases q with
    | nil => cases h
    | cons w q => cases h; exact .inl ⟨q, hr, rfl⟩
  · rename_i c hr
    split at h
    · cases h
    · rename_i ch hc
      split at h
      · rename_i w ch' hch
        cases h
        exact .inr ⟨c, ch, ch', hr, hc, hch, rfl⟩
      · cases h
      · cases h

/-- The errors of the Reader (41 R123, R125, R126). -/
theorem readerRead_error {s : State} {e : ErrorValue} (h : readerRead s = .error e) :
    (s.reader = .disabled ∧ e = .portDisabled .reader) ∨
    (s.reader = .fixedSeq [] ∧ e = .readFromInput) ∨
    (∃ c ch, s.reader = .channel c ∧ s.channels[c]? = some ch ∧ ch.receive = .closed ∧
      e = .readFromInput) := by
  unfold readerRead at h
  split at h
  · rename_i hr; cases h; exact .inl ⟨hr, rfl⟩
  · rename_i q hr
    cases q with
    | nil => cases h; exact .inr (.inl ⟨hr, rfl⟩)
    | cons w q => cases h
  · rename_i c hr
    split at h
    · cases h
    · rename_i ch hc
      split at h
      · cases h
      · rename_i hch
        cases h
        exact .inr (.inr ⟨c, ch, hr, hc, hch, rfl⟩)
      · cases h

theorem readerRead_wait {s : State} (h : readerRead s = .wait) :
    ∃ c ch, s.reader = .channel c ∧ s.channels[c]? = some ch ∧ ch.receive = .empty := by
  unfold readerRead at h
  split at h
  · cases h
  · rename_i q hr
    cases q <;> cases h
  · rename_i c hr
    split at h
    · cases h
    · rename_i ch hc
      split at h
      · cases h
      · cases h
      · rename_i hch
        exact ⟨c, ch, hr, hc, hch⟩

theorem readerRead_missing {s : State} {c : Nat} (h : readerRead s = .missing c) :
    s.reader = .channel c ∧ s.channels[c]? = none := by
  unfold readerRead at h
  split at h
  · cases h
  · rename_i q hr
    cases q <;> cases h
  · rename_i d hr
    split at h
    · rename_i hc; cases h; exact ⟨hr, hc⟩
    · split at h <;> cases h

/-- Everything a completed `WriterWrite` can do (41 R128). -/
theorem writerWrite_done {s t : State} {v : Word} {u : Unit} (h : writerWrite s v = .done u t) :
    (∃ log, s.writer = .fixedSeq log ∧ t = s.setWriter (.fixedSeq (log ++ [v]))) ∨
    (∃ c ch ch', s.writer = .channel c ∧ s.channels[c]? = some ch ∧ ch.send v = .sent ch' ∧
      t = s.setChannels (s.channels.set c ch')) := by
  unfold writerWrite at h
  split at h
  · cases h
  · rename_i log hw; cases h; exact .inl ⟨log, hw, rfl⟩
  · rename_i c hw
    split at h
    · cases h
    · rename_i ch hc
      split at h
      · rename_i ch' hch
        cases h
        exact .inr ⟨c, ch, ch', hw, hc, hch, rfl⟩
      · cases h
      · cases h

/-- The errors of the Writer (41 R123, R130). -/
theorem writerWrite_error {s : State} {v : Word} {e : ErrorValue} (h : writerWrite s v = .error e) :
    (s.writer = .disabled ∧ e = .portDisabled .writer) ∨
    (∃ c ch, s.writer = .channel c ∧ s.channels[c]? = some ch ∧ ch.receiverOpen = false ∧
      e = .writeToOutput) := by
  unfold writerWrite at h
  split at h
  · rename_i hw; cases h; exact .inl ⟨hw, rfl⟩
  · cases h
  · rename_i c hw
    split at h
    · cases h
    · rename_i ch hc
      split at h
      · cases h
      · rename_i hch
        cases h
        exact .inr ⟨c, ch, hw, hc, Channel.send_closed.1 hch, rfl⟩
      · cases h

theorem writerWrite_missing {s : State} {v : Word} {c : Nat} (h : writerWrite s v = .missing c) :
    s.writer = .channel c ∧ s.channels[c]? = none := by
  unfold writerWrite at h
  split at h
  · cases h
  · cases h
  · rename_i d hw
    split at h
    · rename_i hc; cases h; exact ⟨hw, hc⟩
    · split at h <;> cases h

/-! ### Blocked ports -/

theorem Channel.full_iff {ch : Channel} :
    ch.full = true ↔ ∃ n, ch.cap = .bounded n ∧ n ≤ ch.queue.length := by
  unfold Channel.full
  split <;> simp [*]

theorem readerBlocked_iff {s : State} : s.readerBlocked = true ↔
    ∃ c ch, s.reader = .channel c ∧ s.channels[c]? = some ch ∧ ch.queue = [] ∧
      ch.senderOpen = true := by
  unfold State.readerBlocked
  split
  · simp [*]
  · simp [*]
  · split <;> simp [*]

theorem writerBlocked_iff {s : State} : s.writerBlocked = true ↔
    ∃ c ch, s.writer = .channel c ∧ s.channels[c]? = some ch ∧ ch.full = true ∧
      ch.receiverOpen = true := by
  unfold State.writerBlocked
  split
  · simp [*]
  · simp [*]
  · split <;> simp [*]

/-- `ReaderRead` waits exactly at a blocked Reader (41 R124, 10 R27). -/
theorem readerRead_eq_wait {s : State} : readerRead s = .wait ↔ s.readerBlocked = true := by
  rw [readerBlocked_iff]
  constructor
  · intro h
    obtain ⟨c, ch, hr, hc, he⟩ := readerRead_wait h
    exact ⟨c, ch, hr, hc, Channel.receive_empty.1 he⟩
  · rintro ⟨c, ch, hr, hc, hq, ho⟩
    unfold readerRead
    simp only [hr, hc, Channel.receive_empty.2 ⟨hq, ho⟩]

/-- `WriterWrite` waits exactly at a blocked Writer (41 R128, 10 R27). -/
theorem writerWrite_eq_wait {s : State} {v : Word} :
    writerWrite s v = .wait ↔ s.writerBlocked = true := by
  rw [writerBlocked_iff]
  constructor
  · intro h
    unfold writerWrite at h
    split at h
    · cases h
    · cases h
    · rename_i c hw
      split at h
      · cases h
      · rename_i ch hc
        split at h
        · cases h
        · cases h
        · rename_i hs
          obtain ⟨ho, hf⟩ := Channel.send_full.1 hs
          exact ⟨c, ch, hw, hc, hf, ho⟩
  · rintro ⟨c, ch, hw, hc, hf, ho⟩
    unfold writerWrite
    simp only [hw, hc, Channel.send_full.2 ⟨ho, hf⟩]

theorem readerRead_fixedSeq {s : State} {v : Word} {q : List Word}
    (h : s.reader = .fixedSeq (v :: q)) :
    readerRead s = .done v (s.setReader (.fixedSeq q)) := by
  simp only [readerRead, h]

theorem readerRead_channel {s : State} {c : Nat} {ch : Channel} (h : s.reader = .channel c)
    (hc : s.channels[c]? = some ch) :
    readerRead s =
      match ch.receive with
      | .received v ch' => .done v (s.setChannels (s.channels.set c ch'))
      | .closed         => .error .readFromInput
      | .empty          => .wait := by
  cases hr : ch.receive <;> simp only [readerRead, h, hc, hr]

theorem writerWrite_fixedSeq {s : State} {log : List Word} (h : s.writer = .fixedSeq log)
    (v : Word) : writerWrite s v = .done () (s.setWriter (.fixedSeq (log ++ [v]))) := by
  simp only [writerWrite, h]

theorem writerWrite_channel {s : State} {c : Nat} {ch : Channel} (h : s.writer = .channel c)
    (hc : s.channels[c]? = some ch) (v : Word) :
    writerWrite s v =
      match ch.send v with
      | .sent ch' => .done () (s.setChannels (s.channels.set c ch'))
      | .closed   => .error .writeToOutput
      | .full     => .wait := by
  cases hs : ch.send v <;> simp only [writerWrite, h, hc, hs]

/-- Taking a value changes the Reader's sequence or the channels, nothing else. -/
theorem readerRead_frame {s t : State} {v : Word} (h : readerRead s = .done v t) :
    t.mem = s.mem ∧ t.pc = s.pc ∧ t.rb = s.rb ∧ t.status = s.status ∧ t.writer = s.writer ∧
      t.cfg = s.cfg := by
  rcases readerRead_done h with ⟨q, -, rfl⟩ | ⟨c, ch, ch', -, -, -, rfl⟩ <;> simp

/-- Giving a value changes the Writer's log or the channels, nothing else. -/
theorem writerWrite_frame {s t : State} {v : Word} {u : Unit} (h : writerWrite s v = .done u t) :
    t.mem = s.mem ∧ t.pc = s.pc ∧ t.rb = s.rb ∧ t.status = s.status ∧ t.reader = s.reader ∧
      t.cfg = s.cfg := by
  rcases writerWrite_done h with ⟨q, -, rfl⟩ | ⟨c, ch, ch', -, -, -, rfl⟩ <;> simp

/-- What an instruction can do after its port operation. -/
theorem afterPort_next {α : Type} {s t : State} {r : PortResult α}
    {k : α → State → Host.Outcome State Fault Refusal} (h : afterPort s r k = .next t) :
    (∃ x u, r = .done x u ∧ k x u = .next t) ∨ (∃ e, r = .error e ∧ t = s.raise e) ∨
      (r = .wait ∧ t = s) := by
  cases r with
  | done x u => exact .inl ⟨x, u, rfl, h⟩
  | error e => cases h; exact .inr (.inl ⟨e, rfl, rfl⟩)
  | wait => cases h; exact .inr (.inr ⟨rfl, rfl⟩)
  | missing c => cases h

/-! ### Releasing endpoints -/

theorem releaseReader_length (r : ReaderPort) (cs : List Channel) :
    (releaseReader r cs).length = cs.length := by
  cases r <;> simp [releaseReader]

theorem releaseWriter_length (w : WriterPort) (cs : List Channel) :
    (releaseWriter w cs).length = cs.length := by
  cases w <;> simp [releaseWriter]

theorem releaseReader_getElem? (r : ReaderPort) (cs : List Channel) (c : Nat) :
    (releaseReader r cs)[c]? =
      if r = .channel c then (cs[c]?).map Channel.releaseReceiverPort else cs[c]? := by
  cases r with
  | disabled => simp [releaseReader]
  | fixedSeq q => simp [releaseReader]
  | channel d =>
    by_cases h : d = c <;> simp [releaseReader, h]

theorem releaseWriter_getElem? (w : WriterPort) (cs : List Channel) (c : Nat) :
    (releaseWriter w cs)[c]? =
      if w = .channel c then (cs[c]?).map Channel.releaseSenderPort else cs[c]? := by
  cases w with
  | disabled => simp [releaseWriter]
  | fixedSeq q => simp [releaseWriter]
  | channel d =>
    by_cases h : d = c <;> simp [releaseWriter, h]

/-- What `terminate` does to the channels (41 R136). -/
theorem released_channels (s : State) :
    (releaseWriter s.writer (releaseReader s.reader s.channels)).length = s.channels.length ∧
    ∀ (c : Nat) (ch : Channel), s.channels[c]? = some ch →
      (releaseWriter s.writer (releaseReader s.reader s.channels))[c]? = some { ch with
        receiverPort := ch.receiverPort && !decide (s.reader = .channel c)
        senderPort := ch.senderPort && !decide (s.writer = .channel c) } := by
  refine ⟨by rw [releaseWriter_length, releaseReader_length], fun c ch hc => ?_⟩
  rw [releaseWriter_getElem?, releaseReader_getElem?, hc]
  by_cases h1 : s.reader = .channel c <;> by_cases h2 : s.writer = .channel c <;>
    simp [h1, h2, Channel.releaseReceiverPort, Channel.releaseSenderPort]

/-! ### One port operation, seen from the channels -/

/-- What one port operation may do to a channel it uses (41 R124, R128): its queue loses its head or
gains one value at its end, with room for it, and nothing else changes. -/
structure ChannelMove (c d : Channel) : Prop where
  cap          : d.cap = c.cap
  senderPort   : d.senderPort = c.senderPort
  senderHost   : d.senderHost = c.senderHost
  receiverPort : d.receiverPort = c.receiverPort
  receiverHost : d.receiverHost = c.receiverHost
  queue        : d.queue = c.queue ∨ (∃ v, c.queue = v :: d.queue) ∨
    (c.full = false ∧ ∃ v, d.queue = c.queue ++ [v])

theorem ChannelMove.refl (c : Channel) : ChannelMove c c := ⟨rfl, rfl, rfl, rfl, rfl, .inl rfl⟩

/-- One channel replaced by what a port operation makes of it: every channel makes a move. -/
theorem channelMove_set {cs : List Channel} {c : Nat} {ch d : Channel} (hc : cs[c]? = some ch)
    (hm : ChannelMove ch d) (k : Nat) (x : Channel) (hx : cs[k]? = some x) :
    ∃ y, (cs.set c d)[k]? = some y ∧ ChannelMove x y ∧ (k ≠ c → y = x) := by
  by_cases h : c = k
  · subst h
    cases hc.symm.trans hx
    have hlt := (List.getElem?_eq_some_iff.1 hc).1
    exact ⟨d, by simp [hlt], hm, fun hne => absurd rfl hne⟩
  · exact ⟨x, by simp [h, hx], .refl x, fun _ => rfl⟩

theorem Channel.receive_move {c d : Channel} {v : Word} (h : c.receive = .received v d) :
    ChannelMove c d := by
  obtain ⟨hq, hd⟩ := Channel.receive_received h
  rw [hd]
  exact ⟨rfl, rfl, rfl, rfl, rfl, .inr (.inl ⟨v, hq⟩)⟩

theorem Channel.send_move {c d : Channel} {v : Word} (h : c.send v = .sent d) :
    ChannelMove c d := by
  obtain ⟨-, hf, rfl⟩ := Channel.send_sent.1 h
  exact ⟨rfl, rfl, rfl, rfl, rfl, .inr (.inr ⟨hf, v, rfl⟩)⟩

end Sys2Proof.Machine
end

