-- ==== Sys2Proof/Laws/HostSide.lean ====
section
/-! SUPPORT. What the host's acts can do, and how a network's step is one core's step. -/

namespace Sys2Proof.Machine

/-- Everything the host's send can do (41 R137). -/
theorem hostSend_some {cs ds : List Channel} {c : Nat} {v : Word} (h : hostSend cs c v = some ds) :
    ∃ ch d, cs[c]? = some ch ∧ ch.senderHost = true ∧ ch.send v = .sent d ∧ ds = cs.set c d := by
  unfold hostSend at h
  split at h
  · cases h
  · rename_i ch hc
    split at h
    · rename_i hh
      split at h
      · rename_i d hs
        cases h
        exact ⟨ch, d, hc, hh, hs, rfl⟩
      · cases h
      · cases h
    · cases h

/-- Everything the host's receive can do (41 R137). -/
theorem hostReceive_some {cs ds : List Channel} {c : Nat} {v : Word}
    (h : hostReceive cs c = some (v, ds)) :
    ∃ ch d, cs[c]? = some ch ∧ ch.receiverHost = true ∧ ch.receiverPort = false ∧
      ch.receive = .received v d ∧ ds = cs.set c d := by
  unfold hostReceive at h
  split at h
  · cases h
  · rename_i ch hc
    split at h
    · rename_i hh
      split at h
      · rename_i w d hs
        cases h
        exact ⟨ch, d, hc, by simp_all, by simp_all, hs, rfl⟩
      · cases h
      · cases h
    · cases h

/-- Everything an act of the host can do to a channel (41 R133, R137): it keeps the capacity and the
ports' holds, may let go of a hold of the host, and sends or receives by the queue rules. -/
theorem hostAct_some {a : HostAct} {cs ds : List Channel} (h : hostAct a cs = some ds) :
    ds.length = cs.length ∧
    ∀ (c : Nat) (ch : Channel), cs[c]? = some ch → ∃ d, ds[c]? = some d ∧
      d.senderPort = ch.senderPort ∧ d.receiverPort = ch.receiverPort ∧ d.cap = ch.cap ∧
      (d.senderHost = true → ch.senderHost = true) ∧
      (d.receiverHost = true → ch.receiverHost = true) ∧
      (d.queue = ch.queue ∨
        (∃ v, a = .send c v ∧ ch.senderHost = true ∧ ch.receiverOpen = true ∧ ch.full = false ∧
          d.queue = ch.queue ++ [v]) ∨
        (a = .receive c ∧ ch.receiverHost = true ∧ ch.receiverPort = false ∧
          ∃ v, ch.queue = v :: d.queue)) := by
  cases a with
  | send c v =>
    obtain ⟨ch, d, hc, hh, hs, rfl⟩ := hostSend_some h
    obtain ⟨ho, hf, rfl⟩ := Channel.send_sent.1 hs
    refine ⟨by simp, fun c' ch' hc' => ?_⟩
    by_cases e : c = c'
    · subst e
      cases hc.symm.trans hc'
      have hlt := (List.getElem?_eq_some_iff.1 hc).1
      exact ⟨{ ch with queue := ch.queue ++ [v] }, by simp [hlt], rfl, rfl, rfl, id, id,
        .inr (.inl ⟨v, rfl, hh, ho, hf, rfl⟩)⟩
    · exact ⟨ch', by simp [e, hc'], rfl, rfl, rfl, id, id, .inl rfl⟩
  | receive c =>
    obtain ⟨⟨v, es⟩, hr, rfl⟩ := Option.map_eq_some_iff.1 h
    obtain ⟨ch, d, hc, hh, hp, hs, rfl⟩ := hostReceive_some hr
    obtain ⟨hq, hd⟩ := Channel.receive_received hs
    refine ⟨by simp, fun c' ch' hc' => ?_⟩
    by_cases e : c = c'
    · subst e
      cases hc.symm.trans hc'
      have hlt := (List.getElem?_eq_some_iff.1 hc).1
      refine ⟨d, by simp [hlt], ?_⟩
      rw [hd]
      exact ⟨rfl, rfl, rfl, id, id, .inr (.inr ⟨rfl, hh, hp, v, hq⟩)⟩
    · exact ⟨ch', by simp [e, hc'], rfl, rfl, rfl, id, id, .inl rfl⟩
  | releaseSender c =>
    cases h
    refine ⟨by simp, fun c' ch hc => ?_⟩
    by_cases e : c = c'
    · subst e
      exact ⟨{ ch with senderHost := false }, by simp [hc], rfl, rfl, rfl, by simp, id, .inl rfl⟩
    · exact ⟨ch, by simp [e, hc], rfl, rfl, rfl, id, id, .inl rfl⟩
  | releaseReceiver c =>
    cases h
    refine ⟨by simp, fun c' ch hc => ?_⟩
    by_cases e : c = c'
    · subst e
      exact ⟨{ ch with receiverHost := false }, by simp [hc], rfl, rfl, rfl, id, by simp, .inl rfl⟩
    · exact ⟨ch, by simp [e, hc], rfl, rfl, rfl, id, id, .inl rfl⟩

/-- Everything the presets can do (70 R241): a word they name is the last value listed for it, no other
word changes, and `N` never. -/
theorem presetWords_some {s t : State} {ws : List (Nat × Word)} (h : presetWords s ws = some t)
    (hw : s.mem.wf) :
    t = s.setMem t.mem ∧ t.mem.wf ∧ t.mem.size = s.mem.size ∧
      (∀ a, (∀ p ∈ ws, p.1 ≠ a) → t.mem.peek a = s.mem.peek a) ∧
      ∀ pre post a v, ws = pre ++ (a, v) :: post → (∀ p ∈ post, p.1 ≠ a) → t.mem.peek a = v := by
  induction ws generalizing s with
  | nil =>
    cases h
    exact ⟨rfl, hw, rfl, fun _ _ => rfl, fun pre post a v e => by simp at e⟩
  | cons p rest ih =>
    obtain ⟨a, v⟩ := p
    obtain ⟨u, hu, h⟩ := Option.bind_eq_some_iff.1 h
    have hu' : s.store a v = .ok u := by
      unfold presetWord at hu
      cases hx : s.store a v <;> simp_all [Except.toOption]
    obtain ⟨-, rfl⟩ := State.store_ok.1 hu'
    obtain ⟨h1, h2, h3, h4, h5⟩ := ih h (Memory.poke_wf hw a v)
    refine ⟨by rw [h1]; rfl, h2, by simpa using h3, fun b hb => ?_, fun pre post b x e hb => ?_⟩
    · rw [h4 b fun p hp => hb p (by simp [hp])]
      exact Memory.peek_poke_other hw (fun e => hb (a, v) (by simp) e.symm) v
    · cases pre with
      | nil =>
        cases e
        rw [h4 a hb]
        exact Memory.peek_poke_same hw a v
      | cons q pre =>
        obtain ⟨-, rfl⟩ := List.cons.inj e
        exact h5 pre post b x rfl hb

theorem Network.core_some {n : Network} {k : Nat} {s : State} (h : n.core k = some s) :
    ∃ b, n.cores[k]? = some b ∧ s = b.setChannels n.channels := by
  obtain ⟨b, hb, rfl⟩ := Option.map_eq_some_iff.1 h
  exact ⟨b, hb, rfl⟩

/-- A network's core step is that core's step (60 R222). -/
theorem Network.coreStep_some {n n' : Network} {k : Nat} (h : n.coreStep k = some n') :
    ∃ s t, n.core k = some s ∧ step s = .next t ∧ n' = n.setCore k t := by
  unfold Network.coreStep at h
  split at h
  · cases h
  · rename_i s hs
    split at h
    · rename_i t ht; cases h; exact ⟨s, t, hs, ht, rfl⟩
    · cases h
    · cases h

end Sys2Proof.Machine
end

