-- ==== Sys2Proof/Laws/Boot.lean ====
section
/-! SUPPORT. What the steps of the boot order give (70_reset_and_hazards.md R243). -/

namespace Sys2Proof.Machine

/-! ### Wiring -/

theorem ReaderPort.channelId_eq_some {r : ReaderPort} {c : Nat} :
    r.channelId = some c ↔ r = .channel c := by
  cases r <;> simp [ReaderPort.channelId]

theorem WriterPort.channelId_eq_some {w : WriterPort} {c : Nat} :
    w.channelId = some c ↔ w = .channel c := by
  cases w <;> simp [WriterPort.channelId]

theorem mem_readerIds {cores : List State} {c : Nat} :
    c ∈ readerIds cores ↔ ∃ s ∈ cores, s.reader = .channel c := by
  simp [readerIds, ReaderPort.channelId_eq_some]

theorem mem_writerIds {cores : List State} {c : Nat} :
    c ∈ writerIds cores ↔ ∃ s ∈ cores, s.writer = .channel c := by
  simp [writerIds, WriterPort.channelId_eq_some]

theorem wiringOk_iff {k : Nat} {cores : List State} : wiringOk k cores = true ↔
    (∀ c ∈ readerIds cores, c < k) ∧ (∀ c ∈ writerIds cores, c < k) ∧
      (readerIds cores).Nodup ∧ (writerIds cores).Nodup := by
  simp [wiringOk]

/-! ### Steps 1 to 4: one core -/

theorem bindReader_some {s t : State} {r : ReaderPort} (h : bindReader s r = some t) :
    t = s.setReader r := by
  unfold bindReader at h
  split at h
  · cases h; rfl
  · cases h

@[simp] theorem WriterPort.channelId_atBind (w : WriterPort) : w.atBind.channelId = w.channelId := by
  cases w <;> rfl

theorem bindWriter_some {s t : State} {w : WriterPort} (h : bindWriter s w = some t) :
    t = s.setWriter w.atBind := by
  unfold bindWriter at h
  split at h
  · cases h; rfl
  · cases h

theorem loadIntegers_some {cfg : Config} {image : List Int} {s : State}
    (h : loadIntegers cfg image = some s) :
    (∀ v ∈ image, FitsInt64 v) ∧ s = loadImage cfg (image.map wordOfInt) := by
  unfold loadIntegers at h
  split at h
  · rename_i hi
    cases h
    exact ⟨fun v hv => of_decide_eq_true (List.all_eq_true.1 hi v hv), rfl⟩
  · cases h

theorem loadImage_mem_wf (cfg : Config) (image : List Word) : (loadImage cfg image).mem.wf :=
  ⟨List.Pairwise.nil, fun c hc => by cases hc⟩

/-- Everything parse, load, preset and bind can do: from the loaded image, only `rb`, the words the
presets name and the ports change. -/
theorem bootCore_some {cfg : Config} {l : CoreLaunch} {s : State} (h : bootCore cfg l = some s) :
    (∀ v ∈ l.image, FitsInt64 v) ∧ s.mem.wf ∧
    s = ((((loadImage cfg (l.image.map wordOfInt)).setRb l.rb).setMem s.mem).setReader
      l.reader).setWriter l.writer.atBind ∧
    s.mem.size = l.image.length ∧
    (∀ a, (∀ p ∈ l.words, p.1 ≠ a) → s.mem.peek a = Memory.peek ⟨l.image.map wordOfInt, []⟩ a) ∧
    ∀ pre post a v, l.words = pre ++ (a, v) :: post → (∀ p ∈ post, p.1 ≠ a) →
      s.mem.peek a = v := by
  obtain ⟨s0, h0, h⟩ := Option.bind_eq_some_iff.1 h
  obtain ⟨s1, h1, h⟩ := Option.bind_eq_some_iff.1 h
  obtain ⟨s2, h2, h3⟩ := Option.bind_eq_some_iff.1 h
  obtain ⟨hfit, rfl⟩ := loadIntegers_some h0
  obtain ⟨e1, hwf, hsize, hpeek, hpreset⟩ := presetWords_some h1 (loadImage_mem_wf cfg _)
  have e2 := bindReader_some h2
  have e3 := bindWriter_some h3
  have hmem : s.mem = s1.mem := by rw [e3, e2]; rfl
  refine ⟨hfit, by rw [hmem]; exact hwf, ?_, ?_, by rw [hmem]; exact hpeek, by rw [hmem]; exact hpreset⟩
  · rw [hmem, e3, e2, ← e1]
  · rw [hmem, hsize]; simp [Memory.size, loadImage]

/-- A network's cores are booted one by one. -/
theorem bootCores_some {cfg : Config} {ls : List CoreLaunch} {ss : List State}
    (h : bootCores cfg ls = some ss) :
    ss.length = ls.length ∧
    (∀ (k : Nat) (l : CoreLaunch), ls[k]? = some l →
      ∃ s, ss[k]? = some s ∧ bootCore cfg l = some s) ∧
    ∀ s ∈ ss, ∃ l, bootCore cfg l = some s := by
  induction ls generalizing ss with
  | nil => cases h; simp
  | cons l rest ih =>
    obtain ⟨s, hs, h⟩ := Option.bind_eq_some_iff.1 h
    obtain ⟨r, hr, rfl⟩ := Option.map_eq_some_iff.1 h
    obtain ⟨h1, h2, h3⟩ := ih hr
    refine ⟨by simp [h1], fun k m hk => ?_, fun x hx => ?_⟩
    · cases k with
      | zero => cases hk; exact ⟨s, rfl, hs⟩
      | succ k => exact h2 k m hk
    · rcases List.mem_cons.1 hx with rfl | hx
      · exact ⟨l, hs⟩
      · exact h3 x hx

/-! ### Steps 5 and 6: the channels -/

/-- A channel made for some bound cores, whatever the host has done with it since: the ports' holds are
the bound ones, and the queue is within the capacity. -/
structure MadeFor (cap : Capacity) (cores : List State) (c : Nat) (ch : Channel) : Prop where
  cap          : ch.cap = cap
  senderPort   : ch.senderPort = decide (c ∈ writerIds cores)
  receiverPort : ch.receiverPort = decide (c ∈ readerIds cores)
  room         : ∀ n, ch.cap = .bounded n → ch.queue.length ≤ n

theorem hostAct_madeFor {cap : Capacity} {cores : List State} {a : HostAct} {cs ds : List Channel}
    (h : hostAct a cs = some ds)
    (hm : ∀ (c : Nat) (ch : Channel), cs[c]? = some ch → MadeFor cap cores c ch) :
    ds.length = cs.length ∧
      ∀ (c : Nat) (ch : Channel), ds[c]? = some ch → MadeFor cap cores c ch := by
  obtain ⟨hlen, hch⟩ := hostAct_some h
  refine ⟨hlen, fun c d hd => ?_⟩
  have hlt : c < cs.length := by rw [← hlen]; exact (List.getElem?_eq_some_iff.1 hd).1
  have hc := List.getElem?_eq_getElem hlt
  obtain ⟨d', hd', h1, h2, h3, -, -, hq⟩ := hch c _ hc
  cases hd.symm.trans hd'
  have m := hm c _ hc
  refine ⟨h3.trans m.cap, h1.trans m.senderPort, h2.trans m.receiverPort, fun n hn => ?_⟩
  have hcap := h3 ▸ hn
  have hroom := m.room n hcap
  rcases hq with e | ⟨v, -, -, -, hf, e⟩ | ⟨-, -, -, v, e⟩
  · rw [e]; exact hroom
  · rw [e]; simp [Channel.full, hcap] at hf ⊢; omega
  · rw [e] at hroom; simp at hroom; omega

theorem hostActs_madeFor {cap : Capacity} {cores : List State} {acts : List HostAct}
    {cs ds : List Channel} (h : hostActs cs acts = some ds)
    (hm : ∀ (c : Nat) (ch : Channel), cs[c]? = some ch → MadeFor cap cores c ch) :
    ds.length = cs.length ∧
      ∀ (c : Nat) (ch : Channel), ds[c]? = some ch → MadeFor cap cores c ch := by
  induction acts generalizing cs with
  | nil => cases h; exact ⟨rfl, hm⟩
  | cons a rest ih =>
    obtain ⟨es, he, h⟩ := Option.bind_eq_some_iff.1 h
    obtain ⟨h1, h2⟩ := hostAct_madeFor he hm
    obtain ⟨h3, h4⟩ := ih h h2
    exact ⟨h3.trans h1, h4⟩

/-- What acts of the host that do not receive from channel `c` do to its queue: the values sent on it
are appended, in order (41 R137, 70 R244). -/
theorem hostActs_queue {acts : List HostAct} {cs ds : List Channel} {c : Nat} {ch d : Channel}
    (h : hostActs cs acts = some ds) (hn : ∀ a ∈ acts, a ≠ .receive c) (hc : cs[c]? = some ch)
    (hd : ds[c]? = some d) : d.queue = ch.queue ++ acts.filterMap (HostAct.sentOn c) := by
  induction acts generalizing cs ch with
  | nil => cases h; cases hc.symm.trans hd; simp
  | cons a rest ih =>
    obtain ⟨es, he, h⟩ := Option.bind_eq_some_iff.1 h
    obtain ⟨e, hec, -, -, -, -, -, hq⟩ := (hostAct_some he).2 c ch hc
    rw [ih h (fun b hb => hn b (by simp [hb])) hec]
    rcases hq with hq | ⟨v, rfl, -, -, -, hq⟩ | ⟨hr, -⟩
    · have hs : HostAct.sentOn c a = none := by
        cases a with
        | send b v =>
          by_cases e' : b = c
          · subst e'
            obtain ⟨ch', d', h1, -, h3, rfl⟩ := hostSend_some he
            cases hc.symm.trans h1
            obtain ⟨-, -, rfl⟩ := Channel.send_sent.1 h3
            have hlt := (List.getElem?_eq_some_iff.1 hc).1
            simp [hlt] at hec
            subst hec
            simp at hq
          · simp [HostAct.sentOn, e']
        | receive _ => rfl
        | releaseSender _ => rfl
        | releaseReceiver _ => rfl
      rw [hq, List.filterMap_cons, hs]
    · simp [hq, HostAct.sentOn]
    · exact absurd hr (hn a (by simp))

/-- Everything creating, pre-seeding and starting can do (70 R243 steps 5 and 6). -/
theorem bootChannels_some {cap : Capacity} {k : Nat} {cores : List State} {acts : List HostAct}
    {cs : List Channel} (h : bootChannels cap k cores acts = some cs) :
    wiringOk k cores = true ∧ cs.length = k ∧
    ∀ (c : Nat) (ch : Channel), cs[c]? = some ch →
      MadeFor cap cores c ch ∧ (ch.senderPort = true → ch.senderHost = false) ∧
      ((∀ a ∈ acts, a ≠ .receive c) → ch.queue = acts.filterMap (HostAct.sentOn c)) := by
  unfold bootChannels at h
  split at h
  · rename_i hw
    obtain ⟨ds, hd, rfl⟩ := Option.map_eq_some_iff.1 h
    obtain ⟨hlen, hm⟩ := hostActs_madeFor (cap := cap) (cores := cores) hd fun c ch hc => by
      obtain ⟨hlt, rfl⟩ := List.getElem?_eq_some_iff.1 hc
      simp only [createChannels, List.getElem_map, List.getElem_range]
      exact ⟨rfl, rfl, rfl, fun _ _ => Nat.zero_le _⟩
    refine ⟨hw, by rw [List.length_map, hlen]; simp [createChannels], fun c ch hc => ?_⟩
    rw [List.getElem?_map] at hc
    obtain ⟨d, hd', rfl⟩ := Option.map_eq_some_iff.1 hc
    have m := hm c d hd'
    refine ⟨⟨m.cap, m.senderPort, m.receiverPort, m.room⟩, fun hs => by
      simp only [Channel.start] at hs ⊢; simp [hs], fun hn => ?_⟩
    have hlt : c < (createChannels cap k cores).length := by
      rw [← hlen]; exact (List.getElem?_eq_some_iff.1 hd').1
    have hq := hostActs_queue hd hn (List.getElem?_eq_getElem hlt) hd'
    simpa [createChannels, Channel.start] using hq
  · cases h

/-! ### Boots that succeed -/

/-- Presets at addresses that exist are made. -/
theorem presetWords_possible {s : State} {ws : List (Nat × Word)}
    (h : ∀ p ∈ ws, s.mem.accessible s.cfg p.1 = true) : ∃ t, presetWords s ws = some t := by
  induction ws generalizing s with
  | nil => exact ⟨s, rfl⟩
  | cons p rest ih =>
    obtain ⟨a, v⟩ := p
    have hs : presetWord s a v = some (s.setMem (s.mem.poke a v)) := by
      rw [presetWord, State.store_ok.2 ⟨h (a, v) (by simp), rfl⟩]; rfl
    obtain ⟨t, ht⟩ := ih (s := s.setMem (s.mem.poke a v)) fun p hp => by
      rw [State.setMem_mem, State.setMem_cfg, Memory.accessible_of_size (m := s.mem) (by simp)]
      exact h p (by simp [hp])
    exact ⟨t, by rw [presetWords, hs]; exact ht⟩

/-- A core whose launch keeps its duties passes steps 1 to 4. -/
theorem bootCore_possible {cfg : Config} {channels : Nat} {l : CoreLaunch}
    (h : l.duties cfg channels) : ∃ s, bootCore cfg l = some s := by
  obtain ⟨hfit, hpre, -, -⟩ := h
  have h0 : loadIntegers cfg l.image = some (loadImage cfg (l.image.map wordOfInt)) := by
    have hi : imageWellFormed l.image = true :=
      List.all_eq_true.2 fun v hv => decide_eq_true (hfit v hv)
    rw [loadIntegers, if_pos hi]
  obtain ⟨s1, h1⟩ := presetWords_possible
    (s := (loadImage cfg (l.image.map wordOfInt)).setRb l.rb) (ws := l.words) fun p hp => by
      simpa [Memory.accessible, Memory.size, loadImage] using hpre p hp
  have e1 := (presetWords_some h1 (loadImage_mem_wf cfg _)).1
  have h2 : bindReader s1 l.reader = some (s1.setReader l.reader) := by
    rw [bindReader, if_pos (by rw [e1]; rfl)]
  have h3 : bindWriter (s1.setReader l.reader) l.writer =
      some ((s1.setReader l.reader).setWriter l.writer.atBind) := by
    rw [bindWriter, if_pos (by rw [e1]; rfl)]
  exact ⟨_, by simp only [bootCore, h0, h1, h2, h3, Option.bind_some]; rfl⟩

theorem hostActs_append {cs ds : List Channel} {as bs : List HostAct} (h : hostActs cs as = some ds) :
    hostActs cs (as ++ bs) = hostActs ds bs := by
  induction as generalizing cs with
  | nil => cases h; rfl
  | cons a rest ih =>
    obtain ⟨es, he, h⟩ := Option.bind_eq_some_iff.1 h
    rw [List.cons_append, hostActs, he]
    exact ih h

/-- The host's send goes through when it holds the side, the other side is open and there is room. -/
theorem hostSend_possible {cs : List Channel} {c : Nat} {ch : Channel} (v : Word)
    (hc : cs[c]? = some ch) (hh : ch.senderHost = true) (ho : ch.receiverOpen = true)
    (hf : ch.full = false) :
    hostSend cs c v = some (cs.set c { ch with queue := ch.queue ++ [v] }) := by
  simp only [hostSend, hc, hh, if_true, Channel.send_sent.2 ⟨ho, hf, rfl⟩]

/-- Sends on channels the host holds, within their capacity, all go through. -/
theorem hostActs_sends {cs : List Channel} {sends : List HostAct}
    (hs : ∀ a ∈ sends, ∃ c v, a = .send c v ∧ c < cs.length)
    (hc : ∀ (c : Nat) (ch : Channel), cs[c]? = some ch → ch.senderHost = true ∧
      ch.receiverHost = true ∧
      ∀ n, ch.cap = .bounded n →
        ch.queue.length + (sends.filterMap (HostAct.sentOn c)).length ≤ n) :
    ∃ ds, hostActs cs sends = some ds := by
  induction sends generalizing cs with
  | nil => exact ⟨cs, rfl⟩
  | cons a rest ih =>
    obtain ⟨c, v, rfl, hlt⟩ := hs _ List.mem_cons_self
    have hg := List.getElem?_eq_getElem hlt
    obtain ⟨hh, hr, hcap⟩ := hc c _ hg
    have hf : cs[c].full = false := Bool.eq_false_iff.2 fun h => by
      obtain ⟨n, hn, hle⟩ := Channel.full_iff.1 h
      have := hcap n hn
      simp [HostAct.sentOn] at this
      omega
    have he := hostSend_possible v hg hh (by simp [Channel.receiverOpen, hr]) hf
    obtain ⟨ds, hd⟩ := ih (cs := cs.set c { cs[c] with queue := cs[c].queue ++ [v] })
      (fun b hb => by
        obtain ⟨x, y, e, hx⟩ := hs b (by simp [hb])
        exact ⟨x, y, e, by simpa using hx⟩)
      (fun b ch hb => by
        by_cases e : c = b
        · subst e
          simp [hlt] at hb
          subst hb
          refine ⟨hh, hr, fun n hn => ?_⟩
          have := hcap n hn
          simp [HostAct.sentOn] at this ⊢
          omega
        · rw [List.getElem?_set_ne e] at hb
          obtain ⟨h1, h2, h3⟩ := hc b ch hb
          refine ⟨h1, h2, fun n hn => ?_⟩
          simpa [HostAct.sentOn, e] using h3 n hn)
    exact ⟨ds, by rw [hostActs, hostAct, he]; exact hd⟩

/-- Letting go of sides is always possible. -/
theorem hostActs_releases {cs : List Channel} {releases : List HostAct}
    (h : ∀ a ∈ releases, ∃ c, a = .releaseSender c ∨ a = .releaseReceiver c) :
    ∃ ds, hostActs cs releases = some ds := by
  induction releases generalizing cs with
  | nil => exact ⟨cs, rfl⟩
  | cons a rest ih =>
    obtain ⟨c, rfl | rfl⟩ := h a List.mem_cons_self <;>
      exact ih fun b hb => h b (by simp [hb])

/-- Cores that are wired, and a host that pre-seeds within the capacity, pass steps 5 and 6. -/
theorem bootChannels_possible {cfg : Config} {k : Nat} {cores : List State} {acts : List HostAct}
    (hw : wiringOk k cores = true) (hp : PreSeeds cfg k acts) :
    ∃ cs, bootChannels cfg.channelCapacity k cores acts = some cs := by
  obtain ⟨sends, releases, rfl, hs, hcap, hr⟩ := hp
  obtain ⟨ds, hd⟩ := hostActs_sends (cs := createChannels cfg.channelCapacity k cores)
    (sends := sends) (fun a ha => by simpa [createChannels] using hs a ha) (fun c ch hc => by
      obtain ⟨hlt, rfl⟩ := List.getElem?_eq_some_iff.1 hc
      simp only [createChannels, List.getElem_map, List.getElem_range]
      exact ⟨trivial, trivial, fun n hn => by simpa using hcap c n hn⟩)
  obtain ⟨es, he⟩ := hostActs_releases (cs := ds) hr
  exact ⟨es.map Channel.start, by
    rw [bootChannels, if_pos hw, hostActs_append hd, he]; rfl⟩

end Sys2Proof.Machine
end

