-- ==== Sys2Proof/Laws/PerInstr.lean ====
section
/-! SUPPORT. Per instruction: its canonical word is a non-negative word whose mode digits are all at
most 2 and whose opcode is the table's (30_encoding.md R73, R84). -/

namespace Sys2Proof.Laws.Encoding

/-- The opcode number of an instruction (30 R73), 0 for Skip. -/
def opcode : Instr → Nat
  | .add _ _ _            => 1
  | .mul _ _ _            => 2
  | .read _               => 3
  | .write _              => 4
  | .jumpIfTrue _ _       => 5
  | .jumpIfFalse _ _      => 6
  | .lessThan _ _ _       => 7
  | .equals _ _ _         => 8
  | .adjustRelativeBase _ => 9
  | .halt                 => 99
  | .skip                 => 0

def Statement (i : Instr) : Prop :=
  0 ≤ (encode i).toInt ∧ (encode i).toNat % 100 = opcode i ∧
    ∀ d ∈ modeDigits (encode i).toNat, d ≤ 2

theorem canonical (op : Fin 100) (m1 m2 m3 : Mode) :
    0 ≤ (canonicalWord op m1 m2 m3).toInt ∧ (canonicalWord op m1 m2 m3).toNat % 100 = op ∧
      ∀ d ∈ modeDigits (canonicalWord op m1 m2 m3).toNat, d ≤ 2 := by
  have hop := op.isLt
  have hd : ∀ m : Mode, digitOfMode m ≤ 2 := by intro m; cases m <;> decide
  have h1 := hd m1
  have h2 := hd m2
  have h3 := hd m3
  have hn : (canonicalWord op m1 m2 m3).toNat =
      op + 100 * digitOfMode m1 + 1000 * digitOfMode m2 + 10000 * digitOfMode m3 := by
    rw [canonicalWord, BitVec.toNat_ofNat, Nat.mod_eq_of_lt (by omega)]
  refine ⟨?_, ?_, ?_⟩
  · rw [BitVec.toInt_eq_toNat_cond, hn, if_pos (by omega)]
    omega
  · rw [hn]; omega
  · rw [hn]
    simp only [modeDigits, digit, List.mem_cons, List.not_mem_nil, or_false]
    rintro d (rfl | rfl | rfl) <;> omega

theorem add (m1 m2 m3 : Mode) : Statement (.add m1 m2 m3) := canonical 1 m1 m2 m3
theorem mul (m1 m2 m3 : Mode) : Statement (.mul m1 m2 m3) := canonical 2 m1 m2 m3
theorem read (m1 : Mode) : Statement (.read m1) := canonical 3 m1 _ _
theorem write (m1 : Mode) : Statement (.write m1) := canonical 4 m1 _ _
theorem jumpIfTrue (m1 m2 : Mode) : Statement (.jumpIfTrue m1 m2) := canonical 5 m1 m2 _
theorem jumpIfFalse (m1 m2 : Mode) : Statement (.jumpIfFalse m1 m2) := canonical 6 m1 m2 _
theorem lessThan (m1 m2 m3 : Mode) : Statement (.lessThan m1 m2 m3) := canonical 7 m1 m2 m3
theorem equals (m1 m2 m3 : Mode) : Statement (.equals m1 m2 m3) := canonical 8 m1 m2 m3
theorem adjustRelativeBase (m1 : Mode) : Statement (.adjustRelativeBase m1) := canonical 9 m1 _ _
theorem halt : Statement .halt := canonical 99 _ _ _
theorem skip : Statement .skip := canonical 0 _ _ _

end Sys2Proof.Laws.Encoding
end

