-- ==== Sys2Proof/Laws/Decode.lean ====
section
/-! SUPPORT. What the decoder can answer, and how the rows of the opcode table meet the encoder. -/

namespace Sys2Proof

/-! ### The opcode table -/

/-- The mode of a digit of at most 2 is the mode of that digit (30 R72). -/
theorem digitOfMode_modeOfDigit {d : Nat} (h : d ≤ 2) : digitOfMode (modeOfDigit d) = d := by
  match d, h with
  | 0, _ => rfl
  | 1, _ => rfl
  | 2, _ => rfl

theorem Instr.arity_le (i : Instr) : i.arity ≤ 3 := by cases i <;> simp [Instr.arity]

/-- The opcodes that no row names (30 R76). -/
theorem opcodeRow_none {op : Nat} (h : op = 0 ∨ (10 ≤ op ∧ op ≤ 98)) : opcodeRow op = none := by
  unfold opcodeRow
  split <;> first | rfl | omega

/-- A row builds an instruction of its arity, which is not Skip and whose canonical word carries the
row's opcode and the modes the row uses. -/
theorem opcodeRow_encode {op a : Nat} {b : Mode → Mode → Mode → Instr}
    (h : opcodeRow op = some (a, b)) (m1 m2 m3 : Mode) :
    (b m1 m2 m3).arity = a ∧ b m1 m2 m3 ≠ .skip ∧ a ≤ 3 ∧ op < 100 ∧
      ∃ x y z, encode (b m1 m2 m3) = canonicalWord op x y z ∧
        (1 ≤ a → x = m1) ∧ (2 ≤ a → y = m2) ∧ (3 ≤ a → z = m3) := by
  unfold opcodeRow at h
  split at h <;> simp at h <;> obtain ⟨rfl, rfl⟩ := h <;> simp [Instr.arity, encode]

/-- A row looks only at the modes of its operands. -/
theorem opcodeRow_congr {op a : Nat} {b : Mode → Mode → Mode → Instr}
    (h : opcodeRow op = some (a, b)) {m1 m2 m3 n1 n2 n3 : Mode} (h1 : 1 ≤ a → m1 = n1)
    (h2 : 2 ≤ a → m2 = n2) (h3 : 3 ≤ a → m3 = n3) : b m1 m2 m3 = b n1 n2 n3 := by
  unfold opcodeRow at h
  split at h <;> simp at h <;> obtain ⟨rfl, rfl⟩ := h <;> simp_all

/-- The canonical word's value and its digits (30 R84). -/
theorem canonicalWord_digits {op : Nat} (h : op < 100) (m1 m2 m3 : Mode) :
    (canonicalWord op m1 m2 m3).toNat % 100 = op ∧
    digit (canonicalWord op m1 m2 m3).toNat 2 = digitOfMode m1 ∧
    digit (canonicalWord op m1 m2 m3).toNat 3 = digitOfMode m2 ∧
    digit (canonicalWord op m1 m2 m3).toNat 4 = digitOfMode m3 := by
  have hd : ∀ m : Mode, digitOfMode m ≤ 2 := by intro m; cases m <;> decide
  have h1 := hd m1
  have h2 := hd m2
  have h3 := hd m3
  have hn : (canonicalWord op m1 m2 m3).toNat =
      op + 100 * digitOfMode m1 + 1000 * digitOfMode m2 + 10000 * digitOfMode m3 := by
    rw [canonicalWord, BitVec.toNat_ofNat, Nat.mod_eq_of_lt (by omega)]
  rw [hn]
  simp only [digit]
  omega

/-- The opcode digits of a canonical word are those of `Laws.Encoding.opcode`. -/
theorem encode_opcode (i : Instr) : (encode i).toNat % 100 = Laws.Encoding.opcode i := by
  cases i with
  | add m1 m2 m3 => exact (Laws.Encoding.add m1 m2 m3).2.1
  | mul m1 m2 m3 => exact (Laws.Encoding.mul m1 m2 m3).2.1
  | read m1 => exact (Laws.Encoding.read m1).2.1
  | write m1 => exact (Laws.Encoding.write m1).2.1
  | jumpIfTrue m1 m2 => exact (Laws.Encoding.jumpIfTrue m1 m2).2.1
  | jumpIfFalse m1 m2 => exact (Laws.Encoding.jumpIfFalse m1 m2).2.1
  | lessThan m1 m2 m3 => exact (Laws.Encoding.lessThan m1 m2 m3).2.1
  | equals m1 m2 m3 => exact (Laws.Encoding.equals m1 m2 m3).2.1
  | adjustRelativeBase m1 => exact (Laws.Encoding.adjustRelativeBase m1).2.1
  | halt => exact Laws.Encoding.halt.2.1
  | skip => exact Laws.Encoding.skip.2.1

/-- The row of an instruction's own opcode has its arity. -/
theorem opcodeRow_of_encode {n : Nat} {i : Instr} (hi : i ≠ .skip)
    (h : n % 100 = (encode i).toNat % 100) : ∃ b, opcodeRow (n % 100) = some (i.arity, b) := by
  rw [h, encode_opcode]
  cases i <;> first | exact absurd rfl hi | exact ⟨_, rfl⟩

/-! ### Checked digits -/

/-- Which digits are checked (30 R77). -/
theorem mem_checkedDigits {scope : BadDigitScope} {a n d : Nat} (ha : a ≤ 3) :
    d ∈ checkedDigits scope a n ↔
      ∃ k, k < (if scope = .used then a else 3) ∧ d = digit n (k + 2) := by
  have h3 : ∀ x : Nat, d ∈ (modeDigits n).take x ↔ ∃ k, k < x ∧ k < 3 ∧ d = digit n (k + 2) := by
    intro x
    rw [List.mem_take_iff_getElem]
    constructor
    · rintro ⟨k, hk, rfl⟩
      have hk' : k < x ∧ k < 3 := by simpa [modeDigits] using hk
      refine ⟨k, hk'.1, hk'.2, ?_⟩
      have : k = 0 ∨ k = 1 ∨ k = 2 := by omega
      rcases this with rfl | rfl | rfl <;> rfl
    · rintro ⟨k, hk, hk3, rfl⟩
      refine ⟨k, by simpa [modeDigits] using ⟨hk, hk3⟩, ?_⟩
      have : k = 0 ∨ k = 1 ∨ k = 2 := by omega
      rcases this with rfl | rfl | rfl <;> rfl
  cases scope with
  | used =>
    show d ∈ (modeDigits n).take a ↔ _
    rw [h3]
    simp only [if_true]
    exact ⟨fun ⟨k, h1, _, h2⟩ => ⟨k, h1, h2⟩, fun ⟨k, h1, h2⟩ => ⟨k, h1, by omega, h2⟩⟩
  | all =>
    show d ∈ (modeDigits n).take 3 ↔ _
    rw [h3]
    exact ⟨fun ⟨k, h1, _, h2⟩ => ⟨k, by simpa using h1, h2⟩,
      fun ⟨k, h1, h2⟩ => ⟨k, by simpa using h1, by simpa using h1, h2⟩⟩

/-! ### What the decoder answers -/

/-- Everything behind a decoded instruction other than Skip (30 R78). -/
theorem decode_instr {cfg : Config} {w : Word} {i : Instr} (h : decode cfg w = .instr i)
    (hi : i ≠ .skip) :
    0 ≤ w.toInt ∧ ∃ a b, opcodeRow (w.toNat % 100) = some (a, b) ∧
      (∀ d ∈ checkedDigits cfg.badDigitScope a w.toNat, d ≤ 2) ∧
      i = b (modeOfDigit (digit w.toNat 2)) (modeOfDigit (digit w.toNat 3))
        (modeOfDigit (digit w.toNat 4)) := by
  unfold decode at h
  split at h
  · cases h; exact absurd rfl hi
  · rename_i h0
    refine ⟨by omega, ?_⟩
    dsimp only at h
    split at h
    · cases h; exact absurd rfl hi
    · rename_i a b hr
      refine ⟨a, b, hr, ?_⟩
      split at h
      · split at h
        · cases h; exact absurd rfl hi
        · cases h
      · rename_i hd
        cases h
        exact ⟨by simpa using hd, rfl⟩

/-- A word of a known opcode: its checked digits decide (30 R77, R78). -/
theorem decode_of_row {cfg : Config} {w : Word} (h0 : 0 ≤ w.toInt) {a : Nat}
    {b : Mode → Mode → Mode → Instr} (hr : opcodeRow (w.toNat % 100) = some (a, b)) :
    ((∀ d ∈ checkedDigits cfg.badDigitScope a w.toNat, d ≤ 2) → decode cfg w =
      .instr (b (modeOfDigit (digit w.toNat 2)) (modeOfDigit (digit w.toNat 3))
        (modeOfDigit (digit w.toNat 4)))) ∧
    ((∃ d ∈ checkedDigits cfg.badDigitScope a w.toNat, 2 < d) → decode cfg w =
      if cfg.badDigitAction = .skip then .instr .skip else .invalid w) := by
  constructor
  · intro h
    unfold decode
    rw [if_neg (by omega)]
    simp only [hr]
    rw [if_neg]
    simpa using h
  · intro h
    unfold decode
    rw [if_neg (by omega)]
    simp only [hr]
    rw [if_pos (by simpa using h)]
    cases cfg.badDigitAction <;> simp

end Sys2Proof
end

