-- ==== Sys2Proof/Laws/Meanings.lean ====
section
/-! SUPPORT. Everything each shape of instruction can do when it answers a next state, and everything a
step can do. Invariants and frames are derived from these, not from the meanings' text. -/

namespace Sys2Proof.Machine

/-! ### Jumps -/

theorem jumpTo_ok {s t : State} {w : Word} :
    jumpTo s w = .ok t ↔ 0 ≤ w.toInt ∧ t = s.setPc w.toInt.toNat := by
  unfold jumpTo
  split
  · simp; omega
  · simp [eq_comm]; omega

theorem jumpTo_error {s : State} {w : Word} {e : ErrorValue} :
    jumpTo s w = .error e ↔ w.toInt < 0 ∧ e = .negativeJumpTarget w := by
  unfold jumpTo
  split <;> simp [*, eq_comm]

/-- Everything a conditional jump can do (42 R140, R141). -/
theorem jumpWhen_next {taken : Word → Bool} {m1 m2 : Mode} {s t : State}
    (h : jumpWhen taken m1 m2 s = .next t) :
    (∃ c w, operand s 1 m1 = .ok c ∧ operand s 2 m2 = .ok w ∧
      ((taken c = true ∧ 0 ≤ w.toInt ∧ t = s.setPc w.toInt.toNat) ∨
       (taken c = false ∧ t = s.advance 3))) ∨
    (∃ e, t = s.raise e ∧ (AddressError s.cfg s.mem e ∨
      ∃ c w, operand s 1 m1 = .ok c ∧ operand s 2 m2 = .ok w ∧ taken c = true ∧ w.toInt < 0 ∧
        e = .negativeJumpTarget w)) := by
  rcases settle_next_iff.1 h with hk | ⟨e, he, rfl⟩
  · obtain ⟨c, hc, hk⟩ := bind_ok_iff.1 hk
    obtain ⟨w, hw, hk⟩ := bind_ok_iff.1 hk
    refine .inl ⟨c, w, hc, hw, ?_⟩
    split at hk
    · rename_i ht
      obtain ⟨h0, rfl⟩ := jumpTo_ok.1 hk
      exact .inl ⟨ht, h0, rfl⟩
    · rename_i ht
      cases hk
      exact .inr ⟨by simpa using ht, rfl⟩
  · refine .inr ⟨e, rfl, ?_⟩
    rcases bind_error_iff.1 he with h1 | ⟨c, hc, he⟩
    · exact .inl (operand_error h1)
    rcases bind_error_iff.1 he with h1 | ⟨w, hw, he⟩
    · exact .inl (operand_error h1)
    split at he
    · rename_i ht
      obtain ⟨h0, rfl⟩ := jumpTo_error.1 he
      exact .inr ⟨c, w, hc, hw, ht, h0, rfl⟩
    · cases he

/-! ### AdjustRelativeBase -/

/-- Everything AdjustRelativeBase can do (44 R180). -/
theorem execAdjustRelativeBase_next {m1 : Mode} {s t : State}
    (h : execAdjustRelativeBase m1 s = .next t) :
    (∃ v, operand s 1 m1 = .ok v ∧
      chk64 s.cfg .adjustRelativeBase (s.rb.toInt + v.toInt) =
        .ok (wordOfInt (s.rb.toInt + v.toInt)) ∧
      t = (s.setRb (wordOfInt (s.rb.toInt + v.toInt))).advance 2) ∨
    (∃ e, t = s.raise e ∧ (AddressError s.cfg s.mem e ∨
      (s.cfg.arithOverflow = .fault ∧ e = .arithmeticOverflow .adjustRelativeBase))) := by
  rcases settle_next_iff.1 h with hk | ⟨e, he, rfl⟩
  · obtain ⟨v, hv, hk⟩ := bind_ok_iff.1 hk
    obtain ⟨b, hb, hk⟩ := bind_ok_iff.1 hk
    have := chk64_ok hb
    subst this
    cases hk
    exact .inl ⟨v, hv, hb, rfl⟩
  · refine .inr ⟨e, rfl, ?_⟩
    rcases bind_error_iff.1 he with h1 | ⟨v, hv, he⟩
    · exact .inl (operand_error h1)
    rcases bind_error_iff.1 he with h1 | ⟨b, hb, he⟩
    · obtain ⟨-, hc, rfl⟩ := chk64_error h1
      exact .inr ⟨hc, rfl⟩
    · cases he

/-! ### Read and Write -/

/-- Everything Read can do (41 R120): store the value taken, lose it to an error of the destination,
take an error of the Reader, or wait. -/
theorem execRead_next {m1 : Mode} {s t : State} (h : execRead m1 s = .next t) :
    (∃ v u, readerRead s = .done v u ∧
      ((∃ d, dest u 1 m1 = .ok d ∧ u.mem.accessible u.cfg d = true ∧
          t = (u.setMem (u.mem.poke d v)).advance 2) ∨
       (∃ e, AddressError u.cfg u.mem e ∧ t = u.raise e))) ∨
    (∃ e, readerRead s = .error e ∧ t = s.raise e) ∨
    (s.readerBlocked = true ∧ t = s) := by
  rw [← readerRead_eq_wait]
  rcases afterPort_next h with ⟨v, u, hr, hk⟩ | h | h
  · refine .inl ⟨v, u, hr, ?_⟩
    rcases settle_next_iff.1 hk with hk | ⟨e, he, rfl⟩
    · obtain ⟨d, hd, hk⟩ := bind_ok_iff.1 hk
      obtain ⟨x, hx, hk⟩ := bind_ok_iff.1 hk
      obtain ⟨hacc, rfl⟩ := State.store_ok.1 hx
      cases hk
      exact .inl ⟨d, hd, hacc, rfl⟩
    · refine .inr ⟨e, ?_, rfl⟩
      rcases bind_error_iff.1 he with h1 | ⟨d, hd, he⟩
      · exact dest_error h1
      rcases bind_error_iff.1 he with h1 | ⟨x, hx, he⟩
      · exact store_error h1
      · cases he
  · exact .inr (.inl h)
  · exact .inr (.inr h)

/-- A Read that takes a value and whose destination exists completes. -/
theorem execRead_done {m1 : Mode} {s u : State} {v : Word} {d : Nat}
    (hr : readerRead s = .done v u) (hd : dest s 1 m1 = .ok d)
    (hacc : s.mem.accessible s.cfg d = true) :
    execRead m1 s = .next ((u.setMem (u.mem.poke d v)).advance 2) := by
  obtain ⟨hm, hp, hrb, -, -, hc⟩ := readerRead_frame hr
  rw [← dest_congr hm hp hrb hc] at hd
  rw [execRead, hr]
  simp only [afterPort, hd, ok_bind,
    State.store_ok.2 ⟨show u.mem.accessible u.cfg d = true by rw [hm, hc]; exact hacc, rfl⟩]
  rfl

/-- A Read that takes a value and whose destination does not resolve loses the value. -/
theorem execRead_lost {m1 : Mode} {s u : State} {v : Word} {e : ErrorValue}
    (hr : readerRead s = .done v u) (hd : dest s 1 m1 = .error e) :
    execRead m1 s = .next (u.raise e) := by
  obtain ⟨hm, hp, hrb, -, -, hc⟩ := readerRead_frame hr
  rw [← dest_congr hm hp hrb hc] at hd
  rw [execRead, hr]
  simp only [afterPort, hd, error_bind, settle_error]

/-- A Read that takes a value and whose destination does not exist loses the value. -/
theorem execRead_lost_at {m1 : Mode} {s u : State} {v : Word} {d : Nat}
    (hr : readerRead s = .done v u) (hd : dest s 1 m1 = .ok d)
    (hacc : s.mem.accessible s.cfg d = false) :
    execRead m1 s = .next (u.raise (.indexNotFound d)) := by
  obtain ⟨hm, hp, hrb, -, -, hc⟩ := readerRead_frame hr
  rw [← dest_congr hm hp hrb hc] at hd
  rw [execRead, hr]
  simp only [afterPort, hd, ok_bind,
    State.store_error.2 ⟨show u.mem.accessible u.cfg d = false by rw [hm, hc]; exact hacc, rfl⟩,
    error_bind, settle_error]

/-- Everything Write can do (41 R121): wait at a blocked Writer, give the operand to the Writer, or take
an error of the operand or of the Writer. -/
theorem execWrite_next {m1 : Mode} {s t : State} (h : execWrite m1 s = .next t) :
    (∃ v u, operand s 1 m1 = .ok v ∧ writerWrite s v = .done () u ∧ t = u.advance 2) ∨
    (∃ e, t = s.raise e ∧ (AddressError s.cfg s.mem e ∨
      ∃ v, operand s 1 m1 = .ok v ∧ writerWrite s v = .error e)) ∨
    (s.writerBlocked = true ∧ t = s) := by
  unfold execWrite at h
  split at h
  · rename_i hb
    cases h
    exact .inr (.inr ⟨hb, rfl⟩)
  · rename_i hb
    split at h
    · rename_i e he
      cases h
      exact .inr (.inl ⟨e, rfl, .inl (operand_error he)⟩)
    · rename_i v hv
      rcases afterPort_next h with ⟨x, u, hw, hk⟩ | ⟨e, he, rfl⟩ | ⟨hw, -⟩
      · cases hk
        exact .inl ⟨v, u, hv, hw, rfl⟩
      · exact .inr (.inl ⟨e, rfl, .inr ⟨v, hv, he⟩⟩)
      · exact absurd (writerWrite_eq_wait.1 hw) hb

/-- A Write at a blocked Writer waits. -/
theorem execWrite_blocked {m1 : Mode} {s : State} (hb : s.writerBlocked = true) :
    execWrite m1 s = .next s := by
  rw [execWrite, if_pos hb]

/-- A Write that does not wait takes the error of its operand. -/
theorem execWrite_operand_error {m1 : Mode} {s : State} {e : ErrorValue}
    (hb : s.writerBlocked = false) (he : operand s 1 m1 = .error e) :
    execWrite m1 s = .next (s.raise e) := by
  rw [execWrite, hb, he]
  rfl

/-- A Write that does not wait and whose operand can be read does what the Writer answers. -/
theorem execWrite_port {m1 : Mode} {s : State} {v : Word} (hb : s.writerBlocked = false)
    (hv : operand s 1 m1 = .ok v) :
    execWrite m1 s = afterPort s (writerWrite s v) fun _ t => .next (t.advance 2) := by
  rw [execWrite, hb, hv]
  rfl

/-- A Writer that answers at all is not blocked. -/
theorem writerBlocked_of_write {s : State} {v : Word} (h : writerWrite s v ≠ .wait) :
    s.writerBlocked = false := Bool.eq_false_iff.2 fun hb => h (writerWrite_eq_wait.2 hb)

/-- A Write whose operand can be read and whose Writer takes it completes. -/
theorem execWrite_done {m1 : Mode} {s u : State} {v : Word} (hv : operand s 1 m1 = .ok v)
    (hw : writerWrite s v = .done () u) : execWrite m1 s = .next (u.advance 2) := by
  rw [execWrite_port (writerBlocked_of_write (by rw [hw]; simp)) hv, hw]
  rfl

/-! ### A step -/

theorem fetchDecode_ok {s : State} {i : Instr} :
    s.fetchDecode = .ok i ↔ ∃ w, s.load s.pc = .ok w ∧ decode s.cfg w = .instr i := by
  unfold State.fetchDecode
  split
  · simp_all
  · rename_i w hw
    split <;> simp_all

theorem fetchDecode_error {s : State} {e : ErrorValue} :
    s.fetchDecode = .error e ↔ s.load s.pc = .error e ∨
      ∃ w v, s.load s.pc = .ok w ∧ decode s.cfg w = .invalid v ∧ e = .invalidModeDigit v := by
  unfold State.fetchDecode
  cases s.load s.pc with
  | error d => simp [eq_comm]
  | ok w => cases hd : decode s.cfg w <;> simp [hd, eq_comm]

/-- When a core is waiting (10 R27): the word at `pc` is a Read or a Write whose port is blocked. -/
theorem State.waiting_iff {s : State} : s.waiting = true ↔ s.status = .running ∧
    ((∃ m1, s.fetchDecode = .ok (.read m1) ∧ s.readerBlocked = true) ∨
     (∃ m1, s.fetchDecode = .ok (.write m1) ∧ s.writerBlocked = true)) := by
  unfold State.waiting
  rw [Bool.and_eq_true, State.isRunning_iff]
  refine and_congr_right fun _ => ⟨fun h => ?_, ?_⟩
  · split at h
    · rename_i m hf; exact .inl ⟨m, hf, h⟩
    · rename_i m hf; exact .inr ⟨m, hf, h⟩
    · cases h
  · rintro (⟨m, hf, h⟩ | ⟨m, hf, h⟩) <;> rw [hf] <;> exact h

theorem decode_invalid {cfg : Config} {w v : Word} (h : decode cfg w = .invalid v) :
    v = w ∧ cfg.badDigitAction = .fault := by
  unfold decode at h
  split at h
  · cases h
  · dsimp only at h
    split at h
    · cases h
    · split at h
      · split at h
        · cases h
        · rename_i hf; cases h; exact ⟨rfl, hf⟩
      · cases h

/-- A step of a Running core takes an error of the fetch or the decode, or executes. -/
theorem step_running {s t : State} (hs : s.isRunning = true) (h : step s = .next t) :
    (∃ i, s.fetchDecode = .ok i ∧ exec i s = .next t) ∨
    (∃ e, s.fetchDecode = .error e ∧ t = s.raise e) := by
  unfold step at h
  rw [if_pos hs] at h
  split at h
  · rename_i i hi; exact .inl ⟨i, hi, h⟩
  · rename_i e he; cases h; exact .inr ⟨e, he, rfl⟩

theorem step_stopped {s : State} (hs : s.isRunning = false) : step s = .next s := by
  unfold step
  simp [hs]

end Sys2Proof.Machine
end

