-- ==== Sys2Proof/Laws/Step.lean ====
section
/-! SUPPORT. The shape of every step, said once: at most one port operation, then either an entry into a
terminal status, or a change of `pc`, `rb` and at most one word of memory. Invariants of the whole
state follow from this by cases on three facts, not on eleven instructions. -/

namespace Sys2Proof.Machine

/-- `u` is `s`, or `s` after its one port operation. -/
def PortMove (s u : State) : Prop :=
  u = s ∨ (∃ v, readerRead s = .done v u) ∨ ∃ v, writerWrite s v = .done () u

/-- From `u` to `t` only `pc`, `rb` and at most one existing word of memory change. -/
structure CoreMove (u t : State) : Prop where
  status   : t.status = u.status
  reader   : t.reader = u.reader
  writer   : t.writer = u.writer
  channels : t.channels = u.channels
  cfg      : t.cfg = u.cfg
  mem      : t.mem = u.mem ∨
    ∃ d v, u.mem.accessible u.cfg d = true ∧ t.mem = u.mem.poke d v

/-- After the port operation: a terminal status is entered, or the core moves on. -/
def StepShape (s t : State) : Prop :=
  ∃ u, PortMove s u ∧ ((∃ st, st ≠ .running ∧ t = u.terminate st) ∨ CoreMove u t)

theorem CoreMove.refl (s : State) : CoreMove s s := ⟨rfl, rfl, rfl, rfl, rfl, .inl rfl⟩

theorem StepShape.raise {s u : State} (h : PortMove s u) (e : ErrorValue) :
    StepShape s (u.raise e) := ⟨u, h, .inl ⟨.errored e, by simp, rfl⟩⟩

theorem StepShape.move {s t : State} (h : CoreMove s t) : StepShape s t := ⟨s, .inl rfl, .inr h⟩

theorem binaryToDest_shape {f : Word → Word → Except ErrorValue Word} {m1 m2 m3 : Mode} {s t : State}
    (h : binaryToDest f m1 m2 m3 s = .next t) : StepShape s t := by
  rcases binaryToDest_next h with ⟨a, b, d, r, -, -, -, -, hacc, rfl⟩ | ⟨e, rfl, -⟩
  · exact .move ⟨rfl, rfl, rfl, rfl, rfl, .inr ⟨d, r, hacc, rfl⟩⟩
  · exact .raise (.inl rfl) e

theorem jumpWhen_shape {taken : Word → Bool} {m1 m2 : Mode} {s t : State}
    (h : jumpWhen taken m1 m2 s = .next t) : StepShape s t := by
  rcases jumpWhen_next h with ⟨c, w, -, -, ⟨-, -, rfl⟩ | ⟨-, rfl⟩⟩ | ⟨e, rfl, -⟩
  · exact .move ⟨rfl, rfl, rfl, rfl, rfl, .inl rfl⟩
  · exact .move ⟨rfl, rfl, rfl, rfl, rfl, .inl rfl⟩
  · exact .raise (.inl rfl) e

theorem execRead_shape {m1 : Mode} {s t : State} (h : execRead m1 s = .next t) : StepShape s t := by
  rcases execRead_next h with ⟨v, u, hr, ⟨d, -, hacc, rfl⟩ | ⟨e, -, rfl⟩⟩ | ⟨e, -, rfl⟩ | ⟨-, rfl⟩
  · exact ⟨u, .inr (.inl ⟨v, hr⟩), .inr ⟨rfl, rfl, rfl, rfl, rfl, .inr ⟨d, v, hacc, rfl⟩⟩⟩
  · exact .raise (.inr (.inl ⟨v, hr⟩)) e
  · exact .raise (.inl rfl) e
  · exact .move (.refl t)

theorem execWrite_shape {m1 : Mode} {s t : State} (h : execWrite m1 s = .next t) :
    StepShape s t := by
  rcases execWrite_next h with ⟨v, u, -, hw, rfl⟩ | ⟨e, rfl, -⟩ | ⟨-, rfl⟩
  · exact ⟨u, .inr (.inr ⟨v, hw⟩), .inr ⟨rfl, rfl, rfl, rfl, rfl, .inl rfl⟩⟩
  · exact .raise (.inl rfl) e
  · exact .move (.refl t)

theorem execAdjustRelativeBase_shape {m1 : Mode} {s t : State}
    (h : execAdjustRelativeBase m1 s = .next t) : StepShape s t := by
  rcases execAdjustRelativeBase_next h with ⟨v, -, -, rfl⟩ | ⟨e, rfl, -⟩
  · exact .move ⟨rfl, rfl, rfl, rfl, rfl, .inl rfl⟩
  · exact .raise (.inl rfl) e

/-- The shape of every instruction. -/
theorem exec_shape {i : Instr} {s t : State} (h : exec i s = .next t) : StepShape s t := by
  cases i with
  | add m1 m2 m3 => exact binaryToDest_shape h
  | mul m1 m2 m3 => exact binaryToDest_shape h
  | read m1 => exact execRead_shape h
  | write m1 => exact execWrite_shape h
  | jumpIfTrue m1 m2 => exact jumpWhen_shape h
  | jumpIfFalse m1 m2 => exact jumpWhen_shape h
  | lessThan m1 m2 m3 => exact binaryToDest_shape h
  | equals m1 m2 m3 => exact binaryToDest_shape h
  | adjustRelativeBase m1 => exact execAdjustRelativeBase_shape h
  | halt => cases h; exact ⟨s, .inl rfl, .inl ⟨.halted, by simp, rfl⟩⟩
  | skip => cases h; exact .move ⟨rfl, rfl, rfl, rfl, rfl, .inl rfl⟩

/-- The shape of every step, of a stopped core too. -/
theorem step_shape {s t : State} (h : step s = .next t) : StepShape s t := by
  cases hs : s.isRunning with
  | true =>
    rcases step_running hs h with ⟨i, -, h⟩ | ⟨e, -, rfl⟩
    · exact exec_shape h
    · exact .raise (.inl rfl) e
  | false =>
    rw [step_stopped hs] at h
    cases h
    exact .move (.refl s)

/-- An instruction stops the model only at a port bound to a channel that does not exist. -/
theorem exec_next {i : Instr} {s : State}
    (hr : ∀ c, s.reader = .channel c → s.channels[c]? ≠ none)
    (hw : ∀ c, s.writer = .channel c → s.channels[c]? ≠ none) : ∃ t, exec i s = .next t := by
  have hset : ∀ (u : State) (r : Except ErrorValue State), ∃ t, settle u r = .next t := by
    intro u r
    cases r with
    | ok t => exact ⟨t, rfl⟩
    | error e => exact ⟨u.raise e, rfl⟩
  cases i with
  | add m1 m2 m3 => exact hset _ _
  | mul m1 m2 m3 => exact hset _ _
  | read m1 =>
    show ∃ t, afterPort s (readerRead s) _ = .next t
    cases h : readerRead s with
    | done v u => exact hset _ _
    | error e => exact ⟨_, rfl⟩
    | wait => exact ⟨_, rfl⟩
    | missing c => exact absurd (readerRead_missing h).2 (hr c (readerRead_missing h).1)
  | write m1 =>
    show ∃ t, execWrite m1 s = .next t
    unfold execWrite
    split
    · exact ⟨_, rfl⟩
    split
    · exact ⟨_, rfl⟩
    · rename_i v hv
      cases h : writerWrite s v with
      | done x u => exact ⟨_, rfl⟩
      | error e => exact ⟨_, rfl⟩
      | wait => exact ⟨_, rfl⟩
      | missing c => exact absurd (writerWrite_missing h).2 (hw c (writerWrite_missing h).1)
  | jumpIfTrue m1 m2 => exact hset _ _
  | jumpIfFalse m1 m2 => exact hset _ _
  | lessThan m1 m2 m3 => exact hset _ _
  | equals m1 m2 m3 => exact hset _ _
  | adjustRelativeBase m1 => exact hset _ _
  | halt => exact ⟨_, rfl⟩
  | skip => exact ⟨_, rfl⟩

/-! ### The port operation of a step -/

/-- What a port operation leaves alone (10 R28). -/
theorem PortMove.frame {s u : State} (h : PortMove s u) :
    u.mem = s.mem ∧ u.pc = s.pc ∧ u.rb = s.rb ∧ u.status = s.status ∧ u.cfg = s.cfg ∧
    u.channels.length = s.channels.length ∧
    (∀ c, u.reader = .channel c ↔ s.reader = .channel c) ∧
    (∀ c, u.writer = .channel c ↔ s.writer = .channel c) ∧
    (u.reader = .disabled ↔ s.reader = .disabled) ∧
    (u.writer = .disabled ↔ s.writer = .disabled) := by
  rcases h with rfl | ⟨v, h⟩ | ⟨v, h⟩
  · simp
  · rcases readerRead_done h with ⟨q, hr, rfl⟩ | ⟨c, ch, ch', hr, -, -, rfl⟩ <;> simp [hr]
  · rcases writerWrite_done h with ⟨q, hr, rfl⟩ | ⟨c, ch, ch', hr, -, -, rfl⟩ <;> simp [hr]

/-- A port operation makes one move on each channel, and none on a channel the core does not use. -/
theorem PortMove.channel {s u : State} (h : PortMove s u) (c : Nat) (ch : Channel)
    (hc : s.channels[c]? = some ch) :
    ∃ d, u.channels[c]? = some d ∧ ChannelMove ch d ∧ (¬ s.uses c → d = ch) := by
  rcases h with rfl | ⟨v, h⟩ | ⟨v, h⟩
  · exact ⟨ch, hc, .refl ch, fun _ => rfl⟩
  · rcases readerRead_done h with ⟨q, -, rfl⟩ | ⟨k, x, y, hr, hx, hrec, rfl⟩
    · exact ⟨ch, hc, .refl ch, fun _ => rfl⟩
    · obtain ⟨d, hd, hm, he⟩ := channelMove_set hx (Channel.receive_move hrec) c ch hc
      refine ⟨d, hd, hm, fun hn => he ?_⟩
      rintro rfl
      exact hn (.inl hr)
  · rcases writerWrite_done h with ⟨q, -, rfl⟩ | ⟨k, x, y, hr, hx, hsend, rfl⟩
    · exact ⟨ch, hc, .refl ch, fun _ => rfl⟩
    · obtain ⟨d, hd, hm, he⟩ := channelMove_set hx (Channel.send_move hsend) c ch hc
      refine ⟨d, hd, hm, fun hn => he ?_⟩
      rintro rfl
      exact hn (.inr hr)

end Sys2Proof.Machine
end

