-- ==== Sys2Proof/Tests/Slice0.lean ====
section
/-! SUPPORT. The model's own tests. Expected values are the rows of spec/95_test_vectors.md, or follow
by hand from the rule named. The witnesses at the end meet the hypotheses of the statements in
Certificates/Slice0/Obligations.lean. -/

namespace Sys2Proof.Tests

open Sys2Proof.Machine

/-! ### Builders -/

def words (l : List Int) : List Word := l.map wordOfInt

/-- A launch of 95: an image, `rb`, a Fixed Sequence input and an empty Fixed Sequence log. -/
def launched (image : List Int) (rb : Int) (input : List Int) : State :=
  { loadImage Config.default (words image) with
    rb := wordOfInt rb, reader := .fixedSeq (words input), writer := .fixedSeq [] }

def withCfg (c : Config) (s : State) : State := s.setCfg c

def wrapping : Config := { Config.default with arithOverflow := .wrap }
def faultDigits : Config := { Config.default with badDigitAction := .fault }
def allSkip : Config := { Config.default with badDigitScope := .all }
def allFault : Config := { Config.default with badDigitAction := .fault, badDigitScope := .all }
def noOverflowRegion : Config := { Config.default with overflowRegion := .disabled }
def capacityTwo : Config := { Config.default with channelCapacity := .bounded 2 }

/-- One channel, queue and open sides given; the host holds no side but the far one. -/
def toReader (cfg : Config) (q : List Int) (senderHost : Bool) : Channel :=
  ⟨words q, cfg.channelCapacity, false, senderHost, true, false⟩

def toWriter (cfg : Config) (q : List Int) (receiverHost : Bool) : Channel :=
  ⟨words q, cfg.channelCapacity, true, false, false, receiverHost⟩

def readerOn (cfg : Config) (image : List Int) (ch : Channel) : State :=
  { loadImage cfg (words image) with reader := .channel 0, channels := [ch] }

def writerOn (cfg : Config) (image : List Int) (ch : Channel) : State :=
  { loadImage cfg (words image) with writer := .channel 0, channels := [ch] }

/-- One look at the next state of a step. -/
def look {α : Type} (f : State → α) (o : Host.Outcome State Fault Refusal) : Option α :=
  match o with
  | .next t    => some (f t)
  | .fault _   => none
  | .refused _ => none

/-- Word `a`, `pc` and the status after one step. -/
def after (s : State) (a : Nat) : Option (Int × Nat × Status) :=
  look (fun t => ((t.mem.peek a).toInt, t.pc, t.status)) (step s)

/-- `rb`, `pc` and the status after one step. -/
def afterRb (s : State) : Option (Int × Nat × Status) :=
  look (fun t => (t.rb.toInt, t.pc, t.status)) (step s)

/-- The Writer, `pc` and the status after one step. -/
def afterOut (s : State) : Option (WriterPort × Nat × Status) :=
  look (fun t => (t.writer, t.pc, t.status)) (step s)

/-- The queue of channel 0, `pc` and the status after one step. -/
def afterQueue (s : State) : Option (Option (List Word) × Nat × Status) :=
  look (fun t => ((t.channels[0]?).map Channel.queue, t.pc, t.status)) (step s)

/-- The whole state is as it was. -/
def unchanged (s : State) : Bool := look (fun t => decide (t = s)) (step s) == some true

/-! ### WellFormed: one ill-formed term for each check, refused -/

theorem test_line_with_too_few_operands :
    (Line.mk (.add .position .position .position) [1, 2]).wellFormed = false := by decide

theorem test_line_with_too_many_operands : (Line.mk .halt [1]).wellFormed = false := by decide

/-- 00 R7: a capacity is at least 2. -/
theorem test_capacity_one : (Capacity.bounded 1).allowed = false := by decide

theorem test_config_with_capacity_one :
    Config.wellFormed { Config.default with channelCapacity := .bounded 1 } = false := by decide

/-- 92 D1: 2^63 is no word. -/
theorem test_image_literal_too_large : imageWellFormed [0, 9223372036854775808] = false := by decide

theorem test_image_literal_too_small : imageWellFormed [-9223372036854775809] = false := by decide

theorem test_image_at_the_edges :
    imageWellFormed [9223372036854775807, -9223372036854775808] = true := by decide

/-! ### Decoding: words written out from 30 R71 to R79, and the table of 95 section 2.1 -/

/-- Every opcode of the table, `M3 M2 M1 OP OP` written out. -/
theorem test_decode_each_opcode :
    decode Config.default 21001 = .instr (.add .position .immediate .relative) ∧
    decode Config.default 01202 = .instr (.mul .relative .immediate .position) ∧
    decode Config.default 00203 = .instr (.read .relative) ∧
    decode Config.default 00104 = .instr (.write .immediate) ∧
    decode Config.default 02105 = .instr (.jumpIfTrue .immediate .relative) ∧
    decode Config.default 01206 = .instr (.jumpIfFalse .relative .immediate) ∧
    decode Config.default 10207 = .instr (.lessThan .relative .position .immediate) ∧
    decode Config.default 21108 = .instr (.equals .immediate .immediate .relative) ∧
    decode Config.default 00109 = .instr (.adjustRelativeBase .immediate) ∧
    decode Config.default 00099 = .instr .halt ∧
    decode Config.default 00000 = .instr .skip := by decide

/-- 95 section 2.1: digits that are ignored. -/
theorem test_decode_ignored_digits :
    decode Config.default 1104 = .instr (.write .immediate) ∧
    decode Config.default 399 = .instr .halt ∧
    decode Config.default 1099 = .instr .halt ∧
    decode Config.default 30004 = .instr (.write .position) ∧
    decode Config.default 100001 = .instr (.add .position .position .position) := by decide

/-- 95 section 2.1: words that are Skip. -/
theorem test_decode_skip :
    ∀ v ∈ ([100, 10, 50, 98, 301, -1, -99, -1002, 9223372036854775807, -9223372036854775808] :
      List Int), decode Config.default (wordOfInt v) = .instr .skip := by decide

/-- 95 section 2.1: what the decoding parameters change. -/
theorem test_decode_parameters :
    decode allSkip 399 = .instr .skip ∧ decode allFault 399 = .invalid 399 ∧
    decode faultDigits 399 = .instr .halt ∧ decode faultDigits 301 = .invalid 301 ∧
    decode allSkip 30004 = .instr .skip ∧ decode allFault 30004 = .invalid 30004 ∧
    decode faultDigits 9223372036854775807 = .invalid 9223372036854775807 := by decide

/-- 30 R84: the canonical words the spec names. -/
theorem test_encode :
    encode (.add .position .position .position) = 1 ∧
    encode (.mul .position .immediate .position) = 1002 ∧
    encode (.mul .immediate .immediate .position) = 1102 ∧
    encode (.write .relative) = 204 ∧ encode (.adjustRelativeBase .immediate) = 109 ∧
    encode .halt = 99 ∧ encode .skip = 0 := by decide

/-- 30 R85: `Mul 4, #3, 4` assembles to `1002, 4, 3, 4`. -/
theorem test_assemble :
    assemble ⟨.mul .position .immediate .position, [4, 3, 4]⟩ = [1002, 4, 3, 4] := by decide

/-- The host's view of the decoder: 256 bits, or 64, the first word lowest. -/
theorem test_decodeTableWord :
    decodeTableWord 256 1 = some (.add .position .position .position) ∧
    decodeTableWord 64 204 = some (.write .relative) ∧
    decodeTableWord 8 99 = some .halt := by decide

/-- The placed instruction is what the next step after reset runs: `Add 0, 0, 0` doubles the word 1 at
address 0, and Halt halts. -/
theorem test_withFetchWord :
    after (State.reset.withFetchWord 256 1) 0 = some (2, 4, .running) ∧
    after (State.reset.withFetchWord 64 99) 0 = some (99, 0, .halted) ∧
    after ((withCfg noOverflowRegion State.reset).withFetchWord 64 99) 0 = some (99, 0, .halted) := by
  decide

/-! ### Resolve and memory (95 section 2.2) -/

theorem test_resolve :
    resolve (launched [0, 7, 0, 0, 0] 0 []) 1 .position = .ok 7 ∧
    resolve (launched [0, -1, 0, 0, 0] 0 []) 1 .position = .error (.negativeAddress (-1)) ∧
    resolve (launched [0, -1, 0, 0, 0] 0 []) 1 .immediate = .ok 1 ∧
    resolve (launched [0, -3, 0, 0, 0] 10 []) 1 .relative = .ok 7 ∧
    resolve (launched [0, -11, 0, 0, 0] 10 []) 1 .relative = .error (.negativeAddress (-1)) ∧
    resolve (launched [0, 0, 0, 0, 0] (-4) []) 1 .relative = .error (.negativeAddress (-4)) := by decide

theorem test_resolve_overflow :
    resolve (launched [0, 1] 9223372036854775807 []) 1 .relative =
      .error (.arithmeticOverflow .relativeAddress) ∧
    resolve (withCfg wrapping (launched [0, 1] 9223372036854775807 [])) 1 .relative =
      .error (.negativeAddress (wordOfInt (-9223372036854775808))) := by decide

theorem test_memory :
    (launched [1, 2] 0 []).load 1000 = .ok 0 ∧
    ((launched [1, 2] 0 []).mem.poke 1000 (-8)).read Config.default 1000 = .ok (-8) ∧
    ((launched [1, 2] 0 []).mem.poke 1000 (-8)).poke 1000 0 = (launched [1, 2] 0 []).mem ∧
    (withCfg noOverflowRegion (launched [1, 2, 3, 4, 5] 0 [])).load 5 = .error (.indexNotFound 5) := by
  decide

/-! ### One step of each instruction -/

/-- 95 L1-1 and section 2.3. -/
theorem test_add :
    after (launched [1, 9, 10, 3, 2, 3, 11, 0, 99, 30, 40, 50] 0 []) 3 = some (70, 4, .running) ∧
    after (launched [1101, -7, 3, 5, 99, 0] 0 []) 5 = some (-4, 4, .running) ∧
    after (launched [11101, 2, 3, 0, 99] 0 []) 3 = some (5, 4, .running) ∧
    after (launched [1, 0, 0, 0, 99] 0 []) 0 = some (2, 4, .running) := by decide

/-- 95 section 2.3: overflow, and the order of errors. -/
theorem test_add_overflow :
    after (launched [1101, 9223372036854775807, 1, 5, 99, 0] 0 []) 5 =
      some (0, 0, .errored (.arithmeticOverflow .add)) ∧
    after (withCfg wrapping (launched [1101, 9223372036854775807, 1, 5, 99, 0] 0 [])) 5 =
      some (-9223372036854775808, 4, .running) ∧
    after (launched [1101, 9223372036854775807, 1, -3, 99] 0 []) 0 =
      some (1101, 0, .errored (.negativeAddress (-3))) := by decide

/-- 95 L1-2, L1-5. -/
theorem test_mul :
    after (launched [1002, 4, 3, 4, 33] 0 []) 4 = some (99, 4, .running) ∧
    after (launched [1102, 34915192, 34915192, 7, 4, 7, 99, 0] 0 []) 7 =
      some (1219070632396864, 4, .running) ∧
    after (launched [1102, -3, -4, 5, 99, 0] 0 []) 5 = some (12, 4, .running) := by decide

/-- 95 section 2.3. -/
theorem test_mul_overflow :
    after (launched [1102, -9223372036854775808, -1, 5, 99, 0] 0 []) 5 =
      some (0, 0, .errored (.arithmeticOverflow .mul)) ∧
    after (withCfg wrapping (launched [1102, -9223372036854775808, -1, 5, 99, 0] 0 [])) 5 =
      some (-9223372036854775808, 4, .running) ∧
    after (withCfg wrapping (launched [1102, 4294967296, 4294967296, 5, 99, 0] 0 [])) 5 =
      some (0, 4, .running) := by decide

/-- 95 section 2.4: Fixed Sequence and Disabled Readers; the lost input of decision D8. -/
theorem test_read :
    after (launched [3, 0, 99] 0 [42]) 0 = some (42, 2, .running) ∧
    after (launched [103, 0, 99] 0 [9]) 1 = some (9, 2, .running) ∧
    after (launched [203, -1, 99] 10 [6]) 9 = some (6, 2, .running) ∧
    look (fun t => (t.reader, t.pc, t.status)) (step (launched [3, -1, 99] 0 [5, 6])) =
      some (.fixedSeq [6], 0, .errored (.negativeAddress (-1))) ∧
    after (launched [3, 0, 99] 0 []) 0 = some (3, 0, .errored .readFromInput) ∧
    after ((launched [3, -1, 99] 0 []).setReader .disabled) 0 =
      some (3, 0, .errored (.portDisabled .reader)) := by decide

/-- 95 section 2.4: channel rows of Read. -/
theorem test_read_channel :
    unchanged (readerOn Config.default [3, 5, 99] (toReader Config.default [] true)) = true ∧
    unchanged (readerOn Config.default [3, -1, 99] (toReader Config.default [] true)) = true ∧
    afterQueue (readerOn Config.default [3, 5, 99] (toReader Config.default [4] true)) =
      some (some [], 2, .running) ∧
    after (readerOn Config.default [3, 5, 99] (toReader Config.default [4] false)) 5 =
      some (4, 2, .running) ∧
    after (readerOn Config.default [3, 5, 99] (toReader Config.default [] false)) 5 =
      some (0, 0, .errored .readFromInput) := by decide

/-- 95 section 2.4: Fixed Sequence and Disabled Writers; the operand comes before the port. -/
theorem test_write :
    afterOut (launched [104, -7, 99] 0 []) = some (.fixedSeq [-7], 2, .running) ∧
    afterOut (launched [4, 2, 99] 0 []) = some (.fixedSeq [99], 2, .running) ∧
    afterOut (launched [204, 10, 99] (-5) []) = some (.fixedSeq [0], 2, .running) ∧
    afterOut (launched [204, 4, 99] (-5) []) =
      some (.fixedSeq [], 0, .errored (.negativeAddress (-1))) ∧
    after ((launched [104, 5, 99] 0 []).setWriter .disabled) 0 =
      some (104, 0, .errored (.portDisabled .writer)) ∧
    after ((launched [4, -1, 99] 0 []).setWriter .disabled) 0 =
      some (4, 0, .errored (.negativeAddress (-1))) := by decide

/-- 95 section 2.4: channel rows of Write; and 10 R27: a Write to a full channel waits, whatever its
operand is. -/
theorem test_write_channel :
    afterQueue (writerOn Config.default [104, 8, 99] (toWriter Config.default [] true)) =
      some (some [8], 2, .running) ∧
    unchanged (writerOn capacityTwo [104, 8, 99] (toWriter capacityTwo [1, 2] true)) = true ∧
    unchanged (writerOn capacityTwo [4, -1, 99] (toWriter capacityTwo [1, 2] true)) = true ∧
    after (writerOn capacityTwo [4, -1, 99] (toWriter capacityTwo [1] true)) 0 =
      some (4, 0, .errored (.negativeAddress (-1))) ∧
    afterQueue (writerOn capacityTwo [104, 8, 99] (toWriter capacityTwo [1, 2] false)) =
      some (some [1, 2], 0, .errored .writeToOutput) := by decide

/-- 95 section 2.5. -/
theorem test_jumpIfTrue :
    afterRb (launched [1105, 1, 4, 99, 104, 7, 99] 0 []) = some (0, 4, .running) ∧
    afterRb (launched [1105, -5, 4, 99, 104, 7, 99] 0 []) = some (0, 4, .running) ∧
    afterRb (launched [1105, 0, -1, 99] 0 []) = some (0, 3, .running) ∧
    afterRb (launched [5, 4, 5, 99, 1, 3] 0 []) = some (0, 3, .running) ∧
    afterRb (launched [1105, 1, -1] 0 []) = some (0, 0, .errored (.negativeJumpTarget (-1))) ∧
    afterRb (launched [5, -1, 3, 99] 0 []) = some (0, 0, .errored (.negativeAddress (-1))) := by decide

/-- 95 section 2.5. -/
theorem test_jumpIfFalse :
    afterRb (launched [1106, 0, 4, 99, 104, 8, 99] 0 []) = some (0, 4, .running) ∧
    afterRb (launched [1106, 1, 4, 99] 0 []) = some (0, 3, .running) ∧
    afterRb (launched [1106, -1, 4, 99] 0 []) = some (0, 3, .running) ∧
    afterRb (launched [1106, 0, -1] 0 []) = some (0, 0, .errored (.negativeJumpTarget (-1))) := by decide

/-- 95 section 2.6. -/
theorem test_lessThan :
    after (launched [1107, -1, 0, 5, 99, 7] 0 []) 5 = some (1, 4, .running) ∧
    after (launched [1107, 0, 0, 5, 99, 7] 0 []) 5 = some (0, 4, .running) ∧
    after (launched [1107, 5, 3, 5, 99, 7] 0 []) 5 = some (0, 4, .running) ∧
    after (launched [1107, -9223372036854775808, 9223372036854775807, 5, 99, 7] 0 []) 5 =
      some (1, 4, .running) ∧
    after (launched [21107, 1, 2, -1, 99] 6 []) 5 = some (1, 4, .running) ∧
    after (launched [21107, 1, 2, -1, 99] 0 []) 0 =
      some (21107, 0, .errored (.negativeAddress (-1))) := by decide

/-- 95 section 2.6. -/
theorem test_equals :
    after (launched [1108, 0, 0, 5, 99, 7] 0 []) 5 = some (1, 4, .running) ∧
    after (launched [1108, -1, 1, 5, 99, 7] 0 []) 5 = some (0, 4, .running) ∧
    after (launched [8, 0, 0, 5, 99, 7] 0 []) 5 = some (1, 4, .running) := by decide

/-- 95 section 2.7. -/
theorem test_adjustRelativeBase :
    afterRb (launched [109, 5, 99] 0 []) = some (5, 2, .running) ∧
    afterRb (launched [109, -5, 99] 0 []) = some (-5, 2, .running) ∧
    afterRb (launched [9, 2, 99] 0 []) = some (99, 2, .running) ∧
    afterRb (launched [209, 1, 99] 0 []) = some (1, 2, .running) ∧
    afterRb (launched [209, 1, 99] 2 []) = some (2, 2, .running) := by decide

/-- 95 section 2.7. -/
theorem test_adjustRelativeBase_overflow :
    afterRb (launched [109, 1, 99] 9223372036854775807 []) =
      some (9223372036854775807, 0, .errored (.arithmeticOverflow .adjustRelativeBase)) ∧
    afterRb (withCfg wrapping (launched [109, 1, 99] 9223372036854775807 [])) =
      some (-9223372036854775808, 2, .running) := by decide

/-- 95 section 2.8; a stopped core has no step; Halt releases the endpoint of the Reader. -/
theorem test_halt :
    after (launched [99] 0 []) 0 = some (99, 0, .halted) ∧
    after (withCfg allFault (launched [399] 0 [])) 0 =
      some (399, 0, .errored (.invalidModeDigit 399)) ∧
    unchanged ((launched [99] 0 []).setStatus .halted) = true ∧
    look (fun t => (t.channels[0]?).map Channel.receiverOpen)
      (step (readerOn Config.default [99] (toReader Config.default [4] true))) =
        some (some false) := by decide

/-- 95 section 2.8; `[]` fetches an unwritten word, or raises without the overflow region. -/
theorem test_skip :
    afterRb (launched [-1, 0, 99] 0 []) = some (0, 1, .running) ∧
    afterRb (launched [50, 99] 0 []) = some (0, 1, .running) ∧
    afterRb (withCfg faultDigits (launched [301, 0, 0, 0, 99] 0 [])) =
      some (0, 0, .errored (.invalidModeDigit 301)) ∧
    afterRb (launched [] 0 []) = some (0, 1, .running) ∧
    afterRb (withCfg noOverflowRegion (launched [] 0 [])) =
      some (0, 0, .errored (.indexNotFound 0)) := by decide

/-- 95 section 2.2: `[1,0,0,10,99]` with and without the overflow region. -/
theorem test_overflow_region :
    after (launched [1, 0, 0, 10, 99] 0 []) 10 = some (2, 4, .running) ∧
    after (withCfg noOverflowRegion (launched [1, 0, 0, 10, 99] 0 [])) 10 =
      some (0, 0, .errored (.indexNotFound 10)) := by decide

/-! ### The host -/

/-- A ring of one core (the shape of 95 P10): its channel is pre-seeded with a phase and a signal. -/
def ringOfOne : Launch where
  cfg      := capacityTwo
  image    := [3, 10, 4, 10, 99]
  rb       := 0
  words    := [(20, 7)]
  channels := 1
  reader   := .channel 0
  writer   := .channel 0
  acts     := [.send 0 5, .send 0 0]

/-- One core with a Fixed Sequence on both sides, and two presets of one word. -/
def fixedSeqLaunch : Launch where
  cfg      := Config.default
  image    := [3, 5, 99]
  rb       := 0
  words    := [(9, 7), (1, 6), (9, 8)]
  channels := 0
  reader   := .fixedSeq [1]
  writer   := .fixedSeq [4]
  acts     := []

/-- 70 R241 to R244: presets, bindings and pre-seeding; 41 R131: once started, the host holds no
sending side beside the core. -/
theorem test_boot :
    (boot ringOfOne).map (fun s => (s.mem.peek 20, (s.channels[0]?).map Channel.queue, s.pc)) =
      some (7, some [5, 0], 0) ∧
    ((boot ringOfOne).bind fun s => afterQueue s) = some (some [0], 2, .running) ∧
    ((boot ringOfOne).bind fun s => (s.channels[0]?).map Channel.senderHost) = some false ∧
    ((boot ringOfOne).bind fun s => hostAct (.send 0 1) (s.channels.map fun ch =>
      { ch with queue := [] })) = none := by decide

/-- A third value does not fit a channel of two (41 R132), an image literal outside `Int64` gives no
core (70 R245), and a port may not name a channel that is not made. -/
theorem test_boot_refused :
    boot { ringOfOne with acts := [.send 0 5, .send 0 0, .send 0 1] } = none ∧
    boot { ringOfOne with image := [9223372036854775808] } = none ∧
    boot { ringOfOne with channels := 0, acts := [] } = none := by decide

/-- The feedback ring of 95 P10: channel 0 is `ab`, channel 1 is `ba`, pre-seeded with 0; the host keeps
only the receiving side of `ba`. -/
def ringOfTwo : NetworkLaunch where
  cfg      := Config.default
  cores    :=
    [⟨[3, 20, 1001, 20, 1, 20, 4, 20, 3, 20, 1001, 20, 1, 20, 4, 20, 99], 0, [], .channel 1, .channel 0⟩,
     ⟨[3, 20, 1001, 20, 1, 20, 4, 20, 3, 20, 1001, 20, 1, 20, 4, 20, 99], 0, [], .channel 0, .channel 1⟩]
  channels := 2
  acts     := [.send 1 0, .releaseReceiver 0]

/-- 95 P10, the first steps: B's Read waits, A's takes the seed. -/
theorem test_bootNetwork :
    ((bootNetwork ringOfTwo).map fun n => n.channels.map Channel.queue) = some [[], [0]] ∧
    ((bootNetwork ringOfTwo).bind fun n => (n.core 1).map State.waiting) = some true ∧
    ((bootNetwork ringOfTwo).bind fun n => (n.coreStep 0).map fun m =>
      (m.channels.map Channel.queue, (m.core 0).map State.pc)) = some ([[], []], some 2) ∧
    ((bootNetwork ringOfTwo).map Network.ended) = some false := by decide

/-- 41 R131: two cores may not be bound to one side. -/
theorem test_bootNetwork_refused :
    bootNetwork { ringOfTwo with
      cores := [⟨[99], 0, [], .channel 0, .disabled⟩, ⟨[99], 0, [], .channel 0, .disabled⟩] } = none := by
  decide

/-- 10 R28, 70 R241: a bound Fixed Sequence Writer has an empty log, whatever the launch lists; an unbound
one stays Disabled; the later of two presets of one word stands. -/
theorem test_boot_bindings :
    (boot fixedSeqLaunch).map (fun s => (s.reader, s.writer)) = some (.fixedSeq [1], .fixedSeq []) ∧
    (boot { fixedSeqLaunch with writer := .disabled }).map State.writer = some .disabled ∧
    (boot fixedSeqLaunch).map (fun s => (s.mem.peek 1, s.mem.peek 9)) = some (6, 8) := by decide

/-- 70 R250: the host's view. -/
theorem test_hostView : (hostView (launched [99] 3 [])).log = some [] ∧
    (hostView (launched [99] 3 [])).rb = 3 ∧
    (hostView (writerOn Config.default [99] (toWriter Config.default [] true))).log = none := by
  decide

/-! ### Witnesses: for each statement with hypotheses, a state and operands that meet all of them
together, one conjunct or one theorem for each clause -/

theorem witness_AssembledLinesDisassemble :
    (Line.mk (.mul .position .immediate .position) [4, 3, 4]).wellFormed = true := by decide

theorem witness_DecodedFieldsAreTheWordsDigits :
    decode Config.default 21001 = .instr (.add .position .immediate .relative) ∧
    Instr.add .position .immediate .relative ≠ .skip := by decide

theorem witness_NegativeWordsDecodeToSkip : (-1 : Word).toInt < 0 := by decide

/-- The three boundary opcodes 0, 10 and 98. -/
theorem witness_UnknownOpcodesDecodeToSkip :
    (0 ≤ (0 : Word).toInt ∧ (0 : Word).toNat % 100 = 0) ∧
    (0 ≤ (10 : Word).toInt ∧ 10 ≤ (10 : Word).toNat % 100 ∧ (10 : Word).toNat % 100 ≤ 98) ∧
    (0 ≤ (98 : Word).toInt ∧ 10 ≤ (98 : Word).toNat % 100 ∧ (98 : Word).toNat % 100 ≤ 98) := by
  decide

/-- A digit 3 in a checked position; and digits of 2 in every checked position. -/
theorem witness_BadModeDigitsFollowTheParameters :
    (Instr.read .position ≠ .skip ∧ 0 ≤ (303 : Word).toInt ∧
      (303 : Word).toNat % 100 = (encode (.read .position)).toNat % 100 ∧
      ∃ k, k < (Instr.read .position).arity ∧ 2 < digit (303 : Word).toNat (k + 2)) ∧
    (0 ≤ (203 : Word).toInt ∧ (203 : Word).toNat % 100 = (encode (.read .position)).toNat % 100 ∧
      ∀ k, k < 3 → digit (203 : Word).toNat (k + 2) ≤ 2) :=
  ⟨⟨by decide, by decide, by decide, 0, by decide, by decide⟩, by decide⟩

theorem witness_IgnoredDigitsChangeNothing :
    (0 ≤ (1 : Word).toInt ∧ 0 ≤ (100001 : Word).toInt ∧
      (1 : Word).toNat % 100000 = (100001 : Word).toNat % 100000 ∧
      decode Config.default 1 = .instr (.add .position .position .position)) ∧
    (decode Config.default 104 = .instr (.write .immediate) ∧
      (1104 : Word).toNat % 100 = (104 : Word).toNat % 100 ∧
      (∀ k, k < 1 → digit (1104 : Word).toNat (k + 2) = digit (104 : Word).toNat (k + 2)) ∧
      ∀ k, k < 3 → 1 ≤ k → digit (1104 : Word).toNat (k + 2) ≤ 2) := by decide

theorem witness_DefaultDecodingNeverStops :
    (-1 : Word).toInt < 0 ∧ (100 : Word).toNat % 100 = 0 ∧
    (10 ≤ (98 : Word).toNat % 100 ∧ (98 : Word).toNat % 100 ≤ 98) := by decide

/-- A canonical memory with one overflow entry, read at each side of `N = 2` and at the entry. -/
def sparse : Memory := ⟨[1, 2], [(5, 9)]⟩

theorem witness_MemReadByAddress :
    sparse.wf ∧ 1 < sparse.store.length ∧ sparse.store.length ≤ 2 ∧
    Config.default.overflowRegion = .enabled ∧ (5, (9 : Word)) ∈ sparse.overflow ∧
    (∀ p ∈ sparse.overflow, p.1 ≠ 2) ∧ noOverflowRegion.overflowRegion = .disabled := by decide

theorem witness_MemWriteChangesOneWord :
    sparse.wf ∧ 1 < sparse.size ∧ Config.default.overflowRegion = .enabled ∧
    sparse.size ≤ 2 ∧ noOverflowRegion.overflowRegion = .disabled := by decide

theorem witness_CanonicalMemoriesThatReadAlikeAreEqual :
    sparse.wf ∧ (sparse.poke 5 9).wf ∧ sparse.size = (sparse.poke 5 9).size ∧
    ∀ a, sparse.peek a = (sparse.poke 5 9).peek a :=
  ⟨by decide, by decide, by decide, fun _ => rfl⟩

/-- The word 0, the least address, and -1, the nearest below it, in both modes; and a sum one above
`Int64`. -/
theorem witness_ResolveByMode :
    ((launched [0, 0] 0 []).load 1 = .ok 0 ∧ (0 : Int) ≤ (0 : Word).toInt + (launched [] 0 []).rb.toInt) ∧
    ((launched [0, -1] 0 []).load 1 = .ok (-1) ∧ (-1 : Word).toInt < 0 ∧
      (-1 : Word).toInt + (launched [] 0 []).rb.toInt < 0) ∧
    ((launched [0, 1] 9223372036854775807 []).load 1 = .ok 1 ∧
      ¬ FitsInt64 ((1 : Word).toInt + (launched [] 9223372036854775807 []).rb.toInt) ∧
      Config.default.arithOverflow = .fault ∧ wrapping.arithOverflow = .wrap) ∧
    (withCfg noOverflowRegion (launched [0] 0 [])).load 1 = .error (.indexNotFound 1) := by decide

theorem witness_OperandByMode :
    resolve (launched [1, 0] 0 []) 1 .position = .ok 0 ∧
    resolve (launched [1, -1] 0 []) 1 .position = .error (.negativeAddress (-1)) ∧
    (launched [1, 0] 0 []).load 1 = .ok 0 ∧ 0 ≤ (0 : Word).toInt ∧
    FitsInt64 ((0 : Word).toInt + (launched [1, 0] 0 []).rb.toInt) ∧
    0 ≤ (0 : Word).toInt + (launched [1, 0] 0 []).rb.toInt := by decide

/-- Every clause: a destination that resolves, a negative word, a Relative sum that is negative, one that
leaves `Int64`, and an operand word that cannot be read. -/
theorem witness_DestByMode :
    ((launched [1, 0, 0, 0] 0 []).load 3 = .ok 0 ∧
      dest (launched [1, 0, 0, 0] 0 []) 3 .relative = .ok 0) ∧
    ((launched [1101, 1, 2, -3] 0 []).load 3 = .ok (-3) ∧
      dest (launched [1101, 1, 2, -3] 0 []) 3 .position = .error (.negativeAddress (-3)) ∧
      dest (launched [1101, 1, 2, -3] 5 []) 3 .relative = .ok 2 ∧
      dest (launched [1101, 1, 2, -3] 1 []) 3 .relative = .error (.negativeAddress (-2))) ∧
    ((launched [203, 1] 9223372036854775807 []).load 1 = .ok 1 ∧
      ¬ FitsInt64 ((1 : Word).toInt + (9223372036854775807 : Word).toInt) ∧
      dest (launched [203, 1] 9223372036854775807 []) 1 .relative =
        .error (.arithmeticOverflow .relativeAddress) ∧
      dest (withCfg wrapping (launched [203, 1] 9223372036854775807 [])) 1 .relative =
        .error (.negativeAddress (-9223372036854775808))) ∧
    (withCfg noOverflowRegion (launched [3] 0 [])).load 1 = .error (.indexNotFound 1) := by decide

/-- `Op 9, 10, 3` of 95 L1-1; its sum and product fit. -/
def l1 : State := launched [1, 9, 10, 3, 2, 3, 11, 0, 99, 30, 40, 50] 0 []

theorem witness_AddAndMulComplete :
    operand l1 1 .position = .ok 30 ∧ operand l1 2 .position = .ok 40 ∧
    dest l1 3 .position = .ok 3 ∧ l1.mem.accessible l1.cfg 3 = true ∧
    FitsInt64 ((30 : Word).toInt + (40 : Word).toInt) ∧
    FitsInt64 ((30 : Word).toInt * (40 : Word).toInt) := by decide

/-- Operands 2^63 - 1 and 2: the sum and the product both leave `Int64`. -/
theorem witness_OverflowFollowsTheParameter :
    operand (launched [1101, 9223372036854775807, 2, 5] 0 []) 1 .immediate = .ok 9223372036854775807 ∧
    operand (launched [1101, 9223372036854775807, 2, 5] 0 []) 2 .immediate = .ok 2 ∧
    dest (launched [1101, 9223372036854775807, 2, 5] 0 []) 3 .position = .ok 5 ∧
    (launched [1101, 9223372036854775807, 2, 5] 0 []).mem.accessible wrapping 5 = true ∧
    ¬ FitsInt64 ((9223372036854775807 : Word).toInt + (2 : Word).toInt) ∧
    ¬ FitsInt64 ((9223372036854775807 : Word).toInt * (2 : Word).toInt) ∧
    (operand (launched [109, 1] 9223372036854775807 []) 1 .immediate = .ok 1 ∧
      ¬ FitsInt64 ((launched [109, 1] 9223372036854775807 []).rb.toInt + (1 : Word).toInt)) ∧
    Config.default.arithOverflow = .fault ∧ wrapping.arithOverflow = .wrap := by decide

/-- The edge of the 8-digit range on both sides. -/
theorem witness_EightDigitArithmeticIsExact :
    operand (launched [1101, 99999999, -99999999, 5] 0 []) 1 .immediate = .ok 99999999 ∧
    operand (launched [1101, 99999999, -99999999, 5] 0 []) 2 .immediate = .ok (-99999999) ∧
    dest (launched [1101, 99999999, -99999999, 5] 0 []) 3 .position = .ok 5 ∧
    (launched [1101, 99999999, -99999999, 5] 0 []).mem.accessible Config.default 5 = true ∧
    (99999999 : Word).toInt ≤ 99999999 ∧ -99999999 ≤ (-99999999 : Word).toInt := by decide

theorem witness_ComparisonsComplete :
    operand l1 1 .position = .ok 30 ∧ operand l1 2 .position = .ok 40 ∧
    dest l1 3 .position = .ok 3 ∧ l1.mem.accessible l1.cfg 3 = true := by decide

theorem witness_ComparisonsWriteExactlyOneOrZero :
    (l1.mem.wf ∧ l1.isRunning = true ∧ dest l1 3 .position = .ok 3 ∧
      look State.isRunning (exec (.lessThan .position .position .position) l1) = some true ∧
      look State.isRunning (exec (.equals .position .position .position) l1) = some true) ∧
    (operand (launched [5, 3, 4, 1, 0] 0 []) 2 .position = .ok 0 ∧ 0 ≤ (0 : Word).toInt ∧
      operand (launched [5, 3, 4, 1, 0] 0 []) 1 .position = .ok 1 ∧
      operand (launched [5, 3, 4, 0, 0] 0 []) 2 .position = .ok 0 ∧
      operand (launched [5, 3, 4, 0, 0] 0 []) 1 .position = .ok 0) := by decide

/-- Conditions -1 and 0, targets 0 and -1. -/
theorem witness_JumpIfTrueCompletes :
    operand (launched [1105, -1, 0] 0 []) 1 .immediate = .ok (-1) ∧
    operand (launched [1105, -1, 0] 0 []) 2 .immediate = .ok 0 ∧ (-1 : Word).toInt ≠ 0 ∧
    0 ≤ (0 : Word).toInt ∧ operand (launched [1105, 0, -1] 0 []) 1 .immediate = .ok 0 ∧
    operand (launched [1105, 0, -1] 0 []) 2 .immediate = .ok (-1) ∧ (0 : Word).toInt = 0 := by decide

theorem witness_JumpIfFalseCompletes :
    operand (launched [1106, 0, 0] 0 []) 1 .immediate = .ok 0 ∧
    operand (launched [1106, 0, 0] 0 []) 2 .immediate = .ok 0 ∧ (0 : Word).toInt = 0 ∧
    0 ≤ (0 : Word).toInt ∧ operand (launched [1106, 1, -1] 0 []) 1 .immediate = .ok 1 ∧
    operand (launched [1106, 1, -1] 0 []) 2 .immediate = .ok (-1) ∧ (1 : Word).toInt ≠ 0 := by decide

theorem witness_TakenJumpToNegativeTargetRaises :
    operand (launched [1105, 1, -1] 0 []) 1 .immediate = .ok 1 ∧
    operand (launched [1105, 1, -1] 0 []) 2 .immediate = .ok (-1) ∧ (-1 : Word).toInt < 0 ∧
    (1 : Word).toInt ≠ 0 ∧ operand (launched [1106, 0, -1] 0 []) 1 .immediate = .ok 0 ∧
    operand (launched [1106, 0, -1] 0 []) 2 .immediate = .ok (-1) ∧ (0 : Word).toInt = 0 := by decide

theorem witness_ReadCompletes :
    (dest (launched [3, 0, 99] 0 [42]) 1 .position = .ok 0 ∧
      (launched [3, 0, 99] 0 [42]).mem.accessible Config.default 0 = true ∧
      (launched [3, 0, 99] 0 [42]).reader = .fixedSeq [42]) ∧
    (dest (readerOn Config.default [3, 5, 99] (toReader Config.default [4] false)) 1 .position = .ok 5 ∧
      (readerOn Config.default [3, 5, 99] (toReader Config.default [4] false)).reader = .channel 0 ∧
      (readerOn Config.default [3, 5, 99] (toReader Config.default [4] false)).channels[0]? =
        some (toReader Config.default [4] false) ∧
      (toReader Config.default [4] false).queue = [4]) := by decide

/-- A log, an unbounded channel, and a channel of two with one place left. -/
theorem witness_WriteCompletes :
    (operand (launched [104, -7, 99] 0 []) 1 .immediate = .ok (-7) ∧
      (launched [104, -7, 99] 0 []).writer = .fixedSeq []) ∧
    (operand (writerOn capacityTwo [104, 8] (toWriter capacityTwo [1] true)) 1 .immediate = .ok 8 ∧
      (writerOn capacityTwo [104, 8] (toWriter capacityTwo [1] true)).channels[0]? =
        some (toWriter capacityTwo [1] true) ∧
      (toWriter capacityTwo [1] true).receiverOpen = true ∧
      (toWriter capacityTwo [1] true).cap = .bounded 2 ∧
      (toWriter capacityTwo [1] true).queue.length < 2) ∧
    (toWriter Config.default [1] true).cap = .unbounded := by decide

/-- The new base -1, and the largest one. -/
theorem witness_AdjustRelativeBaseCompletes :
    operand (launched [109, -1, 99] 0 []) 1 .immediate = .ok (-1) ∧
    FitsInt64 ((launched [109, -1, 99] 0 []).rb.toInt + (-1 : Word).toInt) ∧
    FitsInt64 ((launched [109, 1, 99] 9223372036854775806 []).rb.toInt + (1 : Word).toInt) := by decide

theorem witness_PortErrorsAreTaken :
    ((launched [3, 0] 0 []).setReader .disabled).reader = .disabled ∧
    (operand ((launched [104, 5] 0 []).setWriter .disabled) 1 .immediate = .ok 5 ∧
      ((launched [104, 5] 0 []).setWriter .disabled).writer = .disabled) ∧
    (operand (writerOn capacityTwo [104, 8] (toWriter capacityTwo [1, 2] false)) 1 .immediate = .ok 8 ∧
      (toWriter capacityTwo [1, 2] false).receiverOpen = false) := by decide

theorem witness_ReadFromInputIsTaken :
    (readerRead (launched [3, 0] 0 []) = .error .readFromInput) ∧
    (readerRead (readerOn Config.default [3, 5] (toReader Config.default [] false)) =
      .error .readFromInput) := by decide

theorem witness_ReadLosesItsInputToABadDestination :
    (dest (launched [3, -1, 99] 0 [5, 6]) 1 .position = .error (.negativeAddress (-1)) ∧
      (launched [3, -1, 99] 0 [5, 6]).reader = .fixedSeq [5, 6]) ∧
    (dest (readerOn Config.default [3, -1] (toReader Config.default [4] true)) 1 .position =
        .error (.negativeAddress (-1)) ∧
      (toReader Config.default [4] true).queue = [4]) ∧
    (dest (withCfg noOverflowRegion (launched [3, 2] 0 [5])) 1 .position = .ok 2 ∧
      (launched [3, 2] 0 [5]).mem.accessible noOverflowRegion 2 = false ∧
      (launched [3, 2] 0 [5]).reader = .fixedSeq [5]) := by decide

theorem witness_WaitingChangesNothing :
    ((toReader Config.default [] true).queue = [] ∧ (toReader Config.default [] true).senderOpen = true) ∧
    ((toWriter capacityTwo [1, 2] true).cap = .bounded 2 ∧
      2 ≤ (toWriter capacityTwo [1, 2] true).queue.length ∧
      (toWriter capacityTwo [1, 2] true).receiverOpen = true) ∧
    (readerOn Config.default [3, 5, 99] (toReader Config.default [] true)).waiting = true ∧
    (writerOn capacityTwo [104, 8] (toWriter capacityTwo [1, 2] true)).waiting = true ∧
    (writerOn capacityTwo [4, -1] (toWriter capacityTwo [1, 2] true)).waiting = true := by decide

/-- The host holds the sending side of a waiting Reader's channel, sends or releases it. -/
theorem witness_WaitingReadIsLiftedBySendOrClose :
    (readerOn Config.default [3, 5] (toReader Config.default [] true)).waiting = true ∧
    (readerOn Config.default [3, 5] (toReader Config.default [] true)).fetchDecode =
      .ok (.read .position) ∧
    (hostAct (.send 0 9) [toReader Config.default [] true]).isSome = true ∧
    (hostAct (.releaseSender 0) [toReader Config.default [] true]).isSome = true ∧
    (toReader Config.default [] true).senderPort = false := by decide

/-- Each clause in order: the fetch; p1, p2, p3; the destination write; a jump's operands; the operand
of Write and AdjustRelativeBase; the Reader. -/
theorem witness_FirstErrorReachedIsTaken :
    (withCfg noOverflowRegion (launched [] 0 [])).load 0 = .error (.indexNotFound 0) ∧
    (operand (launched [1, -1, -2, -3] 0 []) 1 .position = .error (.negativeAddress (-1)) ∧
      (operand (launched [101, 1, -2, -3] 0 []) 1 .immediate = .ok 1 ∧
        operand (launched [101, 1, -2, -3] 0 []) 2 .position = .error (.negativeAddress (-2))) ∧
      (operand (launched [1101, 1, 2, -3] 0 []) 2 .immediate = .ok 2 ∧
        dest (launched [1101, 1, 2, -3] 0 []) 3 .position = .error (.negativeAddress (-3)))) ∧
    (dest (withCfg noOverflowRegion (launched [1101, 1, 2, 4] 0 [])) 3 .position = .ok 4 ∧
      (launched [1101, 1, 2, 4] 0 []).mem.accessible noOverflowRegion 4 = false ∧
      FitsInt64 ((1 : Word).toInt + (2 : Word).toInt) ∧
      FitsInt64 ((1 : Word).toInt * (2 : Word).toInt) ∧ wrapping.arithOverflow = .wrap) ∧
    (operand (launched [5, -1, 3] 0 []) 1 .position = .error (.negativeAddress (-1)) ∧
      operand (launched [105, 0, -1] 0 []) 1 .immediate = .ok 0 ∧
      operand (launched [105, 0, -1] 0 []) 2 .position = .error (.negativeAddress (-1))) ∧
    (operand (launched [4, -1] 0 []) 1 .position = .error (.negativeAddress (-1)) ∧
      (launched [4, -1] 0 []).writerBlocked = false) ∧
    readerRead (launched [3, 0] 0 []) = .error .readFromInput := by decide

/-- An error that loses nothing, and one of a Read that lost the head of a channel. -/
theorem witness_ErrorEntryIsPrecise :
    (l1.isRunning = true ∧ look State.status (step (launched [1, -1, 0, 0, 99] 0 [])) =
      some (.errored (.negativeAddress (-1)))) ∧
    look State.status (step (readerOn Config.default [3, -1] (toReader Config.default [4] true))) =
      some (.errored (.negativeAddress (-1))) := by decide

theorem witness_InvalidModeDigitIsTaken :
    ((withCfg faultDigits (launched [301] 0 [])).isRunning = true ∧
      (withCfg faultDigits (launched [301] 0 [])).load 0 = .ok 301 ∧
      decode faultDigits 301 = .invalid 301) ∧
    look State.status (step (withCfg faultDigits (launched [301] 0 []))) =
      some (.errored (.invalidModeDigit 301)) := by decide

/-- An access at `N` without the overflow region; and a step with it. -/
theorem witness_IndexNotFoundOnlyWithoutOverflowRegion :
    (sparse.read noOverflowRegion 2 = .error (.indexNotFound 2)) ∧
    (sparse.write noOverflowRegion 2 1 = .error (.indexNotFound 2)) ∧
    (l1.cfg.overflowRegion = .enabled ∧ l1.isRunning = true ∧
      look State.status (step l1) = some .running) := by decide

theorem witness_ArithmeticOverflowOnlyUnderFault :
    chk64 Config.default .add 9223372036854775808 = .error (.arithmeticOverflow .add) ∧
    ((withCfg wrapping l1).cfg.arithOverflow = .wrap ∧ (withCfg wrapping l1).isRunning = true ∧
      look State.status (step (withCfg wrapping l1)) = some .running) := by decide

/-- One instruction for each error value an instruction may take. -/
theorem witness_EachErrorComesFromItsInstructions :
    look State.status (exec (.add .immediate .immediate .position)
        (withCfg noOverflowRegion (launched [1101, 1, 2, 4] 0 []))) = some (.errored (.indexNotFound 4)) ∧
    look State.status (exec (.write .position) (launched [4, -1] 0 [])) =
      some (.errored (.negativeAddress (-1))) ∧
    look State.status (exec (.read .position) (launched [3, 0] 0 [])) =
      some (.errored .readFromInput) ∧
    look State.status (exec (.write .immediate)
        (writerOn capacityTwo [104, 8] (toWriter capacityTwo [1, 2] false))) =
      some (.errored .writeToOutput) ∧
    look State.status (exec (.read .position) ((launched [3, 0] 0 []).setReader .disabled)) =
      some (.errored (.portDisabled .reader)) ∧
    look State.status (exec (.write .immediate) ((launched [104, 0] 0 []).setWriter .disabled)) =
      some (.errored (.portDisabled .writer)) ∧
    look State.status (exec (.add .immediate .immediate .position)
        (launched [1101, 9223372036854775807, 1, 4] 0 [])) = some (.errored (.arithmeticOverflow .add)) ∧
    look State.status (exec (.mul .immediate .immediate .position)
        (launched [1102, 9223372036854775807, 2, 4] 0 [])) = some (.errored (.arithmeticOverflow .mul)) ∧
    look State.status (exec (.adjustRelativeBase .immediate) (launched [109, 1] 9223372036854775807 [])) =
      some (.errored (.arithmeticOverflow .adjustRelativeBase)) ∧
    look State.status (exec (.write .relative) (launched [204, 1] 9223372036854775807 [])) =
      some (.errored (.arithmeticOverflow .relativeAddress)) ∧
    look State.status (exec (.jumpIfTrue .immediate .immediate) (launched [1105, 1, -1] 0 [])) =
      some (.errored (.negativeJumpTarget (-1))) := by decide

theorem witness_StepRunsTheDecodedInstruction :
    l1.status = .running ∧ l1.mem.read l1.cfg l1.pc = .ok 1 ∧
    decode l1.cfg 1 = .instr (.add .position .position .position) := by decide

theorem witness_StoppedCoreNeverChanges :
    ((launched [1] 0 []).setStatus .halted).status ≠ .running ∧
    ((launched [1] 0 []).setStatus (.errored .readFromInput)).status ≠ .running := by decide

/-- A next state for every constructor; the tests above cover the other outcomes. -/
theorem witness_PcAndStatusAfterAnInstruction :
    l1.isRunning = true ∧
    ∀ i ∈ ([.add .position .position .position, .mul .position .position .position,
      .lessThan .position .position .position, .equals .position .position .position,
      .read .position, .write .position, .adjustRelativeBase .position,
      .jumpIfTrue .position .position, .jumpIfFalse .position .position, .halt, .skip] :
      List Instr), (look State.status (exec i l1)).isSome = true := by decide

theorem witness_OnlyAdjustRelativeBaseChangesRb :
    look (fun t => decide (t.rb ≠ (launched [109, 5] 0 []).rb)) (step (launched [109, 5] 0 [])) =
      some true := by decide

/-- The Add of 95 L1-2's shape: it writes the word 99 where the next fetch reads. -/
theorem witness_WrittenWordIsWhatTheNextFetchReads :
    (launched [1101, 90, 9, 4, 0] 0 []).mem.wf ∧ (launched [1101, 90, 9, 4, 0] 0 []).isRunning = true ∧
    dest (launched [1101, 90, 9, 4, 0] 0 []) 3 .position = .ok 4 ∧
    look State.isRunning (exec (.add .immediate .immediate .position)
      (launched [1101, 90, 9, 4, 0] 0 [])) = some true ∧
    operand (launched [1101, 90, 9, 4, 0] 0 []) 1 .immediate = .ok 90 ∧
    operand (launched [1101, 90, 9, 4, 0] 0 []) 2 .immediate = .ok 9 ∧
    wordOfInt ((90 : Word).toInt + (9 : Word).toInt) = 99 ∧
    decode Config.default 99 = .instr .halt := by decide

theorem witness_UnwrittenMemorySkipsForEver :
    ((launched [1105, 1, 100] 0 []).setPc 100).status = .running ∧
    ((launched [1105, 1, 100] 0 []).setPc 100).cfg.overflowRegion = .enabled ∧
    ∀ a, 100 ≤ a → ((launched [1105, 1, 100] 0 []).setPc 100).mem.peek a = 0 := by
  refine ⟨rfl, rfl, fun a h => ?_⟩
  show (if a < 3 then _ else _) = _
  rw [if_neg (by omega)]
  rfl

/-- A destination that resolves and one that does not. -/
theorem witness_FourWordInstructionsFrame :
    (l1.mem.wf ∧ look State.isRunning (exec (.add .position .position .position) l1) = some true ∧
      dest l1 3 .position = .ok 3 ∧ (4 : Nat) ≠ 3) ∧
    ((launched [1101, 1, 2, -3] 0 []).mem.wf ∧
      look State.isRunning (exec (.mul .immediate .immediate .position) (launched [1101, 1, 2, -3] 0 [])) =
        some false ∧
      dest (launched [1101, 1, 2, -3] 0 []) 3 .position = .error (.negativeAddress (-3))) := by decide

theorem witness_InstructionsThatStoreNothingFrame :
    look State.isRunning (exec (.jumpIfTrue .immediate .immediate) (launched [1105, 1, 4] 0 [])) =
      some true ∧
    look State.isRunning (exec (.adjustRelativeBase .immediate) (launched [109, 5] 0 [])) = some true ∧
    look State.isRunning (exec .halt l1) = some false := by decide

theorem witness_ReadFrame :
    ((launched [3, 0, 99] 0 [42]).mem.wf ∧ (launched [3, 0, 99] 0 [42]).isRunning = true ∧
      look State.isRunning (exec (.read .position) (launched [3, 0, 99] 0 [42])) = some true ∧
      dest (launched [3, 0, 99] 0 [42]) 1 .position = .ok 0 ∧
      (launched [3, 0, 99] 0 [42]).reader ≠ .channel 0) ∧
    (readerOn Config.default [3, 5] (toReader Config.default [4] true)).channels[0]? =
      some (toReader Config.default [4] true) ∧
    look State.isRunning (exec (.read .position)
      (readerOn Config.default [3, 5] (toReader Config.default [4] true))) = some true ∧
    dest (launched [3, -1, 99] 0 [5]) 1 .position = .error (.negativeAddress (-1)) ∧
    look State.isRunning (exec (.read .position) (launched [3, -1, 99] 0 [5])) = some false := by decide

theorem witness_WriteFrame :
    (writerOn capacityTwo [104, 8] (toWriter capacityTwo [1] true)).isRunning = true ∧
    look State.isRunning (exec (.write .immediate)
      (writerOn capacityTwo [104, 8] (toWriter capacityTwo [1] true))) = some true ∧
    (launched [104, 8] 0 []).writer ≠ .channel 0 ∧
    look State.isRunning (exec (.write .immediate) (launched [104, 8] 0 [])) = some true := by decide

/-- A bounded channel at its capacity, bound to the Reader of a Running core. -/
theorem witness_StepKeepsWellFormed :
    (readerOn capacityTwo [3, 5] (toReader capacityTwo [1, 2] true)).wf ∧
    look State.isRunning (step (readerOn capacityTwo [3, 5] (toReader capacityTwo [1, 2] true))) =
      some true := by decide

theorem witness_WellFormedCoreAlwaysAnswers :
    (writerOn capacityTwo [104, 8] (toWriter capacityTwo [1, 2] true)).wf := by decide

/-- A pre-seeded channel launch and a Fixed Sequence one with a word preset twice. -/
theorem witness_BootGivesTheLaunchedCore :
    (ringOfOne.cfg.wellFormed = true ∧ (boot ringOfOne).isSome = true ∧
      (∀ a ∈ ringOfOne.acts, a ≠ .receive 0) ∧
      ringOfOne.acts.filterMap (HostAct.sentOn 0) = [5, 0]) ∧
    (fixedSeqLaunch.cfg.wellFormed = true ∧ (boot fixedSeqLaunch).isSome = true ∧
      fixedSeqLaunch.words = [(9, 7), (1, 6)] ++ (9, 8) :: [] ∧ ∀ p ∈ fixedSeqLaunch.words, p.1 ≠ 0) ∧
    (9223372036854775808 : Int) ∈ ({ ringOfOne with image := [9223372036854775808] } : Launch).image ∧
    ¬ FitsInt64 9223372036854775808 := by decide

theorem witness_ChannelsAreFifoAndNeverReopen :
    (readerOn capacityTwo [3, 5] (toReader capacityTwo [1, 2] false)).channels[0]? =
      some (toReader capacityTwo [1, 2] false) ∧
    (toReader capacityTwo [1, 2] false).senderOpen = false ∧
    look (fun t => (t.channels[0]?).map Channel.senderOpen)
      (step (readerOn capacityTwo [3, 5] (toReader capacityTwo [1, 2] false))) = some (some false) ∧
    (toWriter capacityTwo [1, 2] false).receiverOpen = false := by decide

/-- Two cores of a chain (95 P9): core 0 writes channel 0, which core 1 reads. -/
def chain : Network where
  cores := [
    { loadImage Config.default (words [104, 8, 99]) with writer := .channel 0 },
    { loadImage Config.default (words [3, 5, 99]) with reader := .channel 0 } ]
  channels := [⟨[], .unbounded, true, false, true, false⟩, ⟨[], .unbounded, false, true, false, true⟩]

/-- Core 0 steps; it does not use channel 1; `p` is the chain without its core 1. -/
theorem witness_CoresInteractOnlyThroughTheirChannels :
    (chain.core 0).isSome = true ∧ (chain.coreStep 0).isSome = true ∧
    ((chain.core 0).map fun s => decide (s.writer = .channel 0 ∧ s.reader = .disabled)) = some true ∧
    (Network.mk (chain.cores.take 1) chain.channels).cores[0]? = chain.cores[0]? := by decide

theorem chain_core (k : Nat) (s : State) (h : chain.core k = some s) :
    (k = 0 ∧ chain.core 0 = some s) ∨ (k = 1 ∧ chain.core 1 = some s) := by
  match k with
  | 0 => exact .inl ⟨rfl, h⟩
  | 1 => exact .inr ⟨rfl, h⟩
  | k + 2 => simp [Network.core, chain] at h

theorem chain_wf : chain.wf := by
  refine ⟨fun k s h => ?_, fun j k s t c hjk hs ht => ?_, fun c ch hc => ?_⟩
  · rcases chain_core k s h with ⟨-, h⟩ | ⟨-, h⟩ <;> cases h <;> decide
  · rcases chain_core j s hs with ⟨rfl, hs⟩ | ⟨rfl, hs⟩ <;>
      rcases chain_core k t ht with ⟨rfl, ht⟩ | ⟨rfl, ht⟩ <;>
      first
        | exact absurd rfl hjk
        | (cases hs; cases ht; exact ⟨by simp [State.setChannels, loadImage, State.reset],
            by simp [State.setChannels, loadImage, State.reset]⟩)
  · match c, hc with
    | 0, hc => cases hc; exact ⟨fun _ => ⟨1, _, rfl, rfl, rfl⟩, fun _ => ⟨0, _, rfl, rfl, rfl⟩⟩
    | 1, hc => cases hc; exact ⟨nofun, nofun⟩
    | c + 2, hc => simp [chain] at hc

theorem witness_EveryAgentKeepsTheNetworkWellFormed :
    chain.wf ∧ (chain.act (.core 0)).isSome = true ∧
    (chain.act (.host (.send 1 5))).isSome = true := ⟨chain_wf, by decide, by decide⟩

/-- Every act; and each clause about a network at the chain below. -/
theorem witness_HostActsObeyTheQueueRules :
    (hostAct (.send 0 9) [toReader Config.default [] true]).isSome = true ∧
    (hostAct (.receive 0) [toWriter Config.default [7] true]).isSome = true ∧
    (hostAct (.releaseSender 0) [toReader Config.default [] true]).isSome = true ∧
    (toWriter Config.default [7] true).senderHost = false ∧
    chain.wf ∧ ((chain.core 0).map fun s => decide (s.isRunning = true ∧ s.writer = .channel 0)) =
      some true ∧
    ((chain.core 1).map fun s => decide (s.isRunning = true ∧ s.reader = .channel 0)) = some true ∧
    (toReader capacityTwo [1] true).senderHost = true ∧
    (toReader capacityTwo [1] true).receiverOpen = true ∧ (toReader capacityTwo [1] true).full = false ∧
    (toWriter Config.default [7] true).receiverHost = true ∧
    (toWriter Config.default [7] true).receiverPort = false :=
  ⟨by decide, by decide, by decide, by decide, chain_wf, by decide, by decide, rfl, rfl, rfl, rfl, rfl⟩

/-- An Add and a Halt, as a launch of one core and as a network of one. -/
def addHalt : Launch where
  cfg      := allFault
  image    := [1101, 1, 2, 5, 99]
  rb       := 0
  words    := []
  channels := 0
  reader   := .disabled
  writer   := .disabled
  acts     := []

def addHaltNetwork : NetworkLaunch := ⟨addHalt.cfg, [addHalt.toCoreLaunch], 0, []⟩

/-- The three states of `addHalt`'s run under the defaults. -/
def addHaltRun : List State :=
  [loadImage Config.default (words addHalt.image),
   ((loadImage Config.default (words addHalt.image)).setMem ⟨words addHalt.image, [(5, 3)]⟩).setPc 4,
   (((loadImage Config.default (words addHalt.image)).setMem ⟨words addHalt.image, [(5, 3)]⟩).setPc
     4).setStatus .halted]

theorem addHaltRun_closed : ∀ s ∈ addHaltRun, (s.isRunning = true → s.wellFormedStep = true) ∧
    ∃ t ∈ addHaltRun, step s = .next t ∧ s.channels = [] := by
  have h : ∀ s ∈ addHaltRun, (s.isRunning = true → s.wellFormedStep = true) ∧ s.channels = [] ∧
      (look (fun t => decide (t ∈ addHaltRun)) (step s)) = some true := by decide
  intro s hs
  obtain ⟨h1, h2, h3⟩ := h s hs
  cases ht : step s with
  | next t => rw [ht] at h3; exact ⟨h1, t, by simpa [look] using h3, rfl, h2⟩
  | fault _ => rw [ht] at h3; simp [look] at h3
  | refused _ => rw [ht] at h3; simp [look] at h3

theorem addHalt_wellFormedRun : addHalt.wellFormedRun := by
  intro s hs k t ht hr
  have h0 : boot { addHalt with cfg := addHalt.cfg.openDefaults } = addHaltRun[0]? := by decide
  have hmem : s ∈ addHaltRun := List.mem_of_getElem? (h0.symm.trans hs)
  obtain ⟨u, hu, hm⟩ := run_keeps (P := (· ∈ addHaltRun))
    (fun s h => (addHaltRun_closed s h).2.imp fun t h => ⟨h.2.1, h.1⟩) k s hmem
  cases hu.symm.trans ht
  exact (addHaltRun_closed _ hm).1 hr

theorem addHaltNetwork_wellFormedRun : addHaltNetwork.wellFormedRun := by
  intro n hn
  have h0 : bootNetwork { addHaltNetwork with cfg := addHaltNetwork.cfg.openDefaults } =
      some ⟨addHaltRun.take 1, []⟩ := by decide
  cases hn.symm.trans h0
  have key : ∀ (gs : List Agent) (s : State) (m : Network), s ∈ addHaltRun →
      Network.run ⟨[s], []⟩ gs = some m → ∃ t ∈ addHaltRun, m = ⟨[t], []⟩ := by
    intro gs
    induction gs with
    | nil => intro s m hs h; cases h; exact ⟨s, hs, rfl⟩
    | cons g gs ih =>
      intro s m hs h
      obtain ⟨q, hq, h⟩ := Option.bind_eq_some_iff.1 h
      have : ∃ t ∈ addHaltRun, q = ⟨[t], []⟩ := by
        cases g with
        | core k =>
          obtain ⟨s', t, hk, hst, rfl⟩ := Network.coreStep_some hq
          obtain ⟨b, hb, rfl⟩ := Network.core_some hk
          obtain ⟨t', ht', hst', hc⟩ := (addHaltRun_closed s hs).2
          obtain ⟨t'', -, -, hc'⟩ := (addHaltRun_closed t' ht').2
          match k with
          | 0 =>
            cases hb
            have e : s.setChannels [] = s := by rw [← hc]; rfl
            rw [show (Network.mk [s] []).channels = [] from rfl, e, hst'] at hst
            obtain rfl : t' = t := by injection hst
            refine ⟨t', ht', ?_⟩
            have e' : t'.setChannels [] = t' := by rw [← hc']; rfl
            simp [Network.setCore, e', hc']
          | k + 1 => simp at hb
        | host a =>
          obtain ⟨cs, hcs, rfl⟩ := Option.map_eq_some_iff.1 hq
          have : cs = [] := List.length_eq_zero_iff.1 (hostAct_some hcs).1
          exact ⟨s, hs, by rw [this]⟩
      obtain ⟨t, ht, rfl⟩ := this
      exact ih t m ht h
  intro gs m k s hm hk hr
  obtain ⟨t, ht, rfl⟩ := key gs _ m (by decide) hm
  obtain ⟨b, hb, rfl⟩ := Network.core_some hk
  match k with
  | 0 =>
    cases hb
    obtain ⟨-, -, -, hc⟩ := (addHaltRun_closed t ht).2
    have e : t.setChannels [] = t := by rw [← hc]; rfl
    rw [show (Network.mk [t] []).channels = [] from rfl, e] at hr ⊢
    exact (addHaltRun_closed t ht).1 hr
  | k + 1 => simp at hb

theorem witness_OpenParametersAreIrrelevantToAWellFormedRun :
    (l1.isRunning = true ∧ l1.wellFormedStep = true ∧ sameBlock l1.cfg wrapping ∧
      sameBlock l1.cfg allFault ∧ look State.isRunning (step l1) = some true) ∧
    (addHalt.wellFormedRun ∧ sameBlock addHalt.cfg wrapping ∧
      (boot { addHalt with cfg := addHalt.cfg.openDefaults }).isSome = true) ∧
    addHaltNetwork.wellFormedRun ∧ sameBlock addHaltNetwork.cfg wrapping ∧
      (bootNetwork { addHaltNetwork with cfg := addHaltNetwork.cfg.openDefaults }).isSome = true :=
  ⟨⟨rfl, by decide, ⟨rfl, rfl⟩, ⟨rfl, rfl⟩, by decide⟩, ⟨addHalt_wellFormedRun, ⟨rfl, rfl⟩, by decide⟩,
    addHaltNetwork_wellFormedRun, ⟨rfl, rfl⟩, by decide⟩

/-- A run that meets an overflow, or a mode digit above 2, is not well formed (95 section 4). -/
theorem test_notWellFormed :
    (launched [1101, 9223372036854775807, 1, 4] 0 []).wellFormedStep = false ∧
    (launched [20199, 0] 0 []).wellFormedStep = true ∧
    (launched [399] 0 []).wellFormedStep = false ∧
    (launched [-399] 0 []).wellFormedStep = true := by decide

/-- A Write at a channel of two that is full, whose receiving side the host holds: with an operand that
can be read and with one that cannot. -/
theorem witness_WaitingWriteIsLiftedByReceiveOrClose :
    ((writerOn capacityTwo [104, 8] (toWriter capacityTwo [1, 2] true)).wf ∧
      (writerOn capacityTwo [104, 8] (toWriter capacityTwo [1, 2] true)).waiting = true ∧
      (writerOn capacityTwo [104, 8] (toWriter capacityTwo [1, 2] true)).fetchDecode =
        .ok (.write .immediate) ∧
      operand (writerOn capacityTwo [104, 8] (toWriter capacityTwo [1, 2] true)) 1 .immediate = .ok 8) ∧
    ((writerOn capacityTwo [4, -1] (toWriter capacityTwo [1, 2] true)).waiting = true ∧
      operand (writerOn capacityTwo [4, -1] (toWriter capacityTwo [1, 2] true)) 1 .position =
        .error (.negativeAddress (-1))) ∧
    (hostAct (.receive 0) [toWriter capacityTwo [1, 2] true]).isSome = true ∧
    (hostAct (.releaseReceiver 0) [toWriter capacityTwo [1, 2] true]).isSome = true ∧
    (toWriter capacityTwo [1, 2] true).receiverPort = false := by decide

theorem witness_BootedNetworkIsWellFormed :
    ringOfTwo.cfg.wellFormed = true ∧ (bootNetwork ringOfTwo).isSome = true ∧
    (ringOfTwo.cores[1]?).isSome = true ∧ (∀ a ∈ ringOfTwo.acts, a ≠ .receive 1) ∧
    ringOfTwo.acts.filterMap (HostAct.sentOn 1) = [0] := by decide

/-- The duties of the launches above, and pre-seeding up to the capacity of two. -/
theorem witness_duties :
    ringOfOne.duties ringOfOne.cfg ringOfOne.channels ∧
    fixedSeqLaunch.duties fixedSeqLaunch.cfg fixedSeqLaunch.channels ∧
    PreSeeds ringOfOne.cfg ringOfOne.channels ringOfOne.acts ∧
    (∀ cl ∈ ringOfTwo.cores, cl.duties ringOfTwo.cfg ringOfTwo.channels) ∧
    PreSeeds ringOfTwo.cfg ringOfTwo.channels ringOfTwo.acts ∧
    ∀ (j k : Nat) (a b : CoreLaunch) (c : Nat), j ≠ k → ringOfTwo.cores[j]? = some a →
      ringOfTwo.cores[k]? = some b → (a.reader = .channel c → b.reader ≠ .channel c) ∧
        (a.writer = .channel c → b.writer ≠ .channel c) := by
  refine ⟨⟨by decide, by decide, ?_, ?_⟩, ⟨by decide, by decide, ?_, ?_⟩,
    ⟨ringOfOne.acts, [], by decide, ?_, ?_, by simp⟩, ?_, ⟨[.send 1 0], [.releaseReceiver 0], rfl, ?_, ?_, ?_⟩, ?_⟩
  · intro c h; cases h; decide
  · intro c h; cases h; decide
  · intro c h; cases h
  · intro c h; cases h
  · intro a ha; simp [ringOfOne] at ha; rcases ha with rfl | rfl <;> exact ⟨0, _, rfl, by decide⟩
  · intro c n h
    cases h
    by_cases hc : c = 0
    · subst hc; decide
    · simp [ringOfOne, HostAct.sentOn, Ne.symm hc]
  · intro cl h
    simp [ringOfTwo] at h
    rcases h with rfl | rfl <;>
      exact ⟨by decide, by decide, fun c h => by cases h; decide, fun c h => by cases h; decide⟩
  · intro a ha; simp at ha; subst ha; exact ⟨1, 0, rfl, by decide⟩
  · intro c n h; cases h
  · intro a ha; simp at ha; subst ha; exact ⟨0, .inr rfl⟩
  · intro j k a b c hjk hj hk
    match j, k with
    | 0, 0 => exact absurd rfl hjk
    | 1, 1 => exact absurd rfl hjk
    | 0, 1 => cases hj; cases hk; exact ⟨by simp; omega, by simp; omega⟩
    | 1, 0 => cases hj; cases hk; exact ⟨by simp; omega, by simp; omega⟩
    | j + 2, _ => simp [ringOfTwo] at hj
    | 0, k + 2 => simp [ringOfTwo] at hk
    | 1, k + 2 => simp [ringOfTwo] at hk

/-- The end of 95 P9, cut to its last core: it has halted, and the host's receive gets 7. -/
def chainEnd : Network where
  cores    := [{ loadImage Config.default (words [99]) with status := .halted, writer := .channel 0 }]
  channels := [⟨[7], .unbounded, false, false, false, true⟩]

theorem chainEnd_core (k : Nat) (s : State) (h : chainEnd.core k = some s) :
    chainEnd.core 0 = some s := by
  match k with
  | 0 => exact h
  | k + 1 => simp [Network.core, chainEnd] at h

theorem chainEnd_wf : chainEnd.wf := by
  refine ⟨fun k s h => ?_, fun j k s t c hjk hs ht => ?_, fun c ch hc => ?_⟩
  · have h := chainEnd_core k s h
    cases h
    decide
  · match j, k with
    | 0, 0 => exact absurd rfl hjk
    | 0, k + 1 => simp [Network.core, chainEnd] at ht
    | j + 1, _ => simp [Network.core, chainEnd] at hs
  · match c, hc with
    | 0, hc => cases hc; exact ⟨nofun, nofun⟩
    | c + 1, hc => simp [chainEnd] at hc

theorem witness_NetworkRunEndsWithItsCores :
    chainEnd.wf ∧ chainEnd.ended = true ∧ (chainEnd.coreStep 0).isSome = true ∧
    (chainEnd.act (.host (.receive 0))).isSome = true ∧
    ((chainEnd.channels[0]?).map fun ch => (ch.receiverHost, ch.queue)) = some (true, [7]) ∧
    ((chainEnd.finalReceive 0).map Prod.fst) = some 7 ∧ chain.ended = false :=
  ⟨chainEnd_wf, by decide, by decide, by decide, by decide, by decide, by decide⟩

end Sys2Proof.Tests
end

