-- ==== Sys2Proof/Proofs/Memory.lean ====
section
/-! PROOFS. Memory (20_memory.md R42 to R47): what a read, a write, an operand's resolution and a source
operand answer, case by case, and the statements about them. -/

namespace Sys2Proof.Machine

/-! ### What the memory operations answer -/

/-- Since overflow addresses rise strictly, an entry at `a` is the only one and is the word read. -/
theorem overflowGet_of_mem {a : Nat} {v : Word} {l : List (Nat × Word)}
    (hl : l.Pairwise fun x y => x.1 < y.1) (hv : (a, v) ∈ l) : overflowGet a l = v := by
  induction l with
  | nil => cases hv
  | cons c rest ih =>
    obtain ⟨hc, hrest⟩ := List.pairwise_cons.1 hl
    rcases List.mem_cons.1 hv with rfl | hv
    · simp [overflowGet]
    · have hne : a ≠ c.1 := (hc _ hv).ne'
      simp [overflowGet, hne, ih hrest hv]

theorem overflowGet_of_not_mem {a : Nat} {l : List (Nat × Word)} (h : ∀ v, (a, v) ∉ l) :
    overflowGet a l = 0 := by
  induction l with
  | nil => rfl
  | cons c rest ih =>
    obtain ⟨b, x⟩ := c
    have hne : a ≠ b := by
      rintro rfl
      exact h x List.mem_cons_self
    have hrest : ∀ v, (a, v) ∉ rest := fun v hv => h v (List.mem_cons_of_mem _ hv)
    simp [overflowGet, hne, ih hrest]

theorem Memory.peek_of_lt {m : Memory} {a : Nat} (h : a < m.store.length) :
    m.peek a = m.store[a] := by
  simp [Memory.peek, Memory.size, h]

theorem Memory.peek_of_le {m : Memory} {a : Nat} (h : m.store.length ≤ a) :
    m.peek a = overflowGet a m.overflow :=
  if_neg (Nat.not_lt.2 h)

theorem Memory.accessible_iff {cfg : Config} {m : Memory} {a : Nat} :
    m.accessible cfg a = true ↔ a < m.size ∨ cfg.overflowRegion = .enabled := by
  simp [Memory.accessible]

theorem Memory.accessible_disabled {cfg : Config} {m : Memory} {a : Nat} (ha : m.size ≤ a)
    (hc : cfg.overflowRegion = .disabled) : m.accessible cfg a = false := by
  simp [Memory.accessible, hc, ha]

theorem Memory.write_of_accessible {cfg : Config} {m : Memory} {a : Nat}
    (h : m.accessible cfg a = true) (v : Word) : m.write cfg a v = .ok (m.poke a v) :=
  if_pos h

theorem Memory.write_of_not_accessible {cfg : Config} {m : Memory} {a : Nat}
    (h : m.accessible cfg a = false) (v : Word) : m.write cfg a v = .error (.indexNotFound a) := by
  rw [Memory.write, h]
  rfl

/-- A write leaves every read at another address as it was, an error of that read included. -/
theorem Memory.read_poke_other {m : Memory} (h : m.wf) {a b : Nat} (hab : b ≠ a) (cfg : Config)
    (v : Word) : (m.poke a v).read cfg b = m.read cfg b := by
  rw [Memory.read, Memory.read, Memory.accessible_of_size (m.size_poke a v),
    Memory.peek_poke_other h hab]

/-- Settles O9: the word of the store, the overflow entry, 0, or the error, by the side of `N` the
address is on. -/
theorem memReadByAddress : Obligations.MemReadByAddress := by
  rintro cfg m a ⟨hsorted, -⟩
  refine ⟨fun ha => ?_, fun ha hc => ?_, fun ha hc => ?_⟩
  · exact Memory.read_ok.2 ⟨Memory.accessible_iff.2 (.inl ha), Memory.peek_of_lt ha⟩
  · have hacc := Memory.accessible_enabled hc m a
    have hpeek := Memory.peek_of_le ha
    exact ⟨fun v hv => Memory.read_ok.2 ⟨hacc, hpeek.trans (overflowGet_of_mem hsorted hv)⟩,
      fun hno => Memory.read_ok.2 ⟨hacc, hpeek.trans (overflowGet_of_not_mem hno)⟩⟩
  · exact Memory.read_error.2 ⟨Memory.accessible_disabled ha hc, rfl⟩

/-- Settles O10: a write that succeeds is `Memory.poke`, which keeps the canonical form and `N` and
changes one word. -/
theorem memWriteChangesOneWord : Obligations.MemWriteChangesOneWord := by
  intro cfg m a v hwf
  refine ⟨fun h => ?_, fun ha hc => ?_⟩
  · have hacc : m.accessible cfg a = true := Memory.accessible_iff.2 h
    have hacc' : (m.poke a v).accessible cfg a = true := by
      rw [Memory.accessible_of_size (m.size_poke a v), hacc]
    exact ⟨m.poke a v, Memory.write_of_accessible hacc v, Memory.poke_wf hwf a v, m.size_poke a v,
      Memory.read_ok.2 ⟨hacc', Memory.peek_poke_same hwf a v⟩,
      fun b hb => Memory.read_poke_other hwf hb cfg v⟩
  · exact Memory.write_of_not_accessible (Memory.accessible_disabled ha hc) v

/-! ### What a mode resolves an operand word to -/

section Resolve

variable {s : State} {i : Nat} {w : Word}

theorem resolve_position_load_error {e : ErrorValue} (h : s.load i = .error e) :
    resolve s i .position = .error e :=
  bind_error_iff.2 (.inl h)

theorem resolve_relative_load_error {e : ErrorValue} (h : s.load i = .error e) :
    resolve s i .relative = .error e :=
  bind_error_iff.2 (.inl h)

theorem resolve_position (h : s.load i = .ok w) : resolve s i .position = addressOf w := by
  rw [resolve, h, ok_bind]

theorem resolve_relative (h : s.load i = .ok w) : resolve s i .relative =
    (chk64 s.cfg .relativeAddress (w.toInt + s.rb.toInt) >>= addressOf) := by
  rw [resolve, h, ok_bind]

theorem resolve_relative_fits (h : s.load i = .ok w) (hf : FitsInt64 (w.toInt + s.rb.toInt)) :
    resolve s i .relative = addressOf (wordOfInt (w.toInt + s.rb.toInt)) := by
  rw [resolve_relative h, chk64_fits hf, ok_bind]

theorem resolve_relative_nonneg (h : s.load i = .ok w) (hf : FitsInt64 (w.toInt + s.rb.toInt))
    (h0 : 0 ≤ w.toInt + s.rb.toInt) :
    resolve s i .relative = .ok (w.toInt + s.rb.toInt).toNat := by
  have hsum := toInt_wordOfInt hf
  rw [resolve_relative_fits h hf, addressOf_nonneg (by rwa [hsum]), hsum]

theorem resolve_relative_neg (h : s.load i = .ok w) (hf : FitsInt64 (w.toInt + s.rb.toInt))
    (h0 : w.toInt + s.rb.toInt < 0) : resolve s i .relative =
      .error (.negativeAddress (wordOfInt (w.toInt + s.rb.toInt))) := by
  rw [resolve_relative_fits h hf, addressOf_neg (by rwa [toInt_wordOfInt hf])]

theorem resolve_relative_fault (h : s.load i = .ok w)
    (hf : ¬ FitsInt64 (w.toInt + s.rb.toInt)) (hc : s.cfg.arithOverflow = .fault) :
    resolve s i .relative = .error (.arithmeticOverflow .relativeAddress) := by
  rw [resolve_relative h, chk64_fault hf hc, error_bind]

theorem resolve_relative_wrap (h : s.load i = .ok w) (hc : s.cfg.arithOverflow = .wrap) :
    resolve s i .relative = addressOf (wordOfInt (w.toInt + s.rb.toInt)) := by
  rw [resolve_relative h, chk64_wrap hc, ok_bind]

end Resolve

/-- Settles O12: one rule of resolution for each clause. -/
theorem resolveByMode : Obligations.ResolveByMode := by
  refine fun s i => ⟨rfl,
    fun e he => ⟨resolve_position_load_error he, resolve_relative_load_error he⟩,
    fun w hw => ⟨fun h0 => ?_, fun h0 => ?_, fun hf h0 => ?_, fun hf h0 => ?_, fun hf hc => ?_,
      fun _ hc => ?_⟩⟩
  · rw [resolve_position hw, addressOf_nonneg h0]
  · rw [resolve_position hw, addressOf_neg h0]
  · exact resolve_relative_nonneg hw hf h0
  · exact ⟨_, toInt_wordOfInt hf, resolve_relative_neg hw hf h0⟩
  · exact resolve_relative_fault hw hf hc
  · exact ⟨_, wordOfInt_congr _, resolve_relative_wrap hw hc⟩

/-! ### Source operands -/

theorem operand_of_resolve {s : State} {k a : Nat} {m : Mode}
    (h : resolve s (s.pc + k) m = .ok a) : operand s k m = s.load a := by
  rw [operand, h, ok_bind]

theorem operand_of_resolve_error {s : State} {k : Nat} {m : Mode} {e : ErrorValue}
    (h : resolve s (s.pc + k) m = .error e) : operand s k m = .error e :=
  bind_error_iff.2 (.inl h)

/-- Settles O13: the operand is the load at the resolved address, and what that address is in each mode
is the rule of the mode's resolution. -/
theorem operandByMode : Obligations.OperandByMode := by
  refine fun s k => ⟨fun _ _ => operand_of_resolve, fun _ _ => operand_of_resolve_error,
    operand_of_resolve rfl, fun w hw => ⟨fun h0 => ?_, fun hf h0 => ?_⟩⟩
  · exact operand_of_resolve ((resolve_position hw).trans (addressOf_nonneg h0))
  · exact operand_of_resolve (resolve_relative_nonneg hw hf h0)

end Sys2Proof.Machine
end

