-- ==== Sys2Proof/Proofs/Encoding.lean ====
section
/-! PROOFS. The Instruction Decoder (30_encoding.md R75 to R77): the words that are Skip, and what the
checked mode digits of a known opcode decide. -/

namespace Sys2Proof.Machine

/-! ### The words that decode to Skip -/

theorem decode_of_neg {w : Word} (h : w.toInt < 0) (cfg : Config) : decode cfg w = .instr .skip :=
  if_pos h

theorem decode_of_opcodeRow_none {w : Word} (h : opcodeRow (w.toNat % 100) = none) (cfg : Config) :
    decode cfg w = .instr .skip := by
  simp only [decode, h, ite_self]

/-- Settles O3: the decoder's first test. -/
theorem negativeWordsDecodeToSkip : Obligations.NegativeWordsDecodeToSkip :=
  fun cfg _ h => decode_of_neg h cfg

/-- Settles O4: no row of the opcode table has such an opcode. -/
theorem unknownOpcodesDecodeToSkip : Obligations.UnknownOpcodesDecodeToSkip :=
  fun cfg _ _ hop => decode_of_opcodeRow_none (opcodeRow_none hop) cfg

/-! ### Mode digits above 2 -/

/-- Whatever modes a row is given, the canonical word of the instruction it builds has the row's
opcode. -/
theorem encode_mod_of_opcodeRow {op a : Nat} {b : Mode → Mode → Mode → Instr}
    (h : opcodeRow op = some (a, b)) (m1 m2 m3 : Mode) :
    (encode (b m1 m2 m3)).toNat % 100 = op := by
  obtain ⟨-, -, -, hop, x, y, z, henc, -⟩ := opcodeRow_encode h m1 m2 m3
  rw [henc]
  exact (canonicalWord_digits hop x y z).1

/-- Settles O5: the word's opcode has a row of the arity of `i`, and the checked digits decide between
the parameter's answer and an instruction of that row. -/
theorem badModeDigitsFollowTheParameters : Obligations.BadModeDigitsFollowTheParameters := by
  intro cfg w i hi h0 hop
  obtain ⟨b, hrow⟩ := opcodeRow_of_encode hi hop
  obtain ⟨hgood, hbad⟩ := decode_of_row (cfg := cfg) h0 hrow
  refine ⟨fun ⟨k, hk, hd⟩ => ?_, fun hle => ?_⟩
  · exact hbad ⟨_, (mem_checkedDigits i.arity_le).2 ⟨k, hk, rfl⟩, hd⟩
  · have hchecked : ∀ d ∈ checkedDigits cfg.badDigitScope i.arity w.toNat, d ≤ 2 := by
      intro d hd
      obtain ⟨k, hk, rfl⟩ := (mem_checkedDigits i.arity_le).1 hd
      exact hle k hk
    obtain ⟨harity, hskip, -⟩ := opcodeRow_encode hrow (modeOfDigit (digit w.toNat 2))
      (modeOfDigit (digit w.toNat 3)) (modeOfDigit (digit w.toNat 4))
    exact ⟨_, hgood hchecked, hskip, harity, (encode_mod_of_opcodeRow hrow _ _ _).trans hop⟩

end Sys2Proof.Machine
end

