-- ==== Sys2Proof/Proofs/CoreIsolation.lean ====
section
/-! PROOFS. Cores interact only through their channels (41_io.md R138): a step leaves every channel its
core is not bound to as it was, and two copies of a core that see the same contents of its channels step
to two such copies again, whatever the other channels hold. -/

namespace Sys2Proof.Machine

/-! ### What a step leaves of the channels and the bindings -/

theorem PortMove.uses_iff {s u : State} (h : PortMove s u) (c : Nat) : u.uses c ↔ s.uses c := by
  obtain ⟨-, -, -, -, -, -, hreader, hwriter, -, -⟩ := h.frame
  exact or_congr (hreader c) (hwriter c)

theorem PortMove.channel_unused {s u : State} (h : PortMove s u) {c : Nat} (hc : ¬ s.uses c) :
    u.channels[c]? = s.channels[c]? := by
  cases hs : s.channels[c]? with
  | none =>
    obtain ⟨-, -, -, -, -, hlength, -, -, -, -⟩ := h.frame
    rw [List.getElem?_eq_none_iff, hlength]
    exact List.getElem?_eq_none_iff.1 hs
  | some ch =>
    obtain ⟨d, hd, -, hsame⟩ := h.channel c ch hs
    rw [hd, hsame hc]

theorem State.terminate_channel_unused {s : State} {c : Nat} (h : ¬ s.uses c) (st : Status) :
    (s.terminate st).channels[c]? = s.channels[c]? := by
  obtain ⟨hreader, hwriter⟩ := not_or.1 h
  rw [State.terminate_channels, releaseWriter_getElem?, if_neg hwriter, releaseReader_getElem?,
    if_neg hreader]

/-- No step binds a port to a channel or takes it off one (10 R28). -/
theorem step_uses_iff {s t : State} (h : step s = .next t) (c : Nat) : t.uses c ↔ s.uses c := by
  obtain ⟨u, hport, ⟨st, -, rfl⟩ | hmove⟩ := step_shape h
  · exact hport.uses_iff c
  · rw [← hport.uses_iff c, State.uses, State.uses, hmove.reader, hmove.writer]

theorem step_channel_unused {s t : State} (h : step s = .next t) {c : Nat} (hc : ¬ s.uses c) :
    t.channels[c]? = s.channels[c]? := by
  obtain ⟨u, hport, ⟨st, -, rfl⟩ | hmove⟩ := step_shape h
  · rw [State.terminate_channel_unused (mt (hport.uses_iff c).1 hc), hport.channel_unused hc]
  · rw [hmove.channels, hport.channel_unused hc]

/-! ### Two copies of a core -/

/-- `t` is the core `s` in other surroundings: only channels that `s` is not bound to may differ. -/
structure SameCore (s t : State) : Prop where
  core : t = s.setChannels t.channels
  used : ∀ c, s.uses c → t.channels[c]? = s.channels[c]?

/-- Two computations of a new state end in the same error, or in two copies of one core. -/
inductive SameAnswer : Except ErrorValue State → Except ErrorValue State → Prop where
  | ok {s t : State} (h : SameCore s t) : SameAnswer (.ok s) (.ok t)
  | error (e : ErrorValue) : SameAnswer (.error e) (.error e)

/-- Two port operations answer alike, and leave two copies of one core. -/
inductive SamePort {α : Type} : PortResult α → PortResult α → Prop where
  | done (x : α) {s t : State} (h : SameCore s t) : SamePort (.done x s) (.done x t)
  | error (e : ErrorValue) : SamePort (.error e) (.error e)
  | wait : SamePort .wait .wait
  | missing (c : Nat) : SamePort (.missing c) (.missing c)

/-- Two steps stop for the same reason, or lead to two copies of one core. -/
inductive SameOutcome :
    Host.Outcome State Fault Refusal → Host.Outcome State Fault Refusal → Prop where
  | next {s t : State} (h : SameCore s t) : SameOutcome (.next s) (.next t)
  | fault (r : Fault) : SameOutcome (.fault r) (.fault r)
  | refused (r : Refusal) : SameOutcome (.refused r) (.refused r)

theorem SameOutcome.exists_next {x y : Host.Outcome State Fault Refusal} {s : State}
    (h : SameOutcome x y) (hx : x = .next s) : ∃ t, y = .next t ∧ SameCore s t := by
  subst hx
  cases h with
  | next h => exact ⟨_, rfl, h⟩

/-! ### What two copies read alike -/

section Reads

variable {s t : State} (h : SameCore s t)
include h

theorem SameCore.mem_eq : t.mem = s.mem := by rw [h.core]; rfl
theorem SameCore.pc_eq : t.pc = s.pc := by rw [h.core]; rfl
theorem SameCore.rb_eq : t.rb = s.rb := by rw [h.core]; rfl
theorem SameCore.status_eq : t.status = s.status := by rw [h.core]; rfl
theorem SameCore.reader_eq : t.reader = s.reader := by rw [h.core]; rfl
theorem SameCore.writer_eq : t.writer = s.writer := by rw [h.core]; rfl
theorem SameCore.cfg_eq : t.cfg = s.cfg := by rw [h.core]; rfl

theorem SameCore.operand_eq (k : Nat) (m : Mode) : operand t k m = operand s k m :=
  operand_congr h.mem_eq h.pc_eq h.rb_eq h.cfg_eq k m

theorem SameCore.dest_eq (k : Nat) (m : Mode) : dest t k m = dest s k m :=
  dest_congr h.mem_eq h.pc_eq h.rb_eq h.cfg_eq k m

theorem SameCore.isRunning_eq : t.isRunning = s.isRunning := by
  rw [State.isRunning, State.isRunning, h.status_eq]

theorem SameCore.fetchDecode_eq : t.fetchDecode = s.fetchDecode := by rw [h.core]; rfl

theorem SameCore.reader_channel {c : Nat} (hr : s.reader = .channel c) :
    t.channels[c]? = s.channels[c]? := h.used c (.inl hr)

theorem SameCore.writer_channel {c : Nat} (hw : s.writer = .channel c) :
    t.channels[c]? = s.channels[c]? := h.used c (.inr hw)

theorem SameCore.writerBlocked_eq : t.writerBlocked = s.writerBlocked := by
  rw [State.writerBlocked, State.writerBlocked, h.writer_eq]
  cases hw : s.writer with
  | disabled => rfl
  | fixedSeq log => rfl
  | channel c => simp only [h.writer_channel hw]

end Reads

/-! ### What keeps two copies copies -/

section Updates

variable {s t : State} (h : SameCore s t)
include h

theorem SameCore.setMem (m : Memory) : SameCore (s.setMem m) (t.setMem m) :=
  ⟨by rw [h.core]; rfl, h.used⟩

theorem SameCore.setPc (p : Nat) : SameCore (s.setPc p) (t.setPc p) :=
  ⟨by rw [h.core]; rfl, h.used⟩

theorem SameCore.setRb (v : Word) : SameCore (s.setRb v) (t.setRb v) :=
  ⟨by rw [h.core]; rfl, h.used⟩

theorem SameCore.advance (k : Nat) : SameCore (s.advance k) (t.advance k) := by
  rw [State.advance, State.advance, h.pc_eq]
  exact h.setPc _

theorem SameCore.setReader_fixedSeq (q : List Word) :
    SameCore (s.setReader (.fixedSeq q)) (t.setReader (.fixedSeq q)) where
  core := by rw [h.core]; rfl
  used c hc := h.used c (.inr (hc.resolve_left nofun))

theorem SameCore.setWriter_fixedSeq (log : List Word) :
    SameCore (s.setWriter (.fixedSeq log)) (t.setWriter (.fixedSeq log)) where
  core := by rw [h.core]; rfl
  used c hc := h.used c (.inl (hc.resolve_right nofun))

/-- A channel is replaced in both, whether the core uses it or not: it is there in both or in neither. -/
theorem SameCore.setChannel {c : Nat} (hc : t.channels[c]? = s.channels[c]?) (ch : Channel) :
    SameCore (s.setChannels (s.channels.set c ch)) (t.setChannels (t.channels.set c ch)) where
  core := by rw [h.core]; rfl
  used d hd := by
    have hd' : t.channels[d]? = s.channels[d]? := h.used d hd
    by_cases e : c = d
    · subst e
      simp only [State.setChannels_channels, List.getElem?_set_self', hc]
    · simp only [State.setChannels_channels, List.getElem?_set_ne e, hd']

theorem SameCore.terminate (st : Status) : SameCore (s.terminate st) (t.terminate st) where
  core := by rw [h.core]; rfl
  used c hc := by
    have hc' : t.channels[c]? = s.channels[c]? := h.used c hc
    simp only [State.terminate_channels, releaseWriter_getElem?, releaseReader_getElem?,
      h.reader_eq, h.writer_eq, hc']

theorem SameCore.raise (e : ErrorValue) : SameCore (s.raise e) (t.raise e) := h.terminate _

end Updates

/-! ### Operations on two copies -/

/-- Two chains that begin with the same read go on with the same value. -/
theorem SameAnswer.bind_same {α : Type} (x : Except ErrorValue α)
    {f g : α → Except ErrorValue State} (h : ∀ a, SameAnswer (f a) (g a)) :
    SameAnswer (x >>= f) (x >>= g) := by
  cases x with
  | ok a => exact h a
  | error e => exact .error e

theorem SameAnswer.bind {x y : Except ErrorValue State} {f g : State → Except ErrorValue State}
    (hxy : SameAnswer x y) (h : ∀ s t, SameCore s t → SameAnswer (f s) (g t)) :
    SameAnswer (x >>= f) (y >>= g) := by
  cases hxy with
  | ok hst => exact h _ _ hst
  | error e => exact .error e

section Operations

variable {s t : State} (h : SameCore s t)
include h

theorem SameCore.settle {x y : Except ErrorValue State} (hxy : SameAnswer x y) :
    SameOutcome (settle s x) (settle t y) := by
  cases hxy with
  | ok hst => exact .next hst
  | error e => exact .next (h.raise e)

theorem SameCore.store (a : Nat) (v : Word) : SameAnswer (s.store a v) (t.store a v) := by
  rw [State.store, State.store, h.mem_eq, h.cfg_eq]
  cases s.mem.write s.cfg a v with
  | ok m => exact .ok (h.setMem m)
  | error e => exact .error e

theorem SameCore.jumpTo (w : Word) : SameAnswer (jumpTo s w) (jumpTo t w) := by
  unfold Machine.jumpTo
  split
  · exact .error _
  · exact .ok (h.setPc _)

theorem SameCore.readerRead : SamePort (readerRead s) (readerRead t) := by
  unfold Machine.readerRead
  rw [h.reader_eq]
  cases hr : s.reader with
  | disabled => exact .error _
  | fixedSeq q =>
    cases q with
    | nil => exact .error _
    | cons v q => exact .done v (h.setReader_fixedSeq q)
  | channel c =>
    have hch := h.reader_channel hr
    simp only [hch]
    cases s.channels[c]? with
    | none => exact .missing c
    | some ch =>
      cases hrec : ch.receive with
      | received v ch' => simpa only [hrec] using .done v (h.setChannel hch ch')
      | closed => simpa only [hrec] using .error _
      | empty => simpa only [hrec] using .wait

theorem SameCore.writerWrite (v : Word) : SamePort (writerWrite s v) (writerWrite t v) := by
  unfold Machine.writerWrite
  rw [h.writer_eq]
  cases hw : s.writer with
  | disabled => exact .error _
  | fixedSeq log => exact .done () (h.setWriter_fixedSeq _)
  | channel c =>
    have hch := h.writer_channel hw
    simp only [hch]
    cases s.channels[c]? with
    | none => exact .missing c
    | some ch =>
      cases hsend : ch.send v with
      | sent ch' => simpa only [hsend] using .done () (h.setChannel hch ch')
      | closed => simpa only [hsend] using .error _
      | full => simpa only [hsend] using .wait

theorem SameCore.afterPort {α : Type} {x y : PortResult α}
    {k : α → State → Host.Outcome State Fault Refusal} (hxy : SamePort x y)
    (hk : ∀ a u v, SameCore u v → SameOutcome (k a u) (k a v)) :
    SameOutcome (afterPort s x k) (afterPort t y k) := by
  cases hxy with
  | done a huv => exact hk a _ _ huv
  | error e => exact .next (h.raise e)
  | wait => exact .next h
  | missing c => exact .fault _

/-! ### Instructions on two copies -/

theorem SameCore.binaryToDest (f : Word → Word → Except ErrorValue Word) (m1 m2 m3 : Mode) :
    SameOutcome (binaryToDest f m1 m2 m3 s) (binaryToDest f m1 m2 m3 t) := by
  unfold Machine.binaryToDest
  rw [h.operand_eq, h.operand_eq, h.dest_eq]
  exact h.settle <| .bind_same _ fun a => .bind_same _ fun b => .bind_same _ fun d =>
    .bind_same _ fun r => .bind (h.store d r) fun _ _ huv => .ok (huv.advance 4)

theorem SameCore.jumpWhen (taken : Word → Bool) (m1 m2 : Mode) :
    SameOutcome (jumpWhen taken m1 m2 s) (jumpWhen taken m1 m2 t) := by
  unfold Machine.jumpWhen
  rw [h.operand_eq, h.operand_eq]
  refine h.settle <| .bind_same _ fun c => .bind_same _ fun w => ?_
  split
  · exact h.jumpTo w
  · exact .ok (h.advance 3)

theorem SameCore.execAdjustRelativeBase (m1 : Mode) :
    SameOutcome (execAdjustRelativeBase m1 s) (execAdjustRelativeBase m1 t) := by
  unfold Machine.execAdjustRelativeBase
  rw [h.operand_eq, h.cfg_eq, h.rb_eq]
  exact h.settle <| .bind_same _ fun v => .bind_same _ fun b => .ok ((h.setRb b).advance 2)

theorem SameCore.execRead (m1 : Mode) : SameOutcome (execRead m1 s) (execRead m1 t) := by
  refine h.afterPort h.readerRead fun v u u' hu => ?_
  rw [hu.dest_eq]
  exact hu.settle <| .bind_same _ fun d => .bind (hu.store d v) fun _ _ hx => .ok (hx.advance 2)

theorem SameCore.execWrite (m1 : Mode) : SameOutcome (execWrite m1 s) (execWrite m1 t) := by
  unfold Machine.execWrite
  rw [h.writerBlocked_eq, h.operand_eq]
  split
  · exact .next h
  · split
    · exact .next (h.raise _)
    · exact h.afterPort (h.writerWrite _) fun _ _ _ hu => .next (hu.advance 2)

theorem SameCore.exec (i : Instr) : SameOutcome (exec i s) (exec i t) := by
  cases i with
  | add m1 m2 m3 =>
    show SameOutcome (execAdd m1 m2 m3 s) (execAdd m1 m2 m3 t)
    rw [execAdd, execAdd, h.cfg_eq]
    exact h.binaryToDest _ m1 m2 m3
  | mul m1 m2 m3 =>
    show SameOutcome (execMul m1 m2 m3 s) (execMul m1 m2 m3 t)
    rw [execMul, execMul, h.cfg_eq]
    exact h.binaryToDest _ m1 m2 m3
  | read m1 => exact h.execRead m1
  | write m1 => exact h.execWrite m1
  | jumpIfTrue m1 m2 => exact h.jumpWhen wordIsTrue m1 m2
  | jumpIfFalse m1 m2 => exact h.jumpWhen wordIsFalse m1 m2
  | lessThan m1 m2 m3 => exact h.binaryToDest _ m1 m2 m3
  | equals m1 m2 m3 => exact h.binaryToDest _ m1 m2 m3
  | adjustRelativeBase m1 => exact h.execAdjustRelativeBase m1
  | halt => exact .next (h.terminate .halted)
  | skip => exact .next (h.advance 1)

/-- A step depends on nothing but the core and its own channels: two copies of a core step to two
copies of a core. -/
theorem SameCore.step : SameOutcome (step s) (step t) := by
  unfold Machine.step
  rw [h.isRunning_eq, h.fetchDecode_eq]
  split
  · split
    · exact h.exec _
    · exact .next (h.raise _)
  · exact .next h

end Operations

/-! ### Networks -/

theorem Network.core_of_cores {n : Network} {k : Nat} {b : State} (h : n.cores[k]? = some b) :
    n.core k = some (b.setChannels n.channels) := by
  rw [Network.core, h]
  rfl

theorem Network.coreStep_of_step {n : Network} {k : Nat} {s t : State} (hs : n.core k = some s)
    (ht : step s = .next t) : n.coreStep k = some (n.setCore k t) := by
  simp only [Network.coreStep, hs, ht]

@[simp] theorem Network.setCore_channels (n : Network) (k : Nat) (t : State) :
    (n.setCore k t).channels = t.channels := rfl

theorem Network.setCore_cores_self {n : Network} {k : Nat} {b : State} (h : n.cores[k]? = some b)
    (t : State) : (n.setCore k t).cores[k]? = some (t.setChannels []) :=
  List.getElem?_set_self (List.getElem?_eq_some_iff.1 h).1

theorem Network.setCore_cores_other (n : Network) {j k : Nat} (h : j ≠ k) (t : State) :
    (n.setCore k t).cores[j]? = n.cores[j]? :=
  List.getElem?_set_ne h.symm

/-- Settles O55: the step writes one entry of the cores and only used channels; and core `k` of `n` and of
`p`, each seeing its network's channels, are two copies of one core, so their steps lead to two copies. -/
theorem coresInteractOnlyThroughTheirChannels :
    Obligations.CoresInteractOnlyThroughTheirChannels := by
  intro n n' p k s hs hstep
  obtain ⟨s', t, hs', ht, rfl⟩ := Network.coreStep_some hstep
  obtain rfl : s = s' := Option.some.inj (hs.symm.trans hs')
  refine ⟨fun j hj => n.setCore_cores_other hj t, fun c hc => ?_, fun hcore hused => ?_⟩
  · obtain ⟨b, -, rfl⟩ := Network.core_some hs
    exact step_channel_unused ht hc
  · obtain ⟨b, hb, rfl⟩ := Network.core_some hs
    have hpb : p.cores[k]? = some b := hcore.trans hb
    have hcopy : SameCore (b.setChannels n.channels) (b.setChannels p.channels) := ⟨rfl, hused⟩
    obtain ⟨u, hu, htu⟩ := hcopy.step.exists_next ht
    refine ⟨p.setCore k u, Network.coreStep_of_step (Network.core_of_cores hpb) hu, ?_,
      fun c hc => htu.used c ((step_uses_iff ht c).2 hc)⟩
    rw [Network.setCore_cores_self hpb, Network.setCore_cores_self hb, htu.core]
    rfl

end Sys2Proof.Machine
end

