-- ==== Sys2Proof/Proofs/Exceptions.lean ====
section
/-! PROOFS. The errors (60_exceptions.md): when each is raised and taken, and, of every error that a
step can end in, what in the state before that step it comes from. -/

namespace Sys2Proof.Machine

/-! ### Words that stop no core -/

/-- Under the action skip the decoder never answers `Invalid` (30 R77, 60 R213). -/
theorem decode_instr_of_skip {cfg : Config} (hc : cfg.badDigitAction = .skip) (w : Word) :
    ∃ i, decode cfg w = .instr i := by
  cases h : decode cfg w with
  | instr i => exact ⟨i, rfl⟩
  | invalid v =>
    have hfault := (decode_invalid h).2
    rw [hc] at hfault
    cases hfault

/-- Settles O8: the decoder's two tests that answer Skip, Skip's meaning, and the default action. -/
theorem defaultDecodingNeverStops : Obligations.DefaultDecodingNeverStops := by
  refine ⟨fun w hw => ?_, fun s => rfl, fun w => decode_instr_of_skip rfl w⟩
  rcases hw with hneg | hop
  · exact decode_of_neg hneg _
  · exact decode_of_opcodeRow_none (opcodeRow_none hop) _

/-! ### Jumps -/

/-- A taken jump to a negative target takes the error, whatever makes it taken (42 R142). -/
theorem jumpWhen_negative {taken : Word → Bool} {m1 m2 : Mode} {s : State} {c w : Word}
    (hc : operand s 1 m1 = .ok c) (hw : operand s 2 m2 = .ok w) (ht : taken c = true)
    (h0 : w.toInt < 0) : jumpWhen taken m1 m2 s = .next (s.raise (.negativeJumpTarget w)) := by
  rw [jumpWhen, hc, ok_bind, hw, ok_bind, if_pos ht, jumpTo_error.2 ⟨h0, rfl⟩, settle_error]

/-- Settles O22: the condition makes each jump a taken one. -/
theorem takenJumpToNegativeTargetRaises : Obligations.TakenJumpToNegativeTargetRaises :=
  fun _ _ _ _ _ hc hw h0 => ⟨fun htrue => jumpWhen_negative hc hw (wordIsTrue_iff.2 htrue) h0,
    fun hfalse => jumpWhen_negative hc hw (wordIsFalse_iff.2 hfalse) h0⟩

/-! ### Ports -/

theorem readerRead_disabled {s : State} (h : s.reader = .disabled) :
    readerRead s = .error (.portDisabled .reader) := by
  rw [readerRead, h]

theorem writerWrite_disabled {s : State} (h : s.writer = .disabled) (v : Word) :
    writerWrite s v = .error (.portDisabled .writer) := by
  rw [writerWrite, h]

/-- The closed receiving side is looked at before the capacity (41 R128). -/
theorem writerWrite_receiver_closed {s : State} {c : Nat} {ch : Channel} (h : s.writer = .channel c)
    (hc : s.channels[c]? = some ch) (hclosed : ch.receiverOpen = false) (v : Word) :
    writerWrite s v = .error .writeToOutput := by
  rw [writerWrite_channel h hc, Channel.send_closed.2 hclosed]

/-- An exhausted Reader: a Fixed Sequence or a channel with no value left, of which none can come
(41 R125, R126). -/
theorem readerRead_readFromInput_iff {s : State} : readerRead s = .error .readFromInput ↔
    s.reader = .fixedSeq [] ∨ ∃ (c : Nat) (ch : Channel), s.reader = .channel c ∧
      s.channels[c]? = some ch ∧ ch.queue = [] ∧ ch.senderOpen = false := by
  constructor
  · intro h
    rcases readerRead_error h with ⟨-, he⟩ | ⟨hr, -⟩ | ⟨c, ch, hr, hc, hclosed, -⟩
    · cases he
    · exact .inl hr
    · exact .inr ⟨c, ch, hr, hc, Channel.receive_closed.1 hclosed⟩
  · rintro (hr | ⟨c, ch, hr, hc, hclosed⟩)
    · rw [readerRead, hr]
    · rw [readerRead_channel hr hc, Channel.receive_closed.2 hclosed]

/-- Read takes an error of the Reader before it looks at its destination (92 D8). -/
theorem execRead_port_error {s : State} {e : ErrorValue} (h : readerRead s = .error e) (m1 : Mode) :
    execRead m1 s = .next (s.raise e) := by
  rw [execRead, h, afterPort]

/-- Write takes an error of the Writer once its operand is read (60 R211). -/
theorem execWrite_port_error {m1 : Mode} {s : State} {v : Word} {e : ErrorValue}
    (hv : operand s 1 m1 = .ok v) (hw : writerWrite s v = .error e) :
    execWrite m1 s = .next (s.raise e) := by
  have hfree : s.writerBlocked = false := writerBlocked_of_write (by rw [hw]; simp)
  rw [execWrite_port hfree hv, hw, afterPort]

/-- Settles O28: what the port answers in each case, and that the instruction takes it. -/
theorem portErrorsAreTaken : Obligations.PortErrorsAreTaken :=
  ⟨fun _ m1 hr => execRead_port_error (readerRead_disabled hr) m1,
    fun _ _ v hv => ⟨fun hw => execWrite_port_error hv (writerWrite_disabled hw v),
      fun _ _ hw hc hclosed =>
        execWrite_port_error hv (writerWrite_receiver_closed hw hc hclosed v)⟩⟩

/-- Settles O29: the exhausted Readers, and that Read takes the error. -/
theorem readFromInputIsTaken : Obligations.ReadFromInputIsTaken :=
  ⟨fun _ => readerRead_readFromInput_iff, fun _ m1 h => execRead_port_error h m1⟩

/-! ### What an error comes from -/

/-- Why executing an instruction in `s` may end in an error (60 R201, the column of what raises it):
one of its operands, its exact result, its jump target or its port. -/
inductive InstrError (s : State) : Instr → ErrorValue → Prop where
  | address {i : Instr} {e : ErrorValue} (hi : 1 ≤ i.arity) (h : AddressError s.cfg s.mem e) :
      InstrError s i e
  | add {m1 m2 m3 : Mode} (h : s.cfg.arithOverflow = .fault) :
      InstrError s (.add m1 m2 m3) (.arithmeticOverflow .add)
  | mul {m1 m2 m3 : Mode} (h : s.cfg.arithOverflow = .fault) :
      InstrError s (.mul m1 m2 m3) (.arithmeticOverflow .mul)
  | adjustRelativeBase {m1 : Mode} (h : s.cfg.arithOverflow = .fault) :
      InstrError s (.adjustRelativeBase m1) (.arithmeticOverflow .adjustRelativeBase)
  | jumpIfTrue {m1 m2 : Mode} {w : Word} (h : w.toInt < 0) :
      InstrError s (.jumpIfTrue m1 m2) (.negativeJumpTarget w)
  | jumpIfFalse {m1 m2 : Mode} {w : Word} (h : w.toInt < 0) :
      InstrError s (.jumpIfFalse m1 m2) (.negativeJumpTarget w)
  | readDisabled {m1 : Mode} (h : s.reader = .disabled) :
      InstrError s (.read m1) (.portDisabled .reader)
  | readExhausted {m1 : Mode} (h : readerRead s = .error .readFromInput) :
      InstrError s (.read m1) .readFromInput
  | writeDisabled {m1 : Mode} (h : s.writer = .disabled) :
      InstrError s (.write m1) (.portDisabled .writer)
  | writeClosed {m1 : Mode} {v : Word} (h : writerWrite s v = .error .writeToOutput) :
      InstrError s (.write m1) .writeToOutput

/-- A status Errored is no status Running, which is what the cases without an error leave. -/
theorem not_errored_of_running {t : State} {e : ErrorValue} (h : t.status = .running) :
    t.status ≠ .errored e := by
  rw [h]
  exact Status.noConfusion

/-- The error a state has taken is the one it was given. -/
theorem errored_raise {s : State} {d e : ErrorValue} (h : (s.raise d).status = .errored e) : d = e :=
  Status.errored.inj h

section Running

variable {s t : State} {e : ErrorValue} (hs : s.status = .running) (ht : t.status = .errored e)
include hs ht

theorem binaryToDest_errored {f : Word → Word → Except ErrorValue Word} {m1 m2 m3 : Mode}
    (h : binaryToDest f m1 m2 m3 s = .next t) :
    AddressError s.cfg s.mem e ∨ ∃ a b, f a b = .error e := by
  rcases binaryToDest_next h with ⟨a, b, d, r, -, -, -, -, -, rfl⟩ | ⟨d, rfl, hd⟩
  · exact absurd ht (not_errored_of_running hs)
  · cases errored_raise ht
    exact hd.imp_right fun ⟨a, b, _, _, hf⟩ => ⟨a, b, hf⟩

theorem jumpWhen_errored {taken : Word → Bool} {m1 m2 : Mode}
    (h : jumpWhen taken m1 m2 s = .next t) :
    AddressError s.cfg s.mem e ∨ ∃ w : Word, w.toInt < 0 ∧ e = .negativeJumpTarget w := by
  rcases jumpWhen_next h with ⟨c, w, -, -, ⟨-, -, rfl⟩ | ⟨-, rfl⟩⟩ | ⟨d, rfl, hd⟩
  · exact absurd ht (not_errored_of_running hs)
  · exact absurd ht (not_errored_of_running hs)
  · cases errored_raise ht
    exact hd.imp_right fun ⟨_, w, _, _, _, h0, he⟩ => ⟨w, h0, he⟩

theorem execRead_errored {m1 : Mode} (h : execRead m1 s = .next t) :
    AddressError s.cfg s.mem e ∨ readerRead s = .error e := by
  rcases execRead_next h with ⟨v, u, hr, hu⟩ | ⟨d, hr, rfl⟩ | ⟨-, rfl⟩
  · obtain ⟨hmem, -, -, hstatus, -, hcfg⟩ := readerRead_frame hr
    rcases hu with ⟨d, -, -, rfl⟩ | ⟨d, hd, rfl⟩
    · exact absurd ht (not_errored_of_running (hstatus.trans hs))
    · cases errored_raise ht
      rw [hmem, hcfg] at hd
      exact .inl hd
  · cases errored_raise ht
    exact .inr hr
  · exact absurd ht (not_errored_of_running hs)

theorem execWrite_errored {m1 : Mode} (h : execWrite m1 s = .next t) :
    AddressError s.cfg s.mem e ∨ ∃ v, writerWrite s v = .error e := by
  rcases execWrite_next h with ⟨v, u, -, hw, rfl⟩ | ⟨d, rfl, hd⟩ | ⟨-, rfl⟩
  · obtain ⟨-, -, -, hstatus, -, -⟩ := writerWrite_frame hw
    exact absurd ht (not_errored_of_running (hstatus.trans hs))
  · cases errored_raise ht
    exact hd.imp_right fun ⟨v, _, hw⟩ => ⟨v, hw⟩
  · exact absurd ht (not_errored_of_running hs)

theorem execAdjustRelativeBase_errored {m1 : Mode} (h : execAdjustRelativeBase m1 s = .next t) :
    AddressError s.cfg s.mem e ∨
      (s.cfg.arithOverflow = .fault ∧ e = .arithmeticOverflow .adjustRelativeBase) := by
  rcases execAdjustRelativeBase_next h with ⟨v, -, -, rfl⟩ | ⟨d, rfl, hd⟩
  · exact absurd ht (not_errored_of_running hs)
  · cases errored_raise ht
    exact hd

/-- Every error that an instruction of a Running core ends in has its cause (60 R201). -/
theorem exec_errored {i : Instr} (h : exec i s = .next t) : InstrError s i e := by
  cases i with
  | add m1 m2 m3 =>
    rcases binaryToDest_errored hs ht h with ha | ⟨a, b, hf⟩
    · exact .address (by simp [Instr.arity]) ha
    · obtain ⟨-, hc, rfl⟩ := chk64_error hf
      exact .add hc
  | mul m1 m2 m3 =>
    rcases binaryToDest_errored hs ht h with ha | ⟨a, b, hf⟩
    · exact .address (by simp [Instr.arity]) ha
    · obtain ⟨-, hc, rfl⟩ := chk64_error hf
      exact .mul hc
  | read m1 =>
    rcases execRead_errored hs ht h with ha | hr
    · exact .address (by simp [Instr.arity]) ha
    · rcases readerRead_error hr with ⟨hd, rfl⟩ | ⟨-, rfl⟩ | ⟨c, ch, -, -, -, rfl⟩
      · exact .readDisabled hd
      · exact .readExhausted hr
      · exact .readExhausted hr
  | write m1 =>
    rcases execWrite_errored hs ht h with ha | ⟨v, hw⟩
    · exact .address (by simp [Instr.arity]) ha
    · rcases writerWrite_error hw with ⟨hd, rfl⟩ | ⟨c, ch, -, -, -, rfl⟩
      · exact .writeDisabled hd
      · exact .writeClosed hw
  | jumpIfTrue m1 m2 =>
    rcases jumpWhen_errored hs ht h with ha | ⟨w, h0, rfl⟩
    · exact .address (by simp [Instr.arity]) ha
    · exact .jumpIfTrue h0
  | jumpIfFalse m1 m2 =>
    rcases jumpWhen_errored hs ht h with ha | ⟨w, h0, rfl⟩
    · exact .address (by simp [Instr.arity]) ha
    · exact .jumpIfFalse h0
  | lessThan m1 m2 m3 =>
    rcases binaryToDest_errored hs ht h with ha | ⟨a, b, hf⟩
    · exact .address (by simp [Instr.arity]) ha
    · cases hf
  | equals m1 m2 m3 =>
    rcases binaryToDest_errored hs ht h with ha | ⟨a, b, hf⟩
    · exact .address (by simp [Instr.arity]) ha
    · cases hf
  | adjustRelativeBase m1 =>
    rcases execAdjustRelativeBase_errored hs ht h with ha | ⟨hc, rfl⟩
    · exact .address (by simp [Instr.arity]) ha
    · exact .adjustRelativeBase hc
  | halt => cases h; cases ht
  | skip => cases h; exact absurd ht (not_errored_of_running hs)

end Running

/-- Every error that a step of a Running core ends in: the fetch's, the decode's, or the decoded
instruction's. -/
theorem step_errored {s t : State} {e : ErrorValue} (hs : s.isRunning = true)
    (h : step s = .next t) (ht : t.status = .errored e) :
    (s.mem.accessible s.cfg s.pc = false ∧ e = .indexNotFound s.pc) ∨
    (∃ w, s.load s.pc = .ok w ∧ s.cfg.badDigitAction = .fault ∧ e = .invalidModeDigit w) ∨
    ∃ i, s.fetchDecode = .ok i ∧ InstrError s i e := by
  rcases step_running hs h with ⟨i, hi, hx⟩ | ⟨d, hd, rfl⟩
  · exact .inr (.inr ⟨i, hi, exec_errored ((State.isRunning_iff s).1 hs) ht hx⟩)
  · cases errored_raise ht
    rcases fetchDecode_error.1 hd with hload | ⟨w, v, hload, hdec, rfl⟩
    · exact .inl (Memory.read_error.1 hload)
    · obtain ⟨rfl, hfault⟩ := decode_invalid hdec
      exact .inr (.inl ⟨v, hload, hfault, rfl⟩)

/-! ### InvalidModeDigit -/

theorem step_of_invalid {s : State} {w v : Word} (hs : s.isRunning = true)
    (hload : s.load s.pc = .ok w) (hd : decode s.cfg w = .invalid v) :
    step s = .next (s.raise (.invalidModeDigit v)) := by
  rw [step, if_pos hs, fetchDecode_error.2 (.inr ⟨w, v, hload, hd, rfl⟩)]

/-- Settles O35: `Invalid` carries the fetched word, and no instruction raises this error. -/
theorem invalidModeDigitIsTaken : Obligations.InvalidModeDigitIsTaken := by
  refine ⟨fun s w v hs hload hd => ?_, fun s t w hs h ht => ?_⟩
  · obtain ⟨rfl, -⟩ := decode_invalid hd
    exact step_of_invalid hs hload hd
  · rcases step_errored hs h ht with ⟨-, he⟩ | ⟨v, hload, hfault, he⟩ | ⟨i, -, hi⟩
    · cases he
    · cases he
      exact ⟨hfault, hload⟩
    · cases hi with
      | address _ hno => exact hno.elim

/-! ### IndexNotFound -/

theorem Memory.accessible_eq_false_iff {cfg : Config} {m : Memory} {a : Nat} :
    m.accessible cfg a = false ↔ m.size ≤ a ∧ cfg.overflowRegion = .disabled := by
  refine ⟨fun h => ?_, fun ⟨ha, hc⟩ => Memory.accessible_disabled ha hc⟩
  obtain ⟨hle, hne⟩ := not_or.1 (mt Memory.accessible_iff.2 (Bool.eq_false_iff.1 h))
  refine ⟨Nat.le_of_not_lt hle, ?_⟩
  cases hc : cfg.overflowRegion with
  | enabled => exact absurd hc hne
  | disabled => rfl

theorem Memory.write_error {cfg : Config} {m : Memory} {a : Nat} {v : Word} {e : ErrorValue} :
    m.write cfg a v = .error e ↔ m.accessible cfg a = false ∧ e = .indexNotFound a := by
  cases h : m.accessible cfg a with
  | true => simp [Memory.write_of_accessible h]
  | false => simp [Memory.write_of_not_accessible h, eq_comm]

/-- The address in `IndexNotFound` is one that does not exist. -/
theorem step_indexNotFound {s t : State} {a : Nat} (hs : s.isRunning = true)
    (h : step s = .next t) (ht : t.status = .errored (.indexNotFound a)) :
    s.mem.accessible s.cfg a = false := by
  rcases step_errored hs h ht with ⟨hacc, he⟩ | ⟨w, -, -, he⟩ | ⟨i, -, hi⟩
  · cases he
    exact hacc
  · cases he
  · cases hi with
    | address _ hacc => exact hacc

/-- Settles O36: an access raises the error exactly where the address does not exist, and with the
overflow region enabled every address exists. -/
theorem indexNotFoundOnlyWithoutOverflowRegion :
    Obligations.IndexNotFoundOnlyWithoutOverflowRegion := by
  refine ⟨fun cfg m a v => ?_, fun s t a hc hs h ht => ?_⟩
  · rw [← Memory.accessible_eq_false_iff]
    exact ⟨⟨fun ⟨_, hb⟩ => (Memory.read_error.1 hb).1, fun h => ⟨a, Memory.read_error.2 ⟨h, rfl⟩⟩⟩,
      ⟨fun ⟨_, hb⟩ => (Memory.write_error.1 hb).1, fun h => ⟨a, Memory.write_error.2 ⟨h, rfl⟩⟩⟩,
      fun _ hb => ErrorValue.indexNotFound.inj (Memory.read_error.1 hb).2,
      fun _ hb => ErrorValue.indexNotFound.inj (Memory.write_error.1 hb).2⟩
  · have hmissing := step_indexNotFound hs h ht
    rw [Memory.accessible_enabled hc] at hmissing
    cases hmissing

/-! ### ArithmeticOverflow -/

theorem step_arithmeticOverflow {s t : State} {op : ArithOp} (hs : s.isRunning = true)
    (h : step s = .next t) (ht : t.status = .errored (.arithmeticOverflow op)) :
    s.cfg.arithOverflow = .fault := by
  rcases step_errored hs h ht with ⟨-, he⟩ | ⟨w, -, -, he⟩ | ⟨i, -, hi⟩
  · cases he
  · cases he
  · cases hi with
    | address _ ha => exact ha.2
    | add hc => exact hc
    | mul hc => exact hc
    | adjustRelativeBase hc => exact hc

/-- Settles O37: `chk64` by its rules, and a step ends in this error only under fault. -/
theorem arithmeticOverflowOnlyUnderFault : Obligations.ArithmeticOverflowOnlyUnderFault := by
  refine ⟨fun cfg op v => ⟨fun h => ?_, fun ⟨hv, hc⟩ => chk64_fault hv hc op⟩,
    fun s t op hc hs h ht => ?_⟩
  · obtain ⟨hv, hc, -⟩ := chk64_error h
    exact ⟨hv, hc⟩
  · have hfault := step_arithmeticOverflow hs h ht
    rw [hc] at hfault
    cases hfault

end Sys2Proof.Machine
end

