-- ==== Sys2Proof/Proofs/RoundTrip.lean ====
section
/-! PROOFS. The encoder and the decoder agree (30_encoding.md R70 to R74, R79, R84): an assembled
line is read back whole, a decoded word's digits are its instruction's, and the other digits are
ignored. -/

namespace Sys2Proof.Machine

/-! ### The canonical word decodes to its instruction -/

theorem modeOfDigit_digitOfMode (m : Mode) : modeOfDigit (digitOfMode m) = m := by
  cases m <;> rfl

/-- The row of an instruction's opcode builds it back from the modes of its canonical word. -/
theorem exists_opcodeRow_build {i : Instr} (hi : i ≠ .skip) :
    ∃ op b x y z, op < 100 ∧ opcodeRow op = some (i.arity, b) ∧ encode i = canonicalWord op x y z ∧
      b x y z = i := by
  cases i with
  | add m1 m2 m3 => exact ⟨1, _, m1, m2, m3, by decide, rfl, rfl, rfl⟩
  | mul m1 m2 m3 => exact ⟨2, _, m1, m2, m3, by decide, rfl, rfl, rfl⟩
  | read m1 => exact ⟨3, _, m1, _, _, by decide, rfl, rfl, rfl⟩
  | write m1 => exact ⟨4, _, m1, _, _, by decide, rfl, rfl, rfl⟩
  | jumpIfTrue m1 m2 => exact ⟨5, _, m1, m2, _, by decide, rfl, rfl, rfl⟩
  | jumpIfFalse m1 m2 => exact ⟨6, _, m1, m2, _, by decide, rfl, rfl, rfl⟩
  | lessThan m1 m2 m3 => exact ⟨7, _, m1, m2, m3, by decide, rfl, rfl, rfl⟩
  | equals m1 m2 m3 => exact ⟨8, _, m1, m2, m3, by decide, rfl, rfl, rfl⟩
  | adjustRelativeBase m1 => exact ⟨9, _, m1, _, _, by decide, rfl, rfl, rfl⟩
  | halt => exact ⟨99, _, _, _, _, by decide, rfl, rfl, rfl⟩
  | skip => exact absurd rfl hi

/-- Every digit that is checked is one of the three mode digits (30 R77). -/
theorem mem_modeDigits_of_checked {scope : BadDigitScope} {a n d : Nat}
    (h : d ∈ checkedDigits scope a n) : d ∈ modeDigits n := by
  cases scope with
  | used => exact List.mem_of_mem_take h
  | all => exact h

/-- Under all parameters an instruction's canonical word decodes to it (30 R84). -/
theorem decode_encode (cfg : Config) (i : Instr) : decode cfg (encode i) = .instr i := by
  by_cases hi : i = .skip
  · subst hi
    exact decode_of_opcodeRow_none rfl cfg
  · obtain ⟨op, b, x, y, z, hop, hrow, henc, hb⟩ := exists_opcodeRow_build hi
    obtain ⟨h0, -, hsmall⟩ := Laws.Encoding.canonical ⟨op, hop⟩ x y z
    obtain ⟨hmod, h1, h2, h3⟩ := canonicalWord_digits hop x y z
    have hrow' : opcodeRow ((canonicalWord op x y z).toNat % 100) = some (i.arity, b) := by
      rw [hmod, hrow]
    have hdec := (decode_of_row (cfg := cfg) h0 hrow').1 fun d hd =>
      hsmall d (mem_modeDigits_of_checked hd)
    rw [henc, hdec, h1, h2, h3]
    simp only [modeOfDigit_digitOfMode, hb]

/-- Settles O1: the first word decodes to the line's instruction, whose arity says how many of the
words after it are the line's operands. -/
theorem assembledLinesDisassemble : Obligations.AssembledLinesDisassemble := by
  rintro cfg ⟨i, ops⟩ rest hlen
  have harity : i.arity = ops.length := (beq_iff_eq.1 hlen).symm
  simp [disassemble, assemble, decode_encode, harity]

/-! ### The digits of a decoded word -/

/-- A mode digit of an operand of the decoded instruction is at most 2: it was checked (30 R77). -/
theorem decoded_digit_le {cfg : Config} {n a k : Nat} (ha : a ≤ 3)
    (h : ∀ d ∈ checkedDigits cfg.badDigitScope a n, d ≤ 2) (hk : k < a) : digit n (k + 2) ≤ 2 :=
  h _ ((mem_checkedDigits ha).2 ⟨k, by split <;> omega, rfl⟩)

/-- Settles O2: the row of the word's opcode built the instruction from the modes of the word's
digits, and the canonical word carries that opcode and the digits of those modes. -/
theorem decodedFieldsAreTheWordsDigits : Obligations.DecodedFieldsAreTheWordsDigits := by
  intro cfg w i hdec hi
  obtain ⟨h0, a, b, hrow, hchecked, rfl⟩ := decode_instr hdec hi
  obtain ⟨harity, -, ha, hop, x, y, z, henc, hx, hy, hz⟩ := opcodeRow_encode hrow
    (modeOfDigit (digit w.toNat 2)) (modeOfDigit (digit w.toNat 3)) (modeOfDigit (digit w.toNat 4))
  obtain ⟨hmod, h2, h3, h4⟩ := canonicalWord_digits hop x y z
  refine ⟨h0, by rw [henc, hmod], fun k hk => ?_⟩
  rw [harity] at hk
  have hle := decoded_digit_le ha hchecked hk
  rw [henc]
  obtain rfl | rfl | rfl : k = 0 ∨ k = 1 ∨ k = 2 := by omega
  · rw [h2, hx (by omega), digitOfMode_modeOfDigit hle]
  · rw [h3, hy (by omega), digitOfMode_modeOfDigit hle]
  · rw [h4, hz (by omega), digitOfMode_modeOfDigit hle]

/-! ### Ignored digits -/

/-- The decoder sees of a non-negative word its opcode and its three mode digits only. -/
theorem decode_congr {cfg : Config} {w v : Word} {i : Instr} (hw : 0 ≤ w.toInt) (hv : 0 ≤ v.toInt)
    (hop : w.toNat % 100 = v.toNat % 100) (h2 : digit w.toNat 2 = digit v.toNat 2)
    (h3 : digit w.toNat 3 = digit v.toNat 3) (h4 : digit w.toNat 4 = digit v.toNat 4)
    (h : decode cfg w = .instr i) : decode cfg v = .instr i := by
  have hmodes : modeDigits w.toNat = modeDigits v.toNat := by simp only [modeDigits, h2, h3, h4]
  have hchecked (a : Nat) : checkedDigits cfg.badDigitScope a w.toNat =
      checkedDigits cfg.badDigitScope a v.toNat := by simp only [checkedDigits, hmodes]
  cases hrow : opcodeRow (v.toNat % 100) with
  | none =>
    rw [decode_of_opcodeRow_none (hop ▸ hrow)] at h
    rw [decode_of_opcodeRow_none hrow, h]
  | some r =>
    obtain ⟨a, b⟩ := r
    obtain ⟨hgoodw, hbadw⟩ := decode_of_row (cfg := cfg) hw (hop ▸ hrow)
    obtain ⟨hgoodv, hbadv⟩ := decode_of_row (cfg := cfg) hv hrow
    by_cases hd : ∀ d ∈ checkedDigits cfg.badDigitScope a v.toNat, d ≤ 2
    · rw [hgoodv hd, ← h2, ← h3, ← h4, ← hgoodw (by rwa [hchecked]), h]
    · push Not at hd
      rw [hbadw (by rwa [hchecked])] at h
      rw [hbadv hd]
      split at h
      · rename_i hskip
        rw [if_pos hskip, h]
      · cases h

/-- Settles O6: the low five digits are all the decoder sees; and of those, the row of the opcode
uses the modes of its operands, the others being at most 2 whether or not they are checked. -/
theorem ignoredDigitsChangeNothing : Obligations.IgnoredDigitsChangeNothing := by
  refine ⟨fun cfg w v i hw hv hlow hdec => ?_, fun cfg w v i hv hdec hi hop hused habsent => ?_⟩
  · exact decode_congr hw hv (by omega) (by simp only [digit]; omega) (by simp only [digit]; omega)
      (by simp only [digit]; omega) hdec
  · obtain ⟨-, a, b, hrow, hchecked, rfl⟩ := decode_instr hdec hi
    obtain ⟨harity, -, ha, -⟩ := opcodeRow_encode hrow (modeOfDigit (digit w.toNat 2))
      (modeOfDigit (digit w.toNat 3)) (modeOfDigit (digit w.toNat 4))
    rw [harity] at hused habsent
    have hsmall : ∀ d ∈ checkedDigits cfg.badDigitScope a v.toNat, d ≤ 2 := by
      intro d hd
      obtain ⟨k, hk, rfl⟩ := (mem_checkedDigits ha).1 hd
      by_cases hka : k < a
      · rw [hused k hka]
        exact decoded_digit_le ha hchecked hka
      · exact habsent k (by omega) (by split at hk <;> omega)
    rw [(decode_of_row hv (hop ▸ hrow)).1 hsmall]
    exact congrArg _ (opcodeRow_congr hrow (fun h => by rw [hused 0 h]) (fun h => by rw [hused 1 h])
      fun h => by rw [hused 2 h])

/-- Settles O7: each of the twelve words is decoded. -/
theorem sampleWordsDecode : Obligations.SampleWordsDecode := by
  unfold Obligations.SampleWordsDecode
  decide

end Sys2Proof.Machine
end

