-- ==== Sys2Proof/Proofs/CoreInvariant.lean ====
section
/-! PROOFS. The invariant `State.wf` of a core: what each part of it says, that every step keeps it,
and that a core which has it always answers (20_memory.md R44, 10_state.md R28, 41_io.md R131 to
R136). -/

namespace Sys2Proof.Machine

/-! ### What the invariant says -/

theorem Channel.wf_iff {cfg : Config} {ch : Channel} : ch.wf cfg = true ↔
    ch.cap = cfg.channelCapacity ∧ (ch.senderPort = true → ch.senderHost = false) ∧
      ∀ n, ch.cap = .bounded n → ch.queue.length ≤ n := by
  unfold Channel.wf
  cases hcap : ch.cap <;> cases ch.senderPort <;> simp [and_assoc]

theorem State.readerWf_iff {s : State} : s.readerWf = true ↔ ∀ c, s.reader = .channel c →
    ∃ ch, s.channels[c]? = some ch ∧ (s.isRunning = true → ch.receiverPort = true) := by
  unfold State.readerWf
  cases s.reader with
  | disabled => simp
  | fixedSeq q => simp
  | channel c => cases hc : s.channels[c]? <;> cases hr : s.isRunning <;> simp [hc]

theorem State.writerWf_iff {s : State} : s.writerWf = true ↔ ∀ c, s.writer = .channel c →
    ∃ ch, s.channels[c]? = some ch ∧ (s.isRunning = true → ch.senderPort = true) := by
  unfold State.writerWf
  cases s.writer with
  | disabled => simp
  | fixedSeq q => simp
  | channel c => cases hc : s.channels[c]? <;> cases hr : s.isRunning <;> simp [hc]

theorem State.isRunning_congr {s t : State} (h : t.status = s.status) :
    t.isRunning = s.isRunning := by
  unfold State.isRunning
  rw [h]

theorem State.not_isRunning_terminate (s : State) {st : Status} (h : st ≠ .running) :
    (s.terminate st).isRunning = false :=
  Bool.eq_false_iff.2 fun hr => h ((State.isRunning_iff _).1 hr)

/-! ### What keeps it -/

/-- The queue rules keep a queue within its capacity (41 R132). -/
theorem queue_within_capacity {c d : Channel} (hcap : d.cap = c.cap)
    (hq : d.queue = c.queue ∨ (∃ v, c.queue = v :: d.queue) ∨
      (c.full = false ∧ ∃ v, d.queue = c.queue ++ [v]))
    (h : ∀ n, c.cap = .bounded n → c.queue.length ≤ n) (n : Nat) (hn : d.cap = .bounded n) :
    d.queue.length ≤ n := by
  rw [hcap] at hn
  have hle := h n hn
  rcases hq with hq | ⟨v, hq⟩ | ⟨hfull, v, hq⟩
  · rwa [hq]
  · rw [hq, List.length_cons] at hle
    omega
  · have hlt : ¬ n ≤ c.queue.length := fun hge =>
      Bool.eq_false_iff.1 hfull (Channel.full_iff.2 ⟨n, hn, hge⟩)
    rw [hq, List.length_append, List.length_singleton]
    omega

theorem ChannelMove.wf {cfg : Config} {c d : Channel} (hm : ChannelMove c d) (h : c.wf cfg = true) :
    d.wf cfg = true := by
  obtain ⟨hcap, hhost, hroom⟩ := Channel.wf_iff.1 h
  refine Channel.wf_iff.2 ⟨hm.cap.trans hcap, ?_, queue_within_capacity hm.cap hm.queue hroom⟩
  rw [hm.senderPort, hm.senderHost]
  exact hhost

/-- Letting go of holds keeps a channel well formed. -/
theorem Channel.wf_release {cfg : Config} {ch : Channel} (h : ch.wf cfg = true) (r w : Bool) :
    Channel.wf cfg { ch with
      receiverPort := ch.receiverPort && r
      senderPort := ch.senderPort && w } = true := by
  obtain ⟨hcap, hhost, hroom⟩ := Channel.wf_iff.1 h
  exact Channel.wf_iff.2 ⟨hcap, fun hs => hhost (Bool.and_eq_true_iff.1 hs).1, hroom⟩

/-- A channel of the state after a port operation is a moved channel of the state before it. -/
theorem PortMove.channel_from {s u : State} (h : PortMove s u) {c : Nat} {d : Channel}
    (hd : u.channels[c]? = some d) : ∃ ch, s.channels[c]? = some ch ∧ ChannelMove ch d := by
  obtain ⟨-, -, -, -, -, hlength, -⟩ := h.frame
  have hlt : c < s.channels.length := hlength ▸ (List.getElem?_eq_some_iff.1 hd).1
  have hc := List.getElem?_eq_getElem hlt
  obtain ⟨d', hd', hm, -⟩ := h.channel c _ hc
  obtain rfl : d = d' := Option.some.inj (hd.symm.trans hd')
  exact ⟨_, hc, hm⟩

theorem PortMove.wf {s u : State} (h : PortMove s u) (hs : s.wf) : u.wf := by
  obtain ⟨hmem, hcfg, hchannels, hreader, hwriter⟩ := hs
  obtain ⟨humem, -, -, hustatus, hucfg, -, hureader, huwriter, -⟩ := h.frame
  have hrun : u.isRunning = s.isRunning := State.isRunning_congr hustatus
  refine ⟨humem ▸ hmem, hucfg ▸ hcfg, fun d hd => ?_, ?_, ?_⟩
  · obtain ⟨c, hlt, rfl⟩ := List.getElem_of_mem hd
    obtain ⟨ch, hch, hm⟩ := h.channel_from (List.getElem?_eq_getElem hlt)
    rw [hucfg]
    exact hm.wf (hchannels ch (List.mem_of_getElem? hch))
  · refine State.readerWf_iff.2 fun c hc => ?_
    obtain ⟨ch, hch, hheld⟩ := State.readerWf_iff.1 hreader c ((hureader c).1 hc)
    obtain ⟨d, hd, hm, -⟩ := h.channel c ch hch
    exact ⟨d, hd, by rwa [hm.receiverPort, hrun]⟩
  · refine State.writerWf_iff.2 fun c hc => ?_
    obtain ⟨ch, hch, hheld⟩ := State.writerWf_iff.1 hwriter c ((huwriter c).1 hc)
    obtain ⟨d, hd, hm, -⟩ := h.channel c ch hch
    exact ⟨d, hd, by rwa [hm.senderPort, hrun]⟩

/-- The channels after a core has stopped: its own holds are gone (41 R136). -/
theorem State.terminate_channels_getElem? (s : State) (st : Status) (c : Nat) :
    (s.terminate st).channels[c]? = s.channels[c]?.map fun ch =>
      { ch with
        receiverPort := ch.receiverPort && !decide (s.reader = .channel c)
        senderPort := ch.senderPort && !decide (s.writer = .channel c) } := by
  obtain ⟨hlength, hreleased⟩ := released_channels s
  rw [State.terminate_channels]
  cases hc : s.channels[c]? with
  | none => rwa [Option.map_none, List.getElem?_eq_none_iff, hlength, ← List.getElem?_eq_none_iff]
  | some ch => rw [hreleased c ch hc, Option.map_some]

theorem State.terminate_wf {s : State} (hs : s.wf) {st : Status} (hst : st ≠ .running) :
    (s.terminate st).wf := by
  obtain ⟨hmem, hcfg, hchannels, hreader, hwriter⟩ := hs
  have hrun := s.not_isRunning_terminate hst
  refine ⟨hmem, hcfg, fun d hd => ?_, ?_, ?_⟩
  · obtain ⟨c, hc⟩ := List.mem_iff_getElem?.1 hd
    rw [State.terminate_channels_getElem?] at hc
    obtain ⟨ch, hch, rfl⟩ := Option.map_eq_some_iff.1 hc
    exact Channel.wf_release (hchannels ch (List.mem_of_getElem? hch)) _ _
  · refine State.readerWf_iff.2 fun c hc => ?_
    obtain ⟨ch, hch, -⟩ := State.readerWf_iff.1 hreader c hc
    rw [State.terminate_channels_getElem?, hch, hrun]
    exact ⟨_, rfl, nofun⟩
  · refine State.writerWf_iff.2 fun c hc => ?_
    obtain ⟨ch, hch, -⟩ := State.writerWf_iff.1 hwriter c hc
    rw [State.terminate_channels_getElem?, hch, hrun]
    exact ⟨_, rfl, nofun⟩

theorem CoreMove.mem_wf {u t : State} (h : CoreMove u t) (hu : u.mem.wf) : t.mem.wf := by
  rcases h.mem with hmem | ⟨d, v, -, hmem⟩
  · rwa [hmem]
  · rw [hmem]
    exact Memory.poke_wf hu d v

theorem CoreMove.wf {u t : State} (h : CoreMove u t) (hu : u.wf) : t.wf := by
  obtain ⟨hmem, hcfg, hchannels, hreader, hwriter⟩ := hu
  have hrun : t.isRunning = u.isRunning := State.isRunning_congr h.status
  refine ⟨h.mem_wf hmem, ?_, ?_, ?_, ?_⟩
  · rwa [h.cfg]
  · rwa [h.channels, h.cfg]
  · rwa [State.readerWf_iff, h.reader, h.channels, hrun, ← State.readerWf_iff]
  · rwa [State.writerWf_iff, h.writer, h.channels, hrun, ← State.writerWf_iff]

/-- Settles O50: the port operation, the entry into a terminal status and the core's move each keep
the invariant. -/
theorem stepKeepsWellFormed : Obligations.StepKeepsWellFormed := by
  intro s t hs h
  obtain ⟨u, hport, ⟨st, hst, rfl⟩ | hmove⟩ := step_shape h
  · exact State.terminate_wf (hport.wf hs) hst
  · exact hmove.wf (hport.wf hs)

/-! ### What no step changes -/

theorem CoreMove.mem_size {u t : State} (h : CoreMove u t) : t.mem.size = u.mem.size := by
  rcases h.mem with hmem | ⟨d, v, -, hmem⟩
  · rw [hmem]
  · rw [hmem, Memory.size_poke]

/-- `N`, the parameters and the kind of each port's binding (20 R41, 10 R28, R29). -/
theorem step_frame {s t : State} (h : step s = .next t) :
    t.mem.size = s.mem.size ∧ t.cfg = s.cfg ∧
    (s.reader = .disabled ↔ t.reader = .disabled) ∧ (s.writer = .disabled ↔ t.writer = .disabled) ∧
    (∀ c, s.reader = .channel c ↔ t.reader = .channel c) ∧
    ∀ c, s.writer = .channel c ↔ t.writer = .channel c := by
  obtain ⟨u, hport, hafter⟩ := step_shape h
  obtain ⟨hmem, -, -, -, hcfg, -, hreader, hwriter, hrdis, hwdis⟩ := hport.frame
  rcases hafter with ⟨st, -, rfl⟩ | hmove
  · exact ⟨congrArg Memory.size hmem, hcfg, hrdis.symm, hwdis.symm, fun c => (hreader c).symm,
      fun c => (hwriter c).symm⟩
  · rw [hmove.mem_size, hmove.cfg, hmove.reader, hmove.writer, hmem]
    exact ⟨rfl, hcfg, hrdis.symm, hwdis.symm, fun c => (hreader c).symm, fun c => (hwriter c).symm⟩

/-! ### Runs -/

/-- A well-formed core's ports name channels that exist, so its step answers. -/
theorem step_next_of_wf {s : State} (hs : s.wf) : ∃ t, step s = .next t := by
  obtain ⟨-, -, -, hreader, hwriter⟩ := hs
  cases hrun : s.isRunning with
  | false => exact ⟨s, step_stopped hrun⟩
  | true =>
    unfold step
    rw [if_pos hrun]
    cases s.fetchDecode with
    | error e => exact ⟨s.raise e, rfl⟩
    | ok i =>
      refine exec_next (fun c hc hnone => ?_) fun c hc hnone => ?_
      · obtain ⟨ch, hch, -⟩ := State.readerWf_iff.1 hreader c hc
        cases hnone.symm.trans hch
      · obtain ⟨ch, hch, -⟩ := State.writerWf_iff.1 hwriter c hc
        cases hnone.symm.trans hch

/-- Settles O51: a step of a well-formed core answers, and keeps the invariant. -/
theorem wellFormedCoreAlwaysAnswers : Obligations.WellFormedCoreAlwaysAnswers := by
  intro s k hs
  refine run_keeps (P := State.wf) (fun s hs => ?_) k s hs
  obtain ⟨t, ht⟩ := step_next_of_wf hs
  exact ⟨t, ht, stepKeepsWellFormed s t hs ht⟩

/-- Settles O49: with no channel and no word in memory every part of the invariant is empty. -/
theorem resetIsWellFormed : Obligations.ResetIsWellFormed :=
  ⟨⟨Memory.reset_wf, rfl, nofun, rfl, rfl⟩, rfl, rfl, rfl, rfl, rfl, fun _ =>
    Memory.read_ok.2 ⟨Memory.accessible_enabled rfl _ _, rfl⟩⟩

/-! ### Channels -/

/-- Settles O53: the port operation moves a channel by the queue rules, and what follows it at most
takes the core's own holds away. -/
theorem channelsAreFifoAndNeverReopen : Obligations.ChannelsAreFifoAndNeverReopen := by
  intro s t h
  obtain ⟨u, hport, hafter⟩ := step_shape h
  obtain ⟨-, -, -, -, -, hlength, -⟩ := hport.frame
  have hqueue {ch d : Channel} (hm : ChannelMove ch d) : d.queue = ch.queue ∨
      (∃ v, ch.queue = v :: d.queue) ∨ ∃ v, d.queue = ch.queue ++ [v] :=
    hm.queue.imp_right (.imp_right And.right)
  rcases hafter with ⟨st, -, rfl⟩ | hmove
  · refine ⟨(released_channels u).1.trans hlength, fun c ch ch' hch hch' => ?_⟩
    rw [State.terminate_channels_getElem?] at hch'
    obtain ⟨d, hd, rfl⟩ := Option.map_eq_some_iff.1 hch'
    obtain ⟨d', hd', hm, -⟩ := hport.channel c ch hch
    obtain rfl : d = d' := Option.some.inj (hd.symm.trans hd')
    have hq := hqueue hm
    refine ⟨hq, hm.cap, hm.senderHost, hm.receiverHost, fun hs => ?_, fun hr => ?_⟩
    · obtain ⟨hp, hh⟩ := Bool.or_eq_false_iff.1 hs
      simp [Channel.senderOpen, hm.senderPort, hm.senderHost, hp, hh]
    · obtain ⟨hp, hh⟩ := Bool.or_eq_false_iff.1 hr
      simp [Channel.receiverOpen, hm.receiverPort, hm.receiverHost, hp, hh]
  · rw [hmove.channels]
    refine ⟨hlength, fun c ch ch' hch hch' => ?_⟩
    obtain ⟨d, hd, hm, -⟩ := hport.channel c ch hch
    obtain rfl : ch' = d := Option.some.inj (hch'.symm.trans hd)
    refine ⟨hqueue hm, hm.cap, hm.senderHost, hm.receiverHost, fun hs => ?_, fun hr => ?_⟩
    · rwa [Channel.senderOpen, hm.senderPort, hm.senderHost]
    · rwa [Channel.receiverOpen, hm.receiverPort, hm.receiverHost]

end Sys2Proof.Machine
end

