-- ==== Sys2Proof/Proofs/NetworkInvariant.lean ====
section
/-! PROOFS. Networks (41_io.md R131 to R137, 60_exceptions.md R222, 70_reset_and_hazards.md R249):
every agent keeps `Network.wf`, what the host can do on the channels, and the end of a run. -/

namespace Sys2Proof.Machine

/-! ### The cores of a moved network -/

theorem Network.core_setChannels {n : Network} {ds : List Channel} {k : Nat} {s' : State}
    (h : Network.core { n with channels := ds } k = some s') :
    ∃ s, n.core k = some s ∧ s' = s.setChannels ds := by
  obtain ⟨b, hb, rfl⟩ := Network.core_some h
  exact ⟨_, Network.core_of_cores hb, rfl⟩

theorem Network.core_setCore_self {n : Network} {k : Nat} {s : State} (hs : n.core k = some s)
    (t : State) : (n.setCore k t).core k = some t := by
  obtain ⟨b, hb, -⟩ := Network.core_some hs
  rw [Network.core_of_cores (Network.setCore_cores_self hb t)]
  rfl

theorem Network.core_setCore_other (n : Network) {j k : Nat} (h : j ≠ k) (t : State) :
    (n.setCore k t).core j = (n.core j).map fun s => s.setChannels t.channels := by
  rw [Network.core, Network.core, Network.setCore_cores_other n h, Option.map_map]
  rfl

/-- A core after one core's step is that core's next state, or another core that sees the channels
so changed. -/
theorem Network.core_setCore {n : Network} {j k : Nat} {s t s' : State} (hs : n.core k = some s)
    (h : (n.setCore k t).core j = some s') :
    (j = k ∧ s' = t) ∨ (j ≠ k ∧ ∃ r, n.core j = some r ∧ s' = r.setChannels t.channels) := by
  by_cases hj : j = k
  · subst hj
    rw [Network.core_setCore_self hs] at h
    exact .inl ⟨rfl, (Option.some.inj h).symm⟩
  · rw [Network.core_setCore_other n hj] at h
    obtain ⟨r, hr, rfl⟩ := Option.map_eq_some_iff.1 h
    exact .inr ⟨hj, r, hr, rfl⟩

/-! ### One channel across a step -/

/-- What the step from `s` to `t` may do to channel `c`: it stays well formed under whatever
parameters it was, no hold of a port appears, and the core's own goes only as the core stops. -/
structure StepChannel (s t : State) (c : Nat) (ch d : Channel) : Prop where
  wf           : ∀ cfg, ch.wf cfg = true → d.wf cfg = true
  receiverPort : d.receiverPort = true → ch.receiverPort = true ∧
    (s.reader = .channel c → s.isRunning = true → t.isRunning = true)
  senderPort   : d.senderPort = true → ch.senderPort = true ∧
    (s.writer = .channel c → s.isRunning = true → t.isRunning = true)
  receiverKept : s.reader ≠ .channel c → d.receiverPort = ch.receiverPort
  senderKept   : s.writer ≠ .channel c → d.senderPort = ch.senderPort

theorem step_channel {s t : State} (h : step s = .next t) {c : Nat} {ch : Channel}
    (hch : s.channels[c]? = some ch) : ∃ d, t.channels[c]? = some d ∧ StepChannel s t c ch d := by
  obtain ⟨u, hport, hafter⟩ := step_shape h
  obtain ⟨-, -, -, hstatus, -, -, hreader, hwriter, -⟩ := hport.frame
  obtain ⟨d, hd, hm, -⟩ := hport.channel c ch hch
  rcases hafter with ⟨st, -, rfl⟩ | hmove
  · rw [State.terminate_channels_getElem?, hd]
    refine ⟨_, rfl, fun cfg hwf => Channel.wf_release (hm.wf hwf) _ _, fun hr => ?_, fun hw => ?_,
      fun hne => ?_, fun hne => ?_⟩
    · obtain ⟨hheld, hother⟩ := Bool.and_eq_true_iff.1 hr
      refine ⟨hm.receiverPort ▸ hheld, fun hc => ?_⟩
      simp [(hreader c).2 hc] at hother
    · obtain ⟨hheld, hother⟩ := Bool.and_eq_true_iff.1 hw
      refine ⟨hm.senderPort ▸ hheld, fun hc => ?_⟩
      simp [(hwriter c).2 hc] at hother
    · simp [mt (hreader c).1 hne, hm.receiverPort]
    · simp [mt (hwriter c).1 hne, hm.senderPort]
  · have hrun : t.isRunning = s.isRunning := State.isRunning_congr (hmove.status.trans hstatus)
    rw [hmove.channels]
    exact ⟨d, hd, fun cfg => hm.wf, fun hr => ⟨hm.receiverPort ▸ hr, fun _ => hrun.trans⟩,
      fun hw => ⟨hm.senderPort ▸ hw, fun _ => hrun.trans⟩, fun _ => hm.receiverPort,
      fun _ => hm.senderPort⟩

theorem step_channels_length {s t : State} (h : step s = .next t) :
    t.channels.length = s.channels.length :=
  (channelsAreFifoAndNeverReopen s t h).1

/-- A channel after a step is one that was there before it. -/
theorem step_channel_from {s t : State} (h : step s = .next t) {c : Nat} {d : Channel}
    (hd : t.channels[c]? = some d) : ∃ ch, s.channels[c]? = some ch ∧ StepChannel s t c ch d := by
  have hlt : c < s.channels.length := step_channels_length h ▸ (List.getElem?_eq_some_iff.1 hd).1
  obtain ⟨d', hd', hstep⟩ := step_channel h (List.getElem?_eq_getElem hlt)
  obtain rfl : d = d' := Option.some.inj (hd.symm.trans hd')
  exact ⟨_, List.getElem?_eq_getElem hlt, hstep⟩

/-! ### A core's step keeps the network well formed -/

/-- A core that sees its channels changed, without a new hold lost to it, stays well formed. -/
theorem State.setChannels_wf {s : State} {ds : List Channel} (hs : s.wf)
    (hwf : ∀ d ∈ ds, d.wf s.cfg = true)
    (hreader : ∀ c ch, s.reader = .channel c → s.channels[c]? = some ch →
      ∃ d, ds[c]? = some d ∧ d.receiverPort = ch.receiverPort)
    (hwriter : ∀ c ch, s.writer = .channel c → s.channels[c]? = some ch →
      ∃ d, ds[c]? = some d ∧ d.senderPort = ch.senderPort) : (s.setChannels ds).wf := by
  obtain ⟨hmem, hcfg, -, hsr, hsw⟩ := hs
  refine ⟨hmem, hcfg, hwf, State.readerWf_iff.2 fun c hc => ?_, State.writerWf_iff.2 fun c hc => ?_⟩
  · obtain ⟨ch, hch, hheld⟩ := State.readerWf_iff.1 hsr c hc
    obtain ⟨d, hd, hsame⟩ := hreader c ch hc hch
    exact ⟨d, hd, fun hrun => hsame.trans (hheld hrun)⟩
  · obtain ⟨ch, hch, hheld⟩ := State.writerWf_iff.1 hsw c hc
    obtain ⟨d, hd, hsame⟩ := hwriter c ch hc hch
    exact ⟨d, hd, fun hrun => hsame.trans (hheld hrun)⟩

/-- No step of a core moves a binding, so each core of the network is bound as it was. -/
theorem Network.core_setCore_bindings {n : Network} {j k : Nat} {s t s' : State}
    (hs : n.core k = some s) (ht : step s = .next t) (h : (n.setCore k t).core j = some s') :
    ∃ r, n.core j = some r ∧ (∀ c, s'.reader = .channel c → r.reader = .channel c) ∧
      ∀ c, s'.writer = .channel c → r.writer = .channel c := by
  rcases Network.core_setCore hs h with ⟨rfl, rfl⟩ | ⟨-, r, hr, rfl⟩
  · obtain ⟨-, -, -, -, hreader, hwriter⟩ := step_frame ht
    exact ⟨s, hs, fun c => (hreader c).2, fun c => (hwriter c).2⟩
  · exact ⟨r, hr, fun _ => id, fun _ => id⟩

theorem Network.core_channels {n : Network} {k : Nat} {s : State} (h : n.core k = some s) :
    s.channels = n.channels := by
  obtain ⟨b, -, rfl⟩ := Network.core_some h
  rfl

/-- A Running core bound to a side before the step is one after it, unless it is the stepped core
and the step stops it. -/
theorem Network.holder_setCore {n : Network} {j k : Nat} {s t r : State} (hs : n.core k = some s)
    (hr : n.core j = some r) (hrun : r.isRunning = true)
    (hkeep : r = s → s.isRunning = true → t.isRunning = true) (ht : step s = .next t) :
    ∃ s', (n.setCore k t).core j = some s' ∧ s'.isRunning = true ∧
      (∀ c, r.reader = .channel c → s'.reader = .channel c) ∧
      ∀ c, r.writer = .channel c → s'.writer = .channel c := by
  by_cases hj : j = k
  · subst hj
    obtain rfl : r = s := Option.some.inj (hr.symm.trans hs)
    obtain ⟨-, -, -, -, hreader, hwriter⟩ := step_frame ht
    exact ⟨t, Network.core_setCore_self hs t, hkeep rfl hrun, fun c => (hreader c).1,
      fun c => (hwriter c).1⟩
  · refine ⟨r.setChannels t.channels, ?_, hrun, fun _ => id, fun _ => id⟩
    rw [Network.core_setCore_other n hj, hr, Option.map_some]

theorem Network.coreStep_wf {n n' : Network} {k : Nat} (hn : n.wf) (h : n.coreStep k = some n') :
    n'.wf := by
  obtain ⟨hcores, hsides, hheld⟩ := hn
  obtain ⟨s, t, hs, ht, rfl⟩ := Network.coreStep_some h
  have hchs := Network.core_channels hs
  refine ⟨fun j s' hj => ?_, fun i j a b c hij ha hb => ?_, fun c d hd => ?_⟩
  · rcases Network.core_setCore hs hj with ⟨rfl, rfl⟩ | ⟨hjk, r, hr, rfl⟩
    · exact stepKeepsWellFormed s s' (hcores _ s hs) ht
    · have hrwf := hcores j r hr
      have hrs : r.channels = s.channels := (Network.core_channels hr).trans hchs.symm
      refine State.setChannels_wf hrwf (fun d hd => ?_) (fun c ch hc hch => ?_)
        fun c ch hc hch => ?_
      · obtain ⟨c, hc⟩ := List.mem_iff_getElem?.1 hd
        obtain ⟨ch, hch, hstep⟩ := step_channel_from ht hc
        obtain ⟨-, -, hrch, -⟩ := hrwf
        exact hstep.wf _ (hrch ch (hrs ▸ List.mem_of_getElem? hch))
      · obtain ⟨d, hd, hstep⟩ := step_channel ht (hrs ▸ hch)
        exact ⟨d, hd, hstep.receiverKept ((hsides j k r s c hjk hr hs).1 hc)⟩
      · obtain ⟨d, hd, hstep⟩ := step_channel ht (hrs ▸ hch)
        exact ⟨d, hd, hstep.senderKept ((hsides j k r s c hjk hr hs).2 hc)⟩
  · obtain ⟨a', ha', har, haw⟩ := Network.core_setCore_bindings hs ht ha
    obtain ⟨b', hb', hbr, hbw⟩ := Network.core_setCore_bindings hs ht hb
    obtain ⟨hr, hw⟩ := hsides i j a' b' c hij ha' hb'
    exact ⟨fun h1 h2 => hr (har c h1) (hbr c h2), fun h1 h2 => hw (haw c h1) (hbw c h2)⟩
  · obtain ⟨ch, hch, hstep⟩ := step_channel_from ht hd
    obtain ⟨hreader, hwriter⟩ := hheld c ch (hchs ▸ hch)
    refine ⟨fun hport => ?_, fun hport => ?_⟩
    · obtain ⟨hold, hkeep⟩ := hstep.receiverPort hport
      obtain ⟨j, r, hr, hrun, hbound⟩ := hreader hold
      obtain ⟨s', hs', hrun', hsame, -⟩ :=
        Network.holder_setCore hs hr hrun (fun he => hkeep (he ▸ hbound)) ht
      exact ⟨j, s', hs', hrun', hsame c hbound⟩
    · obtain ⟨hold, hkeep⟩ := hstep.senderPort hport
      obtain ⟨j, r, hr, hrun, hbound⟩ := hwriter hold
      obtain ⟨s', hs', hrun', -, hsame⟩ :=
        Network.holder_setCore hs hr hrun (fun he => hkeep (he ▸ hbound)) ht
      exact ⟨j, s', hs', hrun', hsame c hbound⟩

/-! ### An act of the host keeps the network well formed -/

/-- What an act of the host may do to a channel: it stays well formed, and the ports keep their
holds. -/
theorem hostAct_channel_from {a : HostAct} {cs ds : List Channel} (h : hostAct a cs = some ds)
    {c : Nat} {d : Channel} (hd : ds[c]? = some d) : ∃ ch, cs[c]? = some ch ∧
      d.senderPort = ch.senderPort ∧ d.receiverPort = ch.receiverPort ∧
      ∀ cfg, ch.wf cfg = true → d.wf cfg = true := by
  obtain ⟨hlength, hacts⟩ := hostAct_some h
  have hlt : c < cs.length := hlength ▸ (List.getElem?_eq_some_iff.1 hd).1
  have hc := List.getElem?_eq_getElem hlt
  obtain ⟨d', hd', hsp, hrp, hcap, hsh, -, hq⟩ := hacts c _ hc
  obtain rfl : d = d' := Option.some.inj (hd.symm.trans hd')
  refine ⟨_, hc, hsp, hrp, fun cfg hwf => ?_⟩
  obtain ⟨hcfg, hhost, hroom⟩ := Channel.wf_iff.1 hwf
  have hmove : d.queue = cs[c].queue ∨ (∃ v, cs[c].queue = v :: d.queue) ∨
      (cs[c].full = false ∧ ∃ v, d.queue = cs[c].queue ++ [v]) := by
    rcases hq with hq | ⟨v, -, -, -, hfull, hq⟩ | ⟨-, -, -, hq⟩
    · exact .inl hq
    · exact .inr (.inr ⟨hfull, v, hq⟩)
    · exact .inr (.inl hq)
  refine Channel.wf_iff.2 ⟨hcap.trans hcfg, fun hport => ?_,
    queue_within_capacity hcap hmove hroom⟩
  exact Bool.eq_false_iff.2 fun hh =>
    Bool.eq_false_iff.1 (hhost (hsp ▸ hport)) (hsh hh)

theorem Network.hostAct_wf {n : Network} {a : HostAct} {ds : List Channel} (hn : n.wf)
    (h : hostAct a n.channels = some ds) : Network.wf { n with channels := ds } := by
  obtain ⟨hcores, hsides, hheld⟩ := hn
  refine ⟨fun k s' hk => ?_, fun i j a b c hij ha hb => ?_, fun c d hd => ?_⟩
  · obtain ⟨s, hs, rfl⟩ := Network.core_setChannels hk
    have hchs := Network.core_channels hs
    have hswf := hcores k s hs
    have hsame (c : Nat) (ch : Channel) (hch : s.channels[c]? = some ch) : ∃ d, ds[c]? = some d ∧
        d.senderPort = ch.senderPort ∧ d.receiverPort = ch.receiverPort := by
      obtain ⟨d, hd, hsp, hrp, -⟩ := (hostAct_some h).2 c ch (hchs ▸ hch)
      exact ⟨d, hd, hsp, hrp⟩
    refine State.setChannels_wf hswf (fun d hd => ?_) (fun c ch _ hch => ?_) fun c ch _ hch => ?_
    · obtain ⟨c, hc⟩ := List.mem_iff_getElem?.1 hd
      obtain ⟨ch, hch, -, -, hwf⟩ := hostAct_channel_from h hc
      obtain ⟨-, -, hsch, -⟩ := hswf
      exact hwf _ (hsch ch (hchs ▸ List.mem_of_getElem? hch))
    · obtain ⟨d, hd, -, hrp⟩ := hsame c ch hch
      exact ⟨d, hd, hrp⟩
    · obtain ⟨d, hd, hsp, -⟩ := hsame c ch hch
      exact ⟨d, hd, hsp⟩
  · obtain ⟨a', ha', rfl⟩ := Network.core_setChannels ha
    obtain ⟨b', hb', rfl⟩ := Network.core_setChannels hb
    exact hsides i j a' b' c hij ha' hb'
  · obtain ⟨ch, hch, hsp, hrp, -⟩ := hostAct_channel_from h hd
    obtain ⟨hreader, hwriter⟩ := hheld c ch hch
    have hholder {k : Nat} {s : State} (hs : n.core k = some s) :
        Network.core { n with channels := ds } k = some (s.setChannels ds) := by
      obtain ⟨b, hb, rfl⟩ := Network.core_some hs
      rw [Network.core_of_cores (n := { n with channels := ds }) hb]
      rfl
    refine ⟨fun hport => ?_, fun hport => ?_⟩
    · obtain ⟨k, s, hs, hrun, hbound⟩ := hreader (hrp ▸ hport)
      exact ⟨k, _, hholder hs, hrun, hbound⟩
    · obtain ⟨k, s, hs, hrun, hbound⟩ := hwriter (hsp ▸ hport)
      exact ⟨k, _, hholder hs, hrun, hbound⟩

/-- Settles O56: a core's step keeps every part of the invariant, and so does an act of the host. -/
theorem everyAgentKeepsTheNetworkWellFormed : Obligations.EveryAgentKeepsTheNetworkWellFormed := by
  intro n n' g hn h
  cases g with
  | core k => exact Network.coreStep_wf hn h
  | host a =>
    obtain ⟨ds, hds, rfl⟩ := Option.map_eq_some_iff.1 h
    exact Network.hostAct_wf hn hds

/-! ### The host beside a core's port -/

theorem hostReceive_possible {cs : List Channel} {c : Nat} {ch : Channel} {v : Word} {q : List Word}
    (hc : cs[c]? = some ch) (hh : ch.receiverHost = true) (hp : ch.receiverPort = false)
    (hq : ch.queue = v :: q) : hostReceive cs c = some (v, cs.set c { ch with queue := q }) := by
  have hrec : ch.receive = .received v { ch with queue := q } := by rw [Channel.receive, hq]
  simp [hostReceive, hc, hh, hp, hrec]

theorem hostSend_not_held {cs : List Channel} {c : Nat} {ch : Channel} (hc : cs[c]? = some ch)
    (hh : ch.senderHost = false) (v : Word) : hostSend cs c v = none := by
  simp [hostSend, hc, hh]

theorem hostReceive_beside_port {cs : List Channel} {c : Nat} {ch : Channel} (hc : cs[c]? = some ch)
    (hp : ch.receiverPort = true) : hostReceive cs c = none := by
  simp [hostReceive, hc, hp]

theorem modify_of_getElem? {α : Type} {l : List α} {k : Nat} {x : α} (h : l[k]? = some x)
    (f : α → α) : l.modify k f = l.set k (f x) := by
  rw [List.modify_eq_set_getElem?, h]
  rfl

/-- Settles O54: what the host's acts do, when they are possible, and that a Running core's port
holds its side, beside which the host neither sends nor receives. -/
theorem hostActsObeyTheQueueRules : Obligations.HostActsObeyTheQueueRules := by
  refine ⟨fun a cs ds h => ?_,
    fun cs c ch hc => ⟨fun v hh ho hf => ?_, fun v q hh hp hq => ?_, ?_, ?_⟩,
    fun n k s c hn hs hrun => ?_⟩
  · obtain ⟨hlength, hacts⟩ := hostAct_some h
    refine ⟨hlength, fun c ch ch' hch hch' => ?_⟩
    obtain ⟨d, hd, hsp, hrp, hcap, hsh, hrh, hq⟩ := hacts c ch hch
    obtain rfl : ch' = d := Option.some.inj (hch'.symm.trans hd)
    refine ⟨fun hclosed => ?_, fun hclosed => ?_, hcap, hq⟩
    · obtain ⟨hport, hhost⟩ := Bool.or_eq_false_iff.1 hclosed
      exact Bool.or_eq_false_iff.2 ⟨hsp.trans hport,
        Bool.eq_false_iff.2 fun hh => Bool.eq_false_iff.1 hhost (hsh hh)⟩
    · obtain ⟨hport, hhost⟩ := Bool.or_eq_false_iff.1 hclosed
      exact Bool.or_eq_false_iff.2 ⟨hrp.trans hport,
        Bool.eq_false_iff.2 fun hh => Bool.eq_false_iff.1 hhost (hrh hh)⟩
  · exact hostSend_possible v hc hh ho hf
  · rw [hostAct, hostReceive_possible hc hh hp hq]
    rfl
  · exact congrArg some (modify_of_getElem? hc _)
  · exact congrArg some (modify_of_getElem? hc _)
  · obtain ⟨hcores, -⟩ := hn
    obtain ⟨-, -, hchannels, hreader, hwriter⟩ := hcores k s hs
    refine ⟨fun hbound v => ?_, fun hbound => ?_⟩
    · obtain ⟨ch, hch, hheld⟩ := State.writerWf_iff.1 hwriter c hbound
      obtain ⟨-, hhost, -⟩ := Channel.wf_iff.1 (hchannels ch (List.mem_of_getElem? hch))
      rw [Network.core_channels hs] at hch
      rw [Network.act, hostAct, hostSend_not_held hch (hhost (hheld hrun)), Option.map_none]
    · obtain ⟨ch, hch, hheld⟩ := State.readerWf_iff.1 hreader c hbound
      rw [Network.core_channels hs] at hch
      rw [Network.act, hostAct, hostReceive_beside_port hch (hheld hrun)]
      rfl

/-! ### The end of a run -/

theorem Network.ended_iff {n : Network} :
    n.ended = true ↔ ∀ k s, n.core k = some s → s.isRunning = false := by
  unfold Network.ended
  rw [List.all_eq_true]
  refine ⟨fun h k s hs => ?_, fun h s hs => ?_⟩
  · obtain ⟨b, hb, rfl⟩ := Network.core_some hs
    exact (Bool.not_eq_true' _).mp (h b (List.mem_of_getElem? hb))
  · obtain ⟨k, hk⟩ := List.mem_iff_getElem?.1 hs
    have hrun := h k _ (Network.core_of_cores hk)
    exact (Bool.not_eq_true' _).mpr hrun

/-- A step of a stopped core leaves what every core sees as it was. -/
theorem Network.core_setCore_same {n : Network} {k : Nat} {s : State} (hs : n.core k = some s)
    (j : Nat) : (n.setCore k s).core j = n.core j := by
  by_cases hj : j = k
  · subst hj
    rw [Network.core_setCore_self hs, hs]
  · rw [Network.core_setCore_other n hj, Network.core_channels hs]
    cases hr : n.core j with
    | none => rfl
    | some r =>
      obtain ⟨b, -, rfl⟩ := Network.core_some hr
      rfl

theorem Network.coreStep_of_ended {n n' : Network} {k : Nat} (hn : n.ended = true)
    (h : n.coreStep k = some n') : n'.channels = n.channels ∧ ∀ j, n'.core j = n.core j := by
  obtain ⟨s, t, hs, ht, rfl⟩ := Network.coreStep_some h
  rw [step_stopped (Network.ended_iff.1 hn k s hs)] at ht
  cases ht
  exact ⟨Network.core_channels hs, Network.core_setCore_same hs⟩

theorem Network.ended_act {n n' : Network} {g : Agent} (hn : n.ended = true)
    (h : n.act g = some n') : n'.ended = true := by
  cases g with
  | core k =>
    obtain ⟨-, hsame⟩ := Network.coreStep_of_ended hn h
    refine Network.ended_iff.2 fun j s hs => ?_
    rw [hsame] at hs
    exact Network.ended_iff.1 hn j s hs
  | host a =>
    obtain ⟨ds, -, rfl⟩ := Option.map_eq_some_iff.1 h
    exact hn

/-- Settles O60: the end is that no core runs, which every move keeps; a port holds a side only
while a core runs, so after the end the host alone holds the sides. -/
theorem networkRunEndsWithItsCores : Obligations.NetworkRunEndsWithItsCores := by
  refine fun n => ⟨?_, fun hn k n' => Network.coreStep_of_ended hn,
    fun hn g n' => Network.ended_act hn,
    fun hwf hn c ch v q hc hh hq => ?_, fun hn c => ?_⟩
  · rw [Network.ended_iff]
    simp only [Ne, ← State.isRunning_iff, Bool.not_eq_true]
  · obtain ⟨-, -, hheld⟩ := hwf
    have hp : ch.receiverPort = false := Bool.eq_false_iff.2 fun hport => by
      obtain ⟨k, s, hs, hrun, -⟩ := (hheld c ch hc).1 hport
      rw [Network.ended_iff.1 hn k s hs] at hrun
      cases hrun
    rw [Network.finalReceive, if_pos hn, hostReceive_possible hc hh hp hq]
    rfl
  · rw [Network.finalReceive, hn]
    rfl

end Sys2Proof.Machine
end

