-- ==== Sys2Proof/Proofs/OpenParameters.lean ====
section
/-! PROOFS. The parameters ARITH_OVERFLOW, BAD_MODE_DIGIT_ACTION and BAD_MODE_DIGIT_SCOPE do not
matter to a well-formed run (00_scope.md R8, 95_test_vectors.md section 4). A step under `fault` and
the same step under other parameters agree unless the first takes `ArithmeticOverflow`; a
well-formed step does not. -/

namespace Sys2Proof.Machine

/-! ### Agreement with a computation under `fault` -/

/-- The first computation, under `fault`, raises `ArithmeticOverflow`, or both end alike. -/
inductive AgreeUnlessOverflow {α β : Type} (R : α → β → Prop) :
    Except ErrorValue α → Except ErrorValue β → Prop where
  | ok {a : α} {b : β} (h : R a b) : AgreeUnlessOverflow R (.ok a) (.ok b)
  | error (e : ErrorValue) : AgreeUnlessOverflow R (.error e) (.error e)
  | overflow (op : ArithOp) (y : Except ErrorValue β) :
      AgreeUnlessOverflow R (.error (.arithmeticOverflow op)) y

/-- The second state is the first built with the parameters `c`. -/
def BuiltWith (c : Config) (s t : State) : Prop := t = s.setCfg c

/-- The state of an outcome, built with other parameters. -/
def outcomeSetCfg (c : Config) :
    Host.Outcome State Fault Refusal → Host.Outcome State Fault Refusal
  | .next s    => .next (s.setCfg c)
  | .fault r   => .fault r
  | .refused r => .refused r

/-- The first outcome, under `fault`, is `ArithmeticOverflow` taken, or the second is the same but
for the parameters. -/
inductive StepAgrees (c : Config) :
    Host.Outcome State Fault Refusal → Host.Outcome State Fault Refusal → Prop where
  | same (x : Host.Outcome State Fault Refusal) : StepAgrees c x (outcomeSetCfg c x)
  | overflow {t : State} {op : ArithOp} (h : t.status = .errored (.arithmeticOverflow op))
      (y : Host.Outcome State Fault Refusal) : StepAgrees c (.next t) y

theorem AgreeUnlessOverflow.of_eq {α : Type} {x y : Except ErrorValue α} (h : y = x) :
    AgreeUnlessOverflow Eq x y := by
  subst h
  cases y with
  | ok a => exact .ok rfl
  | error e => exact .error e

theorem AgreeUnlessOverflow.bind {α β γ δ : Type} {R : α → β → Prop} {S : γ → δ → Prop}
    {x : Except ErrorValue α} {y : Except ErrorValue β} {f : α → Except ErrorValue γ}
    {g : β → Except ErrorValue δ} (hxy : AgreeUnlessOverflow R x y)
    (h : ∀ a b, R a b → AgreeUnlessOverflow S (f a) (g b)) :
    AgreeUnlessOverflow S (x >>= f) (y >>= g) := by
  cases hxy with
  | ok hab => exact h _ _ hab
  | error e => exact .error e
  | overflow op y => exact .overflow op _

/-- Two chains whose first results are equal when they agree. -/
theorem AgreeUnlessOverflow.bind_eq {α γ δ : Type} {S : γ → δ → Prop} {x y : Except ErrorValue α}
    {f : α → Except ErrorValue γ} {g : α → Except ErrorValue δ} (hxy : AgreeUnlessOverflow Eq x y)
    (h : ∀ a, AgreeUnlessOverflow S (f a) (g a)) : AgreeUnlessOverflow S (x >>= f) (y >>= g) :=
  hxy.bind fun a _ hab => hab ▸ h a

theorem chk64_agree {cfg : Config} (hf : cfg.arithOverflow = .fault) (c : Config) (op : ArithOp)
    (v : Int) : AgreeUnlessOverflow Eq (chk64 cfg op v) (chk64 c op v) := by
  by_cases hv : FitsInt64 v
  · exact .of_eq ((chk64_fits hv c op).trans (chk64_fits hv cfg op).symm)
  · rw [chk64_fault hv hf]
    exact .overflow op _

/-! ### What does not look at the parameters, or only at OVERFLOW_REGION -/

theorem State.isRunning_setCfg (s : State) (c : Config) :
    (s.setCfg c).isRunning = s.isRunning := rfl

theorem Memory.accessible_congr {c d : Config} (h : c.overflowRegion = d.overflowRegion)
    (m : Memory) (a : Nat) : m.accessible c a = m.accessible d a := by
  rw [Memory.accessible, Memory.accessible, h]

theorem Memory.read_congr {c d : Config} (h : c.overflowRegion = d.overflowRegion) (m : Memory)
    (a : Nat) : m.read c a = m.read d a := by
  rw [Memory.read, Memory.read, Memory.accessible_congr h]

theorem Memory.write_congr {c d : Config} (h : c.overflowRegion = d.overflowRegion) (m : Memory)
    (a : Nat) (v : Word) : m.write c a v = m.write d a v := by
  rw [Memory.write, Memory.write, Memory.accessible_congr h]

theorem load_setCfg {s : State} {c : Config} (h : s.cfg.overflowRegion = c.overflowRegion)
    (a : Nat) : (s.setCfg c).load a = s.load a := (Memory.read_congr h s.mem a).symm

theorem store_setCfg {s : State} {c : Config} (h : s.cfg.overflowRegion = c.overflowRegion)
    (a : Nat) (v : Word) :
    (s.setCfg c).store a v = (s.store a v).map fun t => t.setCfg c := by
  rw [State.store, State.store, State.setCfg_mem, State.setCfg_cfg, ← Memory.write_congr h]
  cases s.mem.write s.cfg a v <;> rfl

theorem jumpTo_setCfg (s : State) (c : Config) (w : Word) :
    jumpTo (s.setCfg c) w = (jumpTo s w).map fun t => t.setCfg c := by
  unfold jumpTo
  split <;> rfl

/-- The state a port operation leaves, built with other parameters. -/
def PortResult.setCfg {α : Type} (c : Config) : PortResult α → PortResult α
  | .done x s  => .done x (s.setCfg c)
  | .error e   => .error e
  | .wait      => .wait
  | .missing k => .missing k

theorem readerRead_setCfg (s : State) (c : Config) :
    readerRead (s.setCfg c) = (readerRead s).setCfg c := by
  cases hr : s.reader with
  | disabled => rw [readerRead_disabled hr, readerRead_disabled (s := s.setCfg c) hr]; rfl
  | fixedSeq q =>
    cases q with
    | nil =>
      rw [(readerRead_readFromInput_iff (s := s)).2 (.inl hr),
        (readerRead_readFromInput_iff (s := s.setCfg c)).2 (.inl hr)]
      rfl
    | cons v q => rw [readerRead_fixedSeq hr, readerRead_fixedSeq (s := s.setCfg c) hr]; rfl
  | channel k =>
    cases hk : s.channels[k]? with
    | none => simp only [readerRead, State.setCfg_reader, State.setCfg_channels, hr, hk]; rfl
    | some ch =>
      rw [readerRead_channel hr hk, readerRead_channel (s := s.setCfg c) hr hk]
      cases ch.receive <;> rfl

theorem writerWrite_setCfg (s : State) (c : Config) (v : Word) :
    writerWrite (s.setCfg c) v = (writerWrite s v).setCfg c := by
  cases hw : s.writer with
  | disabled => rw [writerWrite_disabled hw, writerWrite_disabled (s := s.setCfg c) hw]; rfl
  | fixedSeq log => rw [writerWrite_fixedSeq hw, writerWrite_fixedSeq (s := s.setCfg c) hw]; rfl
  | channel k =>
    cases hk : s.channels[k]? with
    | none => simp only [writerWrite, State.setCfg_writer, State.setCfg_channels, hw, hk]; rfl
    | some ch =>
      rw [writerWrite_channel hw hk, writerWrite_channel (s := s.setCfg c) hw hk]
      cases ch.send v <;> rfl

/-! ### An instruction under `fault` and under other parameters -/

theorem AgreeUnlessOverflow.of_map {c : Config} {x y : Except ErrorValue State}
    (h : y = x.map fun t => t.setCfg c) : AgreeUnlessOverflow (BuiltWith c) x y := by
  subst h
  cases x with
  | ok t => exact .ok rfl
  | error e => exact .error e

theorem StepAgrees.next {c : Config} {s t : State} (h : BuiltWith c s t) :
    StepAgrees c (.next s) (.next t) := by
  cases h
  exact .same (.next s)

theorem settle_agrees {c : Config} {s : State} {x y : Except ErrorValue State}
    (h : AgreeUnlessOverflow (BuiltWith c) x y) :
    StepAgrees c (settle s x) (settle (s.setCfg c) y) := by
  cases h with
  | ok hst => exact .next hst
  | error e => exact .next rfl
  | overflow op y => exact .overflow (by rfl) _

section Instructions

variable {s : State} {c : Config} (hf : s.cfg.arithOverflow = .fault)
  (hr : s.cfg.overflowRegion = c.overflowRegion)
include hf hr

theorem resolve_agree (i : Nat) (m : Mode) :
    AgreeUnlessOverflow Eq (resolve s i m) (resolve (s.setCfg c) i m) := by
  have hload := AgreeUnlessOverflow.of_eq (load_setCfg hr i)
  cases m with
  | position => exact hload.bind_eq fun w => .of_eq rfl
  | immediate => exact .ok rfl
  | relative =>
    exact hload.bind_eq fun w => (chk64_agree hf c _ _).bind_eq fun a => .of_eq rfl

theorem operand_agree (k : Nat) (m : Mode) :
    AgreeUnlessOverflow Eq (operand s k m) (operand (s.setCfg c) k m) :=
  (resolve_agree hf hr _ m).bind_eq fun a => .of_eq (load_setCfg hr a)

theorem dest_agree (k : Nat) (m : Mode) :
    AgreeUnlessOverflow Eq (dest s k m) (dest (s.setCfg c) k m) := resolve_agree hf hr _ m

omit hf in
theorem store_advance_agree (d : Nat) (v : Word) (k : Nat) :
    AgreeUnlessOverflow (BuiltWith c) (do let t ← s.store d v; return t.advance k)
      (do let t ← (s.setCfg c).store d v; return t.advance k) :=
  (AgreeUnlessOverflow.of_map (store_setCfg hr d v)).bind fun t u htu => by
    cases htu
    exact .ok rfl

theorem binaryToDest_agrees {f g : Word → Word → Except ErrorValue Word} (m1 m2 m3 : Mode)
    (hfg : ∀ a b, AgreeUnlessOverflow Eq (f a b) (g a b)) :
    StepAgrees c (binaryToDest f m1 m2 m3 s) (binaryToDest g m1 m2 m3 (s.setCfg c)) :=
  settle_agrees <| (operand_agree hf hr 1 m1).bind_eq fun a =>
    (operand_agree hf hr 2 m2).bind_eq fun b => (dest_agree hf hr 3 m3).bind_eq fun d =>
      (hfg a b).bind_eq fun r => store_advance_agree hr d r 4

theorem jumpWhen_agrees (taken : Word → Bool) (m1 m2 : Mode) :
    StepAgrees c (jumpWhen taken m1 m2 s) (jumpWhen taken m1 m2 (s.setCfg c)) := by
  refine settle_agrees <| (operand_agree hf hr 1 m1).bind_eq fun x =>
    (operand_agree hf hr 2 m2).bind_eq fun w => ?_
  split
  · exact .of_map (jumpTo_setCfg s c w)
  · exact .ok rfl

theorem execAdjustRelativeBase_agrees (m1 : Mode) :
    StepAgrees c (execAdjustRelativeBase m1 s) (execAdjustRelativeBase m1 (s.setCfg c)) :=
  settle_agrees <| (operand_agree hf hr 1 m1).bind_eq fun _ =>
    (chk64_agree hf c _ _).bind_eq fun _ => .ok rfl

theorem execRead_agrees (m1 : Mode) :
    StepAgrees c (execRead m1 s) (execRead m1 (s.setCfg c)) := by
  rw [execRead, execRead, readerRead_setCfg]
  cases hrd : readerRead s with
  | done v u =>
    obtain ⟨-, -, -, -, -, hcfg⟩ := readerRead_frame hrd
    rw [← hcfg] at hf hr
    exact settle_agrees <| (dest_agree hf hr 1 m1).bind_eq fun d => store_advance_agree hr d v 2
  | error e => exact .same (.next (s.raise e))
  | wait => exact .same (.next s)
  | missing k => exact .same (.fault _)

theorem execWrite_agrees (m1 : Mode) :
    StepAgrees c (execWrite m1 s) (execWrite m1 (s.setCfg c)) := by
  cases hb : s.writerBlocked with
  | true =>
    rw [execWrite_blocked hb, execWrite_blocked (s := s.setCfg c) hb]
    exact .same (.next s)
  | false =>
    have hb' : (s.setCfg c).writerBlocked = false := hb
    have hagree := operand_agree hf hr 1 m1
    generalize hx : operand s 1 m1 = x at hagree
    generalize hy : operand (s.setCfg c) 1 m1 = y at hagree
    cases hagree with
    | @ok v _ h =>
      cases h
      rw [execWrite_port hb hx, execWrite_port hb' hy, writerWrite_setCfg]
      cases writerWrite s v with
      | done _ u => exact .same (.next (u.advance 2))
      | error e => exact .same (.next (s.raise e))
      | wait => exact .same (.next s)
      | missing k => exact .same (.fault _)
    | error e =>
      rw [execWrite_operand_error hb hx, execWrite_operand_error hb' hy]
      exact .same (.next (s.raise e))
    | overflow op =>
      rw [execWrite_operand_error hb hx]
      exact .overflow rfl _

theorem exec_agrees (i : Instr) : StepAgrees c (exec i s) (exec i (s.setCfg c)) := by
  cases i with
  | add m1 m2 m3 => exact binaryToDest_agrees hf hr m1 m2 m3 fun _ _ => chk64_agree hf c _ _
  | mul m1 m2 m3 => exact binaryToDest_agrees hf hr m1 m2 m3 fun _ _ => chk64_agree hf c _ _
  | read m1 => exact execRead_agrees hf hr m1
  | write m1 => exact execWrite_agrees hf hr m1
  | jumpIfTrue m1 m2 => exact jumpWhen_agrees hf hr wordIsTrue m1 m2
  | jumpIfFalse m1 m2 => exact jumpWhen_agrees hf hr wordIsFalse m1 m2
  | lessThan m1 m2 m3 => exact binaryToDest_agrees hf hr m1 m2 m3 fun _ _ => .ok rfl
  | equals m1 m2 m3 => exact binaryToDest_agrees hf hr m1 m2 m3 fun _ _ => .ok rfl
  | adjustRelativeBase m1 => exact execAdjustRelativeBase_agrees hf hr m1
  | halt => exact .same (.next (s.terminate .halted))
  | skip => exact .same (.next (s.advance 1))

end Instructions

/-! ### A well-formed step -/

/-- A word with no mode digit above 2 decodes alike under all parameters (30 R77). -/
theorem decode_of_small_digits {w : Word} (h : w.toInt < 0 ∨ ∀ d ∈ modeDigits w.toNat, d ≤ 2)
    (c d : Config) : decode c w = decode d w := by
  by_cases h0 : w.toInt < 0
  · rw [decode_of_neg h0, decode_of_neg h0]
  · have hsmall := h.resolve_left h0
    cases hrow : opcodeRow (w.toNat % 100) with
    | none => rw [decode_of_opcodeRow_none hrow, decode_of_opcodeRow_none hrow]
    | some r =>
      have hgood (cfg : Config) := (decode_of_row (cfg := cfg) (Int.not_lt.1 h0) hrow).1 fun d hd =>
        hsmall d (mem_modeDigits_of_checked hd)
      rw [hgood c, hgood d]

theorem State.digitsFit_iff {s : State} : s.digitsFit = true ↔
    ∀ w, s.load s.pc = .ok w → w.toInt < 0 ∨ ∀ d ∈ modeDigits w.toNat, d ≤ 2 := by
  unfold State.digitsFit
  cases s.load s.pc <;> simp

theorem fetchDecode_setCfg {s : State} {c : Config} (hr : s.cfg.overflowRegion = c.overflowRegion)
    (hd : s.digitsFit = true) : (s.setCfg c).fetchDecode = s.fetchDecode := by
  unfold State.fetchDecode
  rw [State.setCfg_pc, load_setCfg hr]
  cases hload : s.load s.pc with
  | error e => rfl
  | ok w =>
    have hdec := decode_of_small_digits (State.digitsFit_iff.1 hd w hload) c s.cfg
    simp only [State.setCfg_cfg, hdec]

theorem step_agrees {s : State} {c : Config} (hf : s.cfg.arithOverflow = .fault)
    (hr : s.cfg.overflowRegion = c.overflowRegion) (hd : s.digitsFit = true) :
    StepAgrees c (step s) (step (s.setCfg c)) := by
  unfold step
  rw [State.isRunning_setCfg, fetchDecode_setCfg hr hd]
  split
  · split
    · exact exec_agrees hf hr _
    · exact .same (.next _)
  · exact .same (.next s)

/-- The state with ARITH_OVERFLOW at `fault`, by which `resultsFit` is judged. -/
def State.underFault (s : State) : State := s.setCfg { s.cfg with arithOverflow := .fault }

theorem State.resultsFit_spec {s t : State} (h : s.resultsFit = true)
    (ht : step s.underFault = .next t) (op : ArithOp) :
    t.status ≠ .errored (.arithmeticOverflow op) := by
  intro hst
  have ht' : step (s.setCfg { s.cfg with arithOverflow := .fault }) = .next t := ht
  simp [State.resultsFit, ht', hst, ErrorValue.code] at h

theorem StepAgrees.eq_of_no_overflow {c : Config} {x y : Host.Outcome State Fault Refusal}
    (h : StepAgrees c x y)
    (hx : ∀ t op, x = .next t → t.status ≠ .errored (.arithmeticOverflow op)) :
    y = outcomeSetCfg c x := by
  cases h with
  | same => rfl
  | overflow ht => exact absurd ht (hx _ _ rfl)

theorem outcomeSetCfg_outcomeSetCfg (c d : Config) (x : Host.Outcome State Fault Refusal) :
    outcomeSetCfg d (outcomeSetCfg c x) = outcomeSetCfg d x := by
  cases x <;> rfl

/-- A well-formed step is that of the core under `fault`, whatever parameters of the same block it
is built with. -/
theorem step_eq_underFault {s : State} {c : Config} (hs : s.wellFormedStep = true)
    (hc : sameBlock s.cfg c) : step (s.setCfg c) = outcomeSetCfg c (step s.underFault) := by
  obtain ⟨hdigits, hresults⟩ := Bool.and_eq_true_iff.1 hs
  obtain ⟨hregion, -⟩ := hc
  have hd : s.underFault.digitsFit = true := hdigits
  exact (step_agrees (s := s.underFault) rfl hregion hd).eq_of_no_overflow fun _ op ht =>
    State.resultsFit_spec hresults ht op

/-- A core whose step, if it is Running, is well formed steps alike under other parameters of the
same block; a stopped one stays. -/
theorem step_setCfg {s : State} {c : Config} (hs : s.isRunning = true → s.wellFormedStep = true)
    (hc : sameBlock s.cfg c) : step (s.setCfg c) = outcomeSetCfg c (step s) := by
  cases hrun : s.isRunning with
  | false => rw [step_stopped hrun, step_stopped (s := s.setCfg c) hrun]; rfl
  | true =>
    have hown : step s = outcomeSetCfg s.cfg (step s.underFault) :=
      step_eq_underFault (hs hrun) (c := s.cfg) ⟨rfl, rfl⟩
    rw [step_eq_underFault (hs hrun) hc, hown, outcomeSetCfg_outcomeSetCfg]

/-! ### Runs of one core -/

theorem run_succ_next {s t : State} {k : Nat} (h : Sys2Proof.core.run (k + 1) s = .next t) :
    ∃ u, step s = .next u ∧ Sys2Proof.core.run k u = .next t := by
  cases hs : step s with
  | next u => exact ⟨u, rfl, by rwa [run_succ hs] at h⟩
  | fault r =>
    have hc : Sys2Proof.core.step s = .fault r := hs
    simp [Host.Core.run, hc] at h
  | refused r =>
    have hc : Sys2Proof.core.step s = .refused r := hs
    simp [Host.Core.run, hc] at h

theorem State.wellFormedRun.step {s t : State} (hs : s.wellFormedRun) (ht : step s = .next t) :
    t.wellFormedRun := fun k u hu => hs (k + 1) u (by rw [run_succ ht, hu])

theorem run_setCfg {c : Config} (k : Nat) {s t : State} (hs : s.wellFormedRun)
    (hc : sameBlock s.cfg c) (h : Sys2Proof.core.run k s = .next t) :
    Sys2Proof.core.run k (s.setCfg c) = .next (t.setCfg c) := by
  induction k generalizing s with
  | zero => cases h; rfl
  | succ k ih =>
    obtain ⟨u, hu, h⟩ := run_succ_next h
    obtain ⟨-, hcfg, -⟩ := step_frame hu
    have hstep : step (s.setCfg c) = .next (u.setCfg c) := by
      rw [step_setCfg (hs 0 s rfl) hc, hu]
      rfl
    rw [run_succ hstep]
    exact ih (hs.step hu) (hcfg ▸ hc) h

/-! ### Boots -/

theorem presetWords_setCfg {c : Config} {ws : List (Nat × Word)} {s t : State}
    (hr : s.cfg.overflowRegion = c.overflowRegion) (h : presetWords s ws = some t) :
    presetWords (s.setCfg c) ws = some (t.setCfg c) := by
  induction ws generalizing s with
  | nil => cases h; rfl
  | cons p rest ih =>
    obtain ⟨a, v⟩ := p
    obtain ⟨u, hu, h⟩ := Option.bind_eq_some_iff.1 h
    have hstore : s.store a v = .ok u := by
      unfold presetWord at hu
      cases hx : s.store a v <;> simp_all [Except.toOption]
    obtain ⟨-, rfl⟩ := State.store_ok.1 hstore
    have hpreset : presetWord (s.setCfg c) a v = some ((s.setMem (s.mem.poke a v)).setCfg c) := by
      rw [presetWord, store_setCfg hr, hstore]
      rfl
    rw [presetWords, hpreset]
    exact ih hr h

/-- Steps 1 to 4 of the boot order look at OVERFLOW_REGION only (70 R243). -/
theorem bootCore_setCfg {c d : Config} {l : CoreLaunch} {s : State}
    (hr : c.overflowRegion = d.overflowRegion) (h : bootCore c l = some s) :
    bootCore d l = some (s.setCfg d) := by
  obtain ⟨s0, h0, h⟩ := Option.bind_eq_some_iff.1 h
  obtain ⟨s1, h1, h⟩ := Option.bind_eq_some_iff.1 h
  obtain ⟨s2, h2, h3⟩ := Option.bind_eq_some_iff.1 h
  have hload : loadIntegers d l.image = some (s0.setCfg d) := by
    unfold loadIntegers at h0 ⊢
    split at h0
    · rename_i himage
      cases h0
      rw [if_pos himage]
      rfl
    · cases h0
  obtain ⟨-, rfl⟩ := loadIntegers_some h0
  have hwords := presetWords_setCfg (c := d) (s := (loadImage c (l.image.map wordOfInt)).setRb l.rb)
    hr h1
  have hreader : bindReader (s1.setCfg d) l.reader = some (s2.setCfg d) := by
    unfold bindReader at h2 ⊢
    split at h2
    · rename_i hdis
      cases h2
      rw [State.setCfg_reader, if_pos hdis]
      rfl
    · cases h2
  have hwriter : bindWriter (s2.setCfg d) l.writer = some (s.setCfg d) := by
    unfold bindWriter at h3 ⊢
    split at h3
    · rename_i hdis
      cases h3
      rw [State.setCfg_writer, if_pos hdis]
      rfl
    · cases h3
  simp only [bootCore, hload, Option.bind_some]
  exact Option.bind_eq_some_iff.2 ⟨_, hwords, Option.bind_eq_some_iff.2 ⟨_, hreader, hwriter⟩⟩

theorem bootCore_cfg {c : Config} {l : CoreLaunch} {s : State} (h : bootCore c l = some s) :
    s.cfg = c := by
  obtain ⟨-, -, hs, -⟩ := bootCore_some h
  rw [hs]
  rfl

theorem bootCores_setCfg {c d : Config} {ls : List CoreLaunch} {ss : List State}
    (hr : c.overflowRegion = d.overflowRegion) (h : bootCores c ls = some ss) :
    bootCores d ls = some (ss.map fun s => s.setCfg d) := by
  induction ls generalizing ss with
  | nil => cases h; rfl
  | cons l rest ih =>
    obtain ⟨s, hs, h⟩ := Option.bind_eq_some_iff.1 h
    obtain ⟨r, hrest, rfl⟩ := Option.map_eq_some_iff.1 h
    rw [bootCores, bootCore_setCfg hr hs, ih hrest]
    rfl

/-- The channels are made for the bindings of the cores, not for their parameters. -/
theorem bootChannels_setCfg (c : Config) (cap : Capacity) (k : Nat) (cores : List State)
    (acts : List HostAct) :
    bootChannels cap k (cores.map fun s => s.setCfg c) acts = bootChannels cap k cores acts := by
  have hreader : readerIds (cores.map fun s => s.setCfg c) = readerIds cores :=
    List.filterMap_map ..
  have hwriter : writerIds (cores.map fun s => s.setCfg c) = writerIds cores :=
    List.filterMap_map ..
  rw [bootChannels, bootChannels, wiringOk, wiringOk, createChannels, createChannels, hreader,
    hwriter]

theorem boot_setCfg {l : Launch} {c d : Config} {s : State} (hcd : sameBlock c d)
    (h : boot { l with cfg := c } = some s) : boot { l with cfg := d } = some (s.setCfg d) := by
  obtain ⟨hregion, hcapacity⟩ := hcd
  obtain ⟨s0, hcore, h⟩ := Option.bind_eq_some_iff.1 h
  obtain ⟨cs, hchannels, rfl⟩ := Option.map_eq_some_iff.1 h
  have hchannels' : bootChannels d.channelCapacity l.channels [s0.setCfg d] l.acts = some cs := by
    rw [← hcapacity, ← hchannels]
    exact bootChannels_setCfg d _ _ [s0] _
  refine Option.bind_eq_some_iff.2 ⟨_, bootCore_setCfg hregion hcore, ?_⟩
  exact Option.map_eq_some_iff.2 ⟨cs, hchannels', rfl⟩

theorem boot_cfg {l : Launch} {s : State} (h : boot l = some s) : s.cfg = l.cfg := by
  obtain ⟨s0, hcore, h⟩ := Option.bind_eq_some_iff.1 h
  obtain ⟨cs, -, rfl⟩ := Option.map_eq_some_iff.1 h
  rw [State.setChannels_cfg, bootCore_cfg hcore]

theorem bootNetwork_setCfg {l : NetworkLaunch} {c d : Config} {n : Network} (hcd : sameBlock c d)
    (h : bootNetwork { l with cfg := c } = some n) :
    bootNetwork { l with cfg := d } = some (n.setCfg d) := by
  obtain ⟨hregion, hcapacity⟩ := hcd
  obtain ⟨cores, hcores, h⟩ := Option.bind_eq_some_iff.1 h
  obtain ⟨cs, hchannels, rfl⟩ := Option.map_eq_some_iff.1 h
  refine Option.bind_eq_some_iff.2 ⟨_, bootCores_setCfg hregion hcores, ?_⟩
  refine Option.map_eq_some_iff.2 ⟨cs, ?_, rfl⟩
  rw [bootChannels_setCfg, ← hcapacity]
  exact hchannels

theorem bootNetwork_cfg {l : NetworkLaunch} {n : Network} (h : bootNetwork l = some n) :
    ∀ s ∈ n.cores, s.cfg = l.cfg := by
  obtain ⟨cores, hcores, h⟩ := Option.bind_eq_some_iff.1 h
  obtain ⟨cs, -, rfl⟩ := Option.map_eq_some_iff.1 h
  intro s hs
  obtain ⟨-, -, hbooted⟩ := bootCores_some hcores
  obtain ⟨cl, hcl⟩ := hbooted s hs
  exact bootCore_cfg hcl

/-! ### Runs of a network -/

theorem Network.core_setCfg (n : Network) (c : Config) (k : Nat) :
    (n.setCfg c).core k = (n.core k).map fun s => s.setCfg c := by
  simp only [Network.core, Network.setCfg, List.getElem?_map, Option.map_map]
  rfl

theorem Network.setCore_setCfg (n : Network) (c : Config) (k : Nat) (t : State) :
    (n.setCfg c).setCore k (t.setCfg c) = (n.setCore k t).setCfg c := by
  simp only [Network.setCore, Network.setCfg, List.map_set]
  rfl

/-- Every core of the network is built with parameters of the block of `c`. -/
def Network.inBlock (n : Network) (c : Config) : Prop :=
  ∀ k s, n.core k = some s → sameBlock s.cfg c

theorem Network.act_setCfg {n : Network} {c : Config} (hn : n.wellFormedRun) (hc : n.inBlock c)
    (g : Agent) : (n.setCfg c).act g = (n.act g).map fun m => m.setCfg c := by
  cases g with
  | host a =>
    simp only [Network.act, Option.map_map]
    rfl
  | core k =>
    simp only [Network.act, Network.coreStep, Network.core_setCfg]
    cases hs : n.core k with
    | none => rfl
    | some s =>
      simp only [Option.map_some, step_setCfg (hn [] n k s rfl hs) (hc k s hs)]
      cases step s with
      | next t => exact congrArg some (n.setCore_setCfg c k t)
      | fault r => rfl
      | refused r => rfl

theorem Network.inBlock.act {n m : Network} {c : Config} {g : Agent} (hn : n.inBlock c)
    (h : n.act g = some m) : m.inBlock c := by
  intro j s' hj
  cases g with
  | host a =>
    obtain ⟨ds, -, rfl⟩ := Option.map_eq_some_iff.1 h
    obtain ⟨s, hs, rfl⟩ := Network.core_setChannels hj
    exact hn j s hs
  | core k =>
    obtain ⟨s, t, hs, ht, rfl⟩ := Network.coreStep_some h
    rcases Network.core_setCore hs hj with ⟨rfl, rfl⟩ | ⟨-, r, hr, rfl⟩
    · obtain ⟨-, hcfg, -⟩ := step_frame ht
      exact hcfg ▸ hn _ s hs
    · exact hn j r hr

theorem Network.wellFormedRun.act {n m : Network} {g : Agent} (hn : n.wellFormedRun)
    (h : n.act g = some m) : m.wellFormedRun := fun gs p k s hp =>
  hn (g :: gs) p k s (by rw [Network.run, h]; exact hp)

theorem Network.run_setCfg {c : Config} (gs : List Agent) {n : Network} (hn : n.wellFormedRun)
    (hc : n.inBlock c) : (n.setCfg c).run gs = (n.run gs).map fun m => m.setCfg c := by
  induction gs generalizing n with
  | nil => rfl
  | cons g gs ih =>
    rw [Network.run, Network.run, Network.act_setCfg hn hc]
    cases h : n.act g with
    | none => rfl
    | some m => exact ih (hn.act h) (hc.act h)

/-- Settles O57: a well-formed step is the step under `fault`, which no other choice changes; runs
and boots follow step by step. -/
theorem openParametersAreIrrelevantToAWellFormedRun :
    Obligations.OpenParametersAreIrrelevantToAWellFormedRun := by
  refine ⟨fun s t c _ hs hc ht => ?_, fun l s c hl hc hboot => ?_, fun l n c hl hc hboot => ?_⟩
  · have hstep := step_setCfg (c := c) (fun _ => hs) hc
    rw [ht] at hstep
    exact hstep
  · have hblock : sameBlock l.cfg.openDefaults c := hc
    have hcfg : s.cfg = l.cfg.openDefaults := boot_cfg hboot
    exact ⟨boot_setCfg hblock hboot, fun k t ht => run_setCfg k (hl s hboot) (hcfg ▸ hblock) ht⟩
  · have hblock : sameBlock l.cfg.openDefaults c := hc
    have hin : n.inBlock c := fun k s hs => by
      obtain ⟨b, hb, rfl⟩ := Network.core_some hs
      have hcfg : b.cfg = l.cfg.openDefaults := bootNetwork_cfg hboot b (List.mem_of_getElem? hb)
      exact hcfg ▸ hblock
    exact ⟨bootNetwork_setCfg hblock hboot, fun gs => Network.run_setCfg gs (hl n hboot) hin⟩

end Sys2Proof.Machine
end

