-- ==== Sys2Proof/Proofs/CanonicalMemory.lean ====
section
/-! PROOFS. A canonical memory is determined by what it reads (20_memory.md R44, 92 D24). -/

namespace Sys2Proof.Machine

/-- In canonical form the entries are exactly the addresses beyond the store that do not read 0. -/
theorem Memory.mem_overflow_iff {m : Memory} (h : m.wf) {a : Nat} {v : Word} :
    (a, v) ∈ m.overflow ↔ m.size ≤ a ∧ v ≠ 0 ∧ m.peek a = v := by
  obtain ⟨hsorted, hentry⟩ := h
  constructor
  · intro hv
    obtain ⟨ha, hne⟩ := hentry _ hv
    exact ⟨ha, hne, (Memory.peek_of_le ha).trans (overflowGet_of_mem hsorted hv)⟩
  · rintro ⟨ha, hne, hpeek⟩
    by_contra hv
    refine hne ?_
    rw [← hpeek, Memory.peek_of_le ha]
    refine overflowGet_of_not_mem fun w hw => hv ?_
    rwa [← hpeek, Memory.peek_of_le ha, overflowGet_of_mem hsorted hw]

theorem Memory.overflow_nodup {m : Memory} (h : m.wf) : m.overflow.Nodup :=
  h.1.imp fun hlt he => absurd (he ▸ hlt) (lt_irrefl _)

/-- Settles O11: the stores agree word by word, and the overflow lists, which rise strictly, have
the same entries. -/
theorem canonicalMemoriesThatReadAlikeAreEqual :
    Obligations.CanonicalMemoriesThatReadAlikeAreEqual := by
  intro m n hm hn hsize hpeek
  have hstore : m.store = n.store := List.ext_getElem hsize fun a ha hb => by
    rw [← Memory.peek_of_lt ha, ← Memory.peek_of_lt hb, hpeek]
  have hperm : m.overflow.Perm n.overflow :=
    (List.perm_ext_iff_of_nodup (Memory.overflow_nodup hm) (Memory.overflow_nodup hn)).2
      fun ⟨a, v⟩ => by
        rw [Memory.mem_overflow_iff hm, Memory.mem_overflow_iff hn, hsize, hpeek]
  have hoverflow : m.overflow = n.overflow :=
    hperm.eq_of_pairwise (fun _ _ _ _ hab hba => absurd hab hba.asymm) hm.1 hn.1
  cases m
  cases n
  simp_all

end Sys2Proof.Machine
end

