-- ==== Sys2Proof/Proofs/Boot.lean ====
section
/-! PROOFS. The boot of one core and of a network (70_reset_and_hazards.md R240 to R245): what a
boot that succeeds gives, and which launches boot. -/

namespace Sys2Proof.Machine

/-! ### The wiring -/

/-- A filtered map has no duplicate exactly when no two places give the same value. -/
theorem nodup_filterMap_iff {α β : Type} {f : α → Option β} {l : List α} :
    (l.filterMap f).Nodup ↔ ∀ (j k : Nat) (a b : α) (x : β), j ≠ k → l[j]? = some a →
      l[k]? = some b → f a = some x → f b ≠ some x := by
  rw [List.Nodup, List.pairwise_filterMap, List.pairwise_iff_getElem]
  constructor
  · intro h j k a b x hjk hj hk ha hb
    obtain ⟨hj', rfl⟩ := List.getElem?_eq_some_iff.1 hj
    obtain ⟨hk', rfl⟩ := List.getElem?_eq_some_iff.1 hk
    rcases Nat.lt_or_gt_of_ne hjk with hlt | hlt
    · exact h j k hj' hk' hlt x ha x hb rfl
    · exact h k j hk' hj' hlt x hb x ha rfl
  · rintro h j k hj hk hlt x ha y hb rfl
    exact h j k _ _ x hlt.ne (List.getElem?_eq_getElem hj) (List.getElem?_eq_getElem hk) ha hb

theorem nodup_readerIds_iff {cores : List State} : (readerIds cores).Nodup ↔
    ∀ (j k : Nat) (a b : State) (c : Nat), j ≠ k → cores[j]? = some a → cores[k]? = some b →
      a.reader = .channel c → b.reader ≠ .channel c := by
  simp only [readerIds, nodup_filterMap_iff, Ne, ReaderPort.channelId_eq_some]

theorem nodup_writerIds_iff {cores : List State} : (writerIds cores).Nodup ↔
    ∀ (j k : Nat) (a b : State) (c : Nat), j ≠ k → cores[j]? = some a → cores[k]? = some b →
      a.writer = .channel c → b.writer ≠ .channel c := by
  simp only [writerIds, nodup_filterMap_iff, Ne, WriterPort.channelId_eq_some]

/-! ### A booted core -/

theorem WriterPort.atBind_channel {w : WriterPort} {c : Nat} :
    w.atBind = .channel c ↔ w = .channel c := by
  rw [← WriterPort.channelId_eq_some, WriterPort.channelId_atBind, WriterPort.channelId_eq_some]

theorem Memory.peek_image {image : List Int} {a : Nat} {v : Int} (hfit : ∀ x ∈ image, FitsInt64 x)
    (h : image[a]? = some v) : (Memory.peek ⟨image.map wordOfInt, []⟩ a).toInt = v := by
  obtain ⟨ha, rfl⟩ := List.getElem?_eq_some_iff.1 h
  rw [Memory.peek_of_lt (m := ⟨image.map wordOfInt, []⟩) (by simpa using ha), List.getElem_map]
  exact toInt_wordOfInt (hfit _ (List.getElem_mem ha))

theorem Memory.peek_beyond_image {image : List Int} {a : Nat} (h : image.length ≤ a) :
    Memory.peek ⟨image.map wordOfInt, []⟩ a = 0 :=
  Memory.peek_of_le (m := ⟨image.map wordOfInt, []⟩) (by simpa using h)

/-- Steps 1 to 4 of the boot order give the core that the launch asks for. -/
theorem launchedAs_of_bootCore {cfg : Config} {l : CoreLaunch} {s : State}
    (h : bootCore cfg l = some s) : LaunchedAs l s := by
  obtain ⟨hfit, -, hs, hsize, hpeek, hpreset⟩ := bootCore_some h
  have hwriter : s.writer = l.writer.atBind := by rw [hs]; rfl
  exact {
    status := by rw [hs]; rfl
    pc := by rw [hs]; rfl
    rb := by rw [hs]; rfl
    reader := by rw [hs]; rfl
    writerDisabled := fun hw => by rw [hwriter, hw]; rfl
    writerFixedSeq := fun log hw => by rw [hwriter, hw]; rfl
    writerChannel := fun c hw => by rw [hwriter, hw]; rfl
    size := hsize
    presets := hpreset
    image := fun a v ha hv => by rw [hpeek a ha, Memory.peek_image hfit hv]
    beyond := fun a ha hle => by rw [hpeek a ha, Memory.peek_beyond_image hle] }

/-- Making the channels changes nothing that the launch of the core asks for. -/
theorem LaunchedAs.setChannels {l : CoreLaunch} {s : State} (h : LaunchedAs l s)
    (cs : List Channel) : LaunchedAs l (s.setChannels cs) :=
  ⟨h.status, h.pc, h.rb, h.reader, h.writerDisabled, h.writerFixedSeq, h.writerChannel, h.size,
    h.presets, h.image, h.beyond⟩

theorem bootCore_reader {cfg : Config} {l : CoreLaunch} {s : State} (h : bootCore cfg l = some s)
    {c : Nat} : s.reader = .channel c ↔ l.reader = .channel c := by
  rw [(launchedAs_of_bootCore h).reader]

theorem bootCore_writer {cfg : Config} {l : CoreLaunch} {s : State} (h : bootCore cfg l = some s)
    {c : Nat} : s.writer = .channel c ↔ l.writer = .channel c := by
  obtain ⟨-, -, hs, -⟩ := bootCore_some h
  have hwriter : s.writer = l.writer.atBind := by rw [hs]; rfl
  rw [hwriter, WriterPort.atBind_channel]

theorem bootCore_mem_wf {cfg : Config} {l : CoreLaunch} {s : State} (h : bootCore cfg l = some s) :
    s.mem.wf := (bootCore_some h).2.1

/-! ### A booted core with its channels -/

theorem exists_channel_of_lt {cs : List Channel} {c k : Nat} (hlen : cs.length = k) (hc : c < k) :
    ∃ ch, cs[c]? = some ch :=
  ⟨_, List.getElem?_eq_getElem (hlen ▸ hc)⟩

/-- A booted core is well formed once the channels are made for it and its fellows. -/
theorem setChannels_wf_of_boot {cfg : Config} {l : CoreLaunch} {s : State} {cores : List State}
    {k : Nat} {acts : List HostAct} {cs : List Channel} (hcfg : cfg.wellFormed = true)
    (hs : bootCore cfg l = some s) (hmem : s ∈ cores)
    (h : bootChannels cfg.channelCapacity k cores acts = some cs) : (s.setChannels cs).wf := by
  obtain ⟨hwiring, hlen, hmade⟩ := bootChannels_some h
  obtain ⟨hreaders, hwriters, -, -⟩ := wiringOk_iff.1 hwiring
  have hscfg : s.cfg = cfg := bootCore_cfg hs
  have hmemwf : s.mem.wf := bootCore_mem_wf hs
  refine ⟨hmemwf, hscfg ▸ hcfg, fun ch hch => ?_, State.readerWf_iff.2 fun c hc => ?_,
    State.writerWf_iff.2 fun c hc => ?_⟩
  · obtain ⟨c, hc⟩ := List.mem_iff_getElem?.1 hch
    obtain ⟨hm, hhost, -⟩ := hmade c ch hc
    exact Channel.wf_iff.2 ⟨by rw [hm.cap, State.setChannels_cfg, hscfg], hhost, hm.room⟩
  · have hid : c ∈ readerIds cores := mem_readerIds.2 ⟨s, hmem, hc⟩
    obtain ⟨ch, hch⟩ := exists_channel_of_lt hlen (hreaders c hid)
    obtain ⟨hm, -, -⟩ := hmade c ch hch
    exact ⟨ch, hch, fun _ => hm.receiverPort.trans (decide_eq_true hid)⟩
  · have hid : c ∈ writerIds cores := mem_writerIds.2 ⟨s, hmem, hc⟩
    obtain ⟨ch, hch⟩ := exists_channel_of_lt hlen (hwriters c hid)
    obtain ⟨hm, -, -⟩ := hmade c ch hch
    exact ⟨ch, hch, fun _ => hm.senderPort.trans (decide_eq_true hid)⟩

theorem boot_some {l : Launch} {s : State} (h : boot l = some s) :
    ∃ b cs, bootCore l.cfg l.toCoreLaunch = some b ∧
      bootChannels l.cfg.channelCapacity l.channels [b] l.acts = some cs ∧
      s = b.setChannels cs := by
  obtain ⟨b, hb, h⟩ := Option.bind_eq_some_iff.1 h
  obtain ⟨cs, hcs, rfl⟩ := Option.map_eq_some_iff.1 h
  exact ⟨b, cs, hb, hcs, rfl⟩

/-- Cores booted from launches that keep their duties, no two bound to one side of a channel, are
wired (41 R131). -/
theorem wiringOk_of_duties {cfg : Config} {channels : Nat} {ls : List CoreLaunch} {ss : List State}
    (hd : ∀ l ∈ ls, l.duties cfg channels)
    (hfrom : ∀ (k : Nat) (s : State), ss[k]? = some s →
      ∃ l, ls[k]? = some l ∧ bootCore cfg l = some s)
    (hsides : ∀ (j k : Nat) (a b : CoreLaunch) (c : Nat), j ≠ k → ls[j]? = some a →
      ls[k]? = some b → (a.reader = .channel c → b.reader ≠ .channel c) ∧
        (a.writer = .channel c → b.writer ≠ .channel c)) : wiringOk channels ss = true := by
  refine wiringOk_iff.2 ⟨fun c hc => ?_, fun c hc => ?_,
    nodup_readerIds_iff.2 fun j k s t c hjk hj hk hs ht => ?_,
    nodup_writerIds_iff.2 fun j k s t c hjk hj hk hs ht => ?_⟩
  · obtain ⟨s, hs, hbound⟩ := mem_readerIds.1 hc
    obtain ⟨k, hk⟩ := List.mem_iff_getElem?.1 hs
    obtain ⟨l, hl, hboot⟩ := hfrom k s hk
    obtain ⟨-, -, hreader, -⟩ := hd l (List.mem_of_getElem? hl)
    exact hreader c ((bootCore_reader hboot).1 hbound)
  · obtain ⟨s, hs, hbound⟩ := mem_writerIds.1 hc
    obtain ⟨k, hk⟩ := List.mem_iff_getElem?.1 hs
    obtain ⟨l, hl, hboot⟩ := hfrom k s hk
    obtain ⟨-, -, -, hwriter⟩ := hd l (List.mem_of_getElem? hl)
    exact hwriter c ((bootCore_writer hboot).1 hbound)
  · obtain ⟨a, ha, hsa⟩ := hfrom j s hj
    obtain ⟨b, hb, htb⟩ := hfrom k t hk
    exact (hsides j k a b c hjk ha hb).1 ((bootCore_reader hsa).1 hs) ((bootCore_reader htb).1 ht)
  · obtain ⟨a, ha, hsa⟩ := hfrom j s hj
    obtain ⟨b, hb, htb⟩ := hfrom k t hk
    exact (hsides j k a b c hjk ha hb).2 ((bootCore_writer hsa).1 hs) ((bootCore_writer htb).1 ht)

theorem getElem?_singleton_some {α : Type} {x y : α} {k : Nat} (h : [x][k]? = some y) :
    k = 0 ∧ y = x := by
  cases k with
  | zero => cases h; exact ⟨rfl, rfl⟩
  | succ k => cases h

/-- Settles O52: steps 1 to 4 give the core asked for, steps 5 and 6 its channels; both go through
when the launch keeps its duties, and step 1 fails on a bad literal. -/
theorem bootGivesTheLaunchedCore : Obligations.BootGivesTheLaunchedCore := by
  refine ⟨fun l s hcfg h => ?_, fun l hd hp => ?_, fun l ⟨v, hv, hbad⟩ => ?_⟩
  · obtain ⟨b, cs, hb, hcs, rfl⟩ := boot_some h
    obtain ⟨-, hlen, hmade⟩ := bootChannels_some hcs
    have hbcfg : b.cfg = l.cfg := bootCore_cfg hb
    refine ⟨setChannels_wf_of_boot hcfg hb List.mem_cons_self hcs, hbcfg,
      (launchedAs_of_bootCore hb).setChannels cs, hlen, fun c ch hch hno => ?_⟩
    obtain ⟨-, -, hqueue⟩ := hmade c ch hch
    exact hqueue hno
  · obtain ⟨b, hb⟩ := bootCore_possible hd
    have hwiring : wiringOk l.channels [b] = true := by
      refine wiringOk_of_duties (ls := [l.toCoreLaunch]) (by simpa using hd) (fun k s hk => ?_)
        fun j k x y c hjk hj hk => ?_
      · obtain ⟨rfl, rfl⟩ := getElem?_singleton_some hk
        exact ⟨_, rfl, hb⟩
      · exact absurd ((getElem?_singleton_some hj).1.trans (getElem?_singleton_some hk).1.symm) hjk
    obtain ⟨cs, hcs⟩ := bootChannels_possible hwiring hp
    exact ⟨b.setChannels cs, by rw [boot, hb, Option.bind_some, hcs]; rfl⟩
  · refine Option.eq_none_iff_forall_ne_some.2 fun s hs => ?_
    obtain ⟨b, cs, hb, -, -⟩ := boot_some hs
    obtain ⟨hfit, -⟩ := bootCore_some hb
    exact hbad (hfit v hv)

/-! ### A booted network -/

theorem bootNetwork_some {l : NetworkLaunch} {n : Network} (h : bootNetwork l = some n) :
    bootCores l.cfg l.cores = some n.cores ∧
      bootChannels l.cfg.channelCapacity l.channels n.cores l.acts = some n.channels := by
  obtain ⟨cores, hcores, h⟩ := Option.bind_eq_some_iff.1 h
  obtain ⟨cs, hcs, rfl⟩ := Option.map_eq_some_iff.1 h
  exact ⟨hcores, hcs⟩

theorem bootCores_from {cfg : Config} {ls : List CoreLaunch} {ss : List State}
    (h : bootCores cfg ls = some ss) {k : Nat} {s : State} (hs : ss[k]? = some s) :
    ∃ l, ls[k]? = some l ∧ bootCore cfg l = some s := by
  obtain ⟨hlen, hboot, -⟩ := bootCores_some h
  have hlt : k < ls.length := hlen ▸ (List.getElem?_eq_some_iff.1 hs).1
  obtain ⟨s', hs', hb⟩ := hboot k _ (List.getElem?_eq_getElem hlt)
  obtain rfl : s = s' := Option.some.inj (hs.symm.trans hs')
  exact ⟨_, List.getElem?_eq_getElem hlt, hb⟩

theorem bootCores_possible {cfg : Config} {channels : Nat} {ls : List CoreLaunch}
    (h : ∀ l ∈ ls, l.duties cfg channels) : ∃ ss, bootCores cfg ls = some ss := by
  induction ls with
  | nil => exact ⟨[], rfl⟩
  | cons l rest ih =>
    obtain ⟨s, hs⟩ := bootCore_possible (h l List.mem_cons_self)
    obtain ⟨ss, hss⟩ := ih fun x hx => h x (List.mem_cons_of_mem l hx)
    exact ⟨s :: ss, by rw [bootCores, hs, hss]; rfl⟩

/-- The invariant of a booted network: its channels were made for its cores, all of which are
Running. -/
theorem bootNetwork_wf {l : NetworkLaunch} {n : Network} (hcfg : l.cfg.wellFormed = true)
    (h : bootNetwork l = some n) : n.wf := by
  obtain ⟨hcores, hcs⟩ := bootNetwork_some h
  obtain ⟨hwiring, -, hmade⟩ := bootChannels_some hcs
  obtain ⟨-, -, hreaders, hwriters⟩ := wiringOk_iff.1 hwiring
  have hrunning {k : Nat} {s : State} (hk : n.cores[k]? = some s) :
      (s.setChannels n.channels).isRunning = true := by
    obtain ⟨cl, -, hb⟩ := bootCores_from hcores hk
    exact (State.isRunning_iff _).2 (launchedAs_of_bootCore hb).status
  refine ⟨fun k s hs => ?_, fun j k s t c hjk hs ht => ?_, fun c ch hch => ?_⟩
  · obtain ⟨b, hk, rfl⟩ := Network.core_some hs
    obtain ⟨cl, -, hb⟩ := bootCores_from hcores hk
    exact setChannels_wf_of_boot hcfg hb (List.mem_of_getElem? hk) hcs
  · obtain ⟨a, ha, rfl⟩ := Network.core_some hs
    obtain ⟨b, hb, rfl⟩ := Network.core_some ht
    exact ⟨nodup_readerIds_iff.1 hreaders j k a b c hjk ha hb,
      nodup_writerIds_iff.1 hwriters j k a b c hjk ha hb⟩
  · obtain ⟨hm, -, -⟩ := hmade c ch hch
    refine ⟨fun hport => ?_, fun hport => ?_⟩
    · obtain ⟨s, hs, hbound⟩ := mem_readerIds.1 (of_decide_eq_true (hm.receiverPort ▸ hport))
      obtain ⟨k, hk⟩ := List.mem_iff_getElem?.1 hs
      exact ⟨k, _, Network.core_of_cores hk, hrunning hk, hbound⟩
    · obtain ⟨s, hs, hbound⟩ := mem_writerIds.1 (of_decide_eq_true (hm.senderPort ▸ hport))
      obtain ⟨k, hk⟩ := List.mem_iff_getElem?.1 hs
      exact ⟨k, _, Network.core_of_cores hk, hrunning hk, hbound⟩

/-- Settles O59: the cores are booted one by one and the channels made for all of them; both go
through when the cores keep their duties and share no side. -/
theorem bootedNetworkIsWellFormed : Obligations.BootedNetworkIsWellFormed := by
  refine ⟨fun l n hcfg h => ?_, fun l hd hsides hp => ?_⟩
  · obtain ⟨hcores, hcs⟩ := bootNetwork_some h
    obtain ⟨hlength, hboot, -⟩ := bootCores_some hcores
    obtain ⟨-, hlen, hmade⟩ := bootChannels_some hcs
    refine ⟨bootNetwork_wf hcfg h, hlength, hlen, fun ch hch => ?_, fun c ch hch hno => ?_,
      fun k cl hcl => ?_⟩
    · obtain ⟨c, hc⟩ := List.mem_iff_getElem?.1 hch
      obtain ⟨-, hhost, -⟩ := hmade c ch hc
      exact hhost
    · obtain ⟨-, -, hqueue⟩ := hmade c ch hch
      exact hqueue hno
    · obtain ⟨b, hk, hb⟩ := hboot k cl hcl
      have hbcfg : b.cfg = l.cfg := bootCore_cfg hb
      exact ⟨_, Network.core_of_cores hk, hbcfg,
        (launchedAs_of_bootCore hb).setChannels n.channels⟩
  · obtain ⟨ss, hss⟩ := bootCores_possible hd
    have hwiring := wiringOk_of_duties hd (fun k s hk => bootCores_from hss hk) hsides
    obtain ⟨cs, hcs⟩ := bootChannels_possible hwiring hp
    exact ⟨⟨ss, cs⟩, by rw [bootNetwork, hss, Option.bind_some, hcs]; rfl⟩

end Sys2Proof.Machine
end

