-- ==== Sys2Proof/Proofs/Instructions.lean ====
section
/-! PROOFS. What each instruction does when nothing raises, and, of what may raise, which error is
taken (40_arithmetic.md, 41_io.md, 42_control.md, 43_compare.md, 44_system.md, 60_exceptions.md
R211). -/

namespace Sys2Proof.Machine

/-! ### Destination operands -/

/-- Settles O14: a destination is the address its mode resolves to, of which O12 speaks. -/
theorem destByMode : Obligations.DestByMode := by
  intro s k
  obtain ⟨himmediate, herror, hword⟩ := resolveByMode s (s.pc + k)
  exact ⟨fun _ => rfl, himmediate, herror, hword⟩

/-! ### The four-word instructions -/

/-- The instructions of four words, with the modes of their operands. -/
def IsFourWords (i : Instr) (m1 m2 m3 : Mode) : Prop :=
  i = .add m1 m2 m3 ∨ i = .mul m1 m2 m3 ∨ i = .lessThan m1 m2 m3 ∨ i = .equals m1 m2 m3

/-- The four differ in the result they compute only. -/
theorem IsFourWords.exec_eq {i : Instr} {m1 m2 m3 : Mode} (hi : IsFourWords i m1 m2 m3)
    (s : State) : ∃ f, exec i s = binaryToDest f m1 m2 m3 s := by
  rcases hi with rfl | rfl | rfl | rfl <;> exact ⟨_, rfl⟩

section FourWords

variable {s : State} {m1 m2 m3 : Mode} {a b : Word} {d : Nat}
  {f : Word → Word → Except ErrorValue Word} {e : ErrorValue}

theorem binaryToDest_error_first (h : operand s 1 m1 = .error e) :
    binaryToDest f m1 m2 m3 s = .next (s.raise e) := by
  rw [binaryToDest, h, error_bind, settle_error]

theorem binaryToDest_error_second (ha : operand s 1 m1 = .ok a) (h : operand s 2 m2 = .error e) :
    binaryToDest f m1 m2 m3 s = .next (s.raise e) := by
  rw [binaryToDest, ha, ok_bind, h, error_bind, settle_error]

theorem binaryToDest_error_dest (ha : operand s 1 m1 = .ok a) (hb : operand s 2 m2 = .ok b)
    (h : dest s 3 m3 = .error e) : binaryToDest f m1 m2 m3 s = .next (s.raise e) := by
  rw [binaryToDest, ha, ok_bind, hb, ok_bind, h, error_bind, settle_error]

variable (ha : operand s 1 m1 = .ok a) (hb : operand s 2 m2 = .ok b) (hd : dest s 3 m3 = .ok d)
include ha hb hd

theorem binaryToDest_error_result (h : f a b = .error e) :
    binaryToDest f m1 m2 m3 s = .next (s.raise e) := by
  rw [binaryToDest, ha, ok_bind, hb, ok_bind, hd, ok_bind, h, error_bind, settle_error]

theorem binaryToDest_error_store {r : Word} (hr : f a b = .ok r)
    (hacc : s.mem.accessible s.cfg d = false) :
    binaryToDest f m1 m2 m3 s = .next (s.raise (.indexNotFound d)) := by
  rw [binaryToDest, ha, ok_bind, hb, ok_bind, hd, ok_bind, hr, ok_bind,
    State.store_error.2 ⟨hacc, rfl⟩, error_bind, settle_error]

section Accessible

variable (hacc : s.mem.accessible s.cfg d = true)
include hacc

theorem execAdd_done {r : Word} (hr : chk64 s.cfg .add (a.toInt + b.toInt) = .ok r) :
    exec (.add m1 m2 m3) s = .next { s with mem := s.mem.poke d r, pc := s.pc + 4 } :=
  binaryToDest_done ha hb hd hr hacc

theorem execMul_done {r : Word} (hr : chk64 s.cfg .mul (a.toInt * b.toInt) = .ok r) :
    exec (.mul m1 m2 m3) s = .next { s with mem := s.mem.poke d r, pc := s.pc + 4 } :=
  binaryToDest_done ha hb hd hr hacc

theorem execAdd_exact (h : FitsInt64 (a.toInt + b.toInt)) :
    ∃ r : Word, r.toInt = a.toInt + b.toInt ∧
    exec (.add m1 m2 m3) s = .next { s with mem := s.mem.poke d r, pc := s.pc + 4 } :=
  ⟨_, toInt_wordOfInt h, execAdd_done ha hb hd hacc (chk64_fits h _ _)⟩

theorem execMul_exact (h : FitsInt64 (a.toInt * b.toInt)) :
    ∃ r : Word, r.toInt = a.toInt * b.toInt ∧
    exec (.mul m1 m2 m3) s = .next { s with mem := s.mem.poke d r, pc := s.pc + 4 } :=
  ⟨_, toInt_wordOfInt h, execMul_done ha hb hd hacc (chk64_fits h _ _)⟩

end Accessible

end FourWords

/-- Settles O15: a result that fits passes `chk64` as it is. -/
theorem addAndMulComplete : Obligations.AddAndMulComplete :=
  fun _ _ _ _ _ _ _ ha hb hd hacc =>
    ⟨execAdd_exact ha hb hd hacc, execMul_exact ha hb hd hacc⟩

/-- Settles O16: a result that does not fit is an error of `chk64` under fault, and under wrap the
congruent word. -/
theorem overflowFollowsTheParameter : Obligations.OverflowFollowsTheParameter := by
  refine ⟨fun s m1 m2 m3 a b d ha hb hd => ⟨fun h hc => ?_, fun h hc => ?_, fun _ hc hacc => ?_,
    fun _ hc hacc => ?_⟩, fun s m1 v hv h => ⟨fun hc => ?_, fun hc => ?_⟩⟩
  · exact binaryToDest_error_result ha hb hd (chk64_fault h hc .add)
  · exact binaryToDest_error_result ha hb hd (chk64_fault h hc .mul)
  · exact ⟨_, wordOfInt_congr _, execAdd_done ha hb hd hacc (chk64_wrap hc _ _)⟩
  · exact ⟨_, wordOfInt_congr _, execMul_done ha hb hd hacc (chk64_wrap hc _ _)⟩
  · show execAdjustRelativeBase m1 s = _
    rw [execAdjustRelativeBase, hv, ok_bind, chk64_fault h hc, error_bind, settle_error]
  · refine ⟨_, wordOfInt_congr _, ?_⟩
    show execAdjustRelativeBase m1 s = _
    rw [execAdjustRelativeBase, hv, ok_bind, chk64_wrap hc, ok_bind]
    rfl

/-- Settles O17: of operands of eight digits the sum has at most nine digits, the product sixteen.
-/
theorem eightDigitArithmeticIsExact : Obligations.EightDigitArithmeticIsExact := by
  intro s m1 m2 m3 a b d ha hb hd hacc ha1 ha2 hb1 hb2
  have hsum : FitsInt64 (a.toInt + b.toInt) := by constructor <;> omega
  have hproduct : FitsInt64 (a.toInt * b.toInt) := by
    have habs : |a.toInt * b.toInt| ≤ 99999999 * 99999999 := by
      rw [abs_mul]
      exact mul_le_mul (abs_le.2 ⟨ha1, ha2⟩) (abs_le.2 ⟨hb1, hb2⟩) (abs_nonneg _) (by norm_num)
    obtain ⟨hlow, hhigh⟩ := abs_le.1 habs
    constructor <;> omega
  exact ⟨execMul_exact ha hb hd hacc hproduct, execAdd_exact ha hb hd hacc hsum⟩

/-- Settles O18: a comparison's result is always computed, and is the truth word. -/
theorem comparisonsComplete : Obligations.ComparisonsComplete := by
  intro s m1 m2 m3 a b d ha hb hd hacc
  rw [← truthWord_signedLess, ← truthWord_signedEqual]
  exact ⟨binaryToDest_done ha hb hd rfl hacc, binaryToDest_done ha hb hd rfl hacc⟩

/-! ### Jumps -/

section Jumps

variable {s : State} {m1 m2 : Mode} {c w : Word} {taken : Word → Bool} {e : ErrorValue}

theorem jumpWhen_error_first (h : operand s 1 m1 = .error e) :
    jumpWhen taken m1 m2 s = .next (s.raise e) := by
  rw [jumpWhen, h, error_bind, settle_error]

theorem jumpWhen_error_second (hc : operand s 1 m1 = .ok c) (h : operand s 2 m2 = .error e) :
    jumpWhen taken m1 m2 s = .next (s.raise e) := by
  rw [jumpWhen, hc, ok_bind, h, error_bind, settle_error]

variable (hc : operand s 1 m1 = .ok c) (hw : operand s 2 m2 = .ok w)
include hc hw

theorem jumpWhen_taken (ht : taken c = true) (h0 : 0 ≤ w.toInt) :
    jumpWhen taken m1 m2 s = .next { s with pc := w.toInt.toNat } := by
  rw [jumpWhen, hc, ok_bind, hw, ok_bind, if_pos ht, jumpTo_ok.2 ⟨h0, rfl⟩]
  rfl

theorem jumpWhen_not_taken (ht : taken c = false) :
    jumpWhen taken m1 m2 s = .next { s with pc := s.pc + 3 } := by
  rw [jumpWhen, hc, ok_bind, hw, ok_bind, ht]
  rfl

end Jumps

/-- Settles O20: every word but 0 takes the jump. -/
theorem jumpIfTrueCompletes : Obligations.JumpIfTrueCompletes :=
  fun _ _ _ _ _ hc hw => ⟨fun hne => jumpWhen_taken hc hw (wordIsTrue_iff.2 hne),
    fun h0 => jumpWhen_not_taken hc hw (Bool.eq_false_iff.2 fun h => wordIsTrue_iff.1 h h0)⟩

/-- Settles O21: only 0 takes the jump. -/
theorem jumpIfFalseCompletes : Obligations.JumpIfFalseCompletes :=
  fun _ _ _ _ _ hc hw => ⟨fun h0 => jumpWhen_taken hc hw (wordIsFalse_iff.2 h0),
    fun hne => jumpWhen_not_taken hc hw (Bool.eq_false_iff.2 fun h => hne (wordIsFalse_iff.1 h))⟩

/-- A four-word instruction that does not stop the core has written its result at its destination.
-/
theorem binaryToDest_peek {f : Word → Word → Except ErrorValue Word} {m1 m2 m3 : Mode} {s t : State}
    {d : Nat} (hwf : s.mem.wf) (hd : dest s 3 m3 = .ok d) (h : binaryToDest f m1 m2 m3 s = .next t)
    (hrun : t.isRunning = true) :
    ∃ a b, operand s 1 m1 = .ok a ∧ operand s 2 m2 = .ok b ∧ f a b = .ok (t.mem.peek d) := by
  rcases binaryToDest_next h with ⟨a, b, d', r, ha, hb, hd', hr, -, rfl⟩ | ⟨e, rfl, -⟩
  · obtain rfl : d = d' := Except.ok.inj (hd.symm.trans hd')
    refine ⟨a, b, ha, hb, hr.trans (congrArg _ ?_)⟩
    exact (Memory.peek_poke_same hwf d r).symm
  · cases hrun

/-- Settles O19: a comparison writes a truth word, which is 1 or 0, and the jumps test it against 0.
-/
theorem comparisonsWriteExactlyOneOrZero : Obligations.ComparisonsWriteExactlyOneOrZero := by
  refine ⟨fun s t i m1 m2 m3 d hi hwf _ hd h hrun => ?_,
    fun s m1 m2 w hw h0 => ⟨fun hc => ⟨?_, ?_⟩, fun hc => ⟨?_, ?_⟩⟩⟩
  · rcases hi with rfl | rfl
    · obtain ⟨a, b, -, -, hr⟩ := binaryToDest_peek hwf hd h hrun
      rw [← Except.ok.inj hr]
      exact truthWord_one_or_zero _
    · obtain ⟨a, b, -, -, hr⟩ := binaryToDest_peek hwf hd h hrun
      rw [← Except.ok.inj hr]
      exact truthWord_one_or_zero _
  · exact jumpWhen_taken hc hw (by decide) h0
  · exact jumpWhen_not_taken hc hw (by decide)
  · exact jumpWhen_not_taken hc hw (by decide)
  · exact jumpWhen_taken hc hw (by decide) h0

/-! ### Read and Write -/

theorem readerRead_channel_value {s : State} {c : Nat} {ch : Channel} {v : Word} {q : List Word}
    (hr : s.reader = .channel c) (hc : s.channels[c]? = some ch) (hq : ch.queue = v :: q) :
    readerRead s = .done v { s with channels := s.channels.set c { ch with queue := q } } := by
  have hrec : ch.receive = .received v { ch with queue := q } := by rw [Channel.receive, hq]
  rw [readerRead_channel hr hc, hrec]
  rfl

theorem writerWrite_channel_room {s : State} {c : Nat} {ch : Channel} (hw : s.writer = .channel c)
    (hc : s.channels[c]? = some ch) (ho : ch.receiverOpen = true) (hf : ch.full = false)
    (v : Word) : writerWrite s v = .done ()
      { s with channels := s.channels.set c { ch with queue := ch.queue ++ [v] } } := by
  rw [writerWrite_channel hw hc, Channel.send_sent.2 ⟨ho, hf, rfl⟩]
  rfl

theorem Channel.full_eq_false_iff {ch : Channel} :
    ch.full = false ↔ ch.cap = .unbounded ∨ ∃ n, ch.cap = .bounded n ∧ ch.queue.length < n := by
  unfold Channel.full
  cases ch.cap <;> simp

/-- Settles O23: the Reader gives the value, and the Read stores it. -/
theorem readCompletes : Obligations.ReadCompletes :=
  fun _ _ _ _ _ hd hacc => ⟨fun hr => execRead_done (readerRead_fixedSeq hr) hd hacc,
    fun _ _ hr hc hq => execRead_done (readerRead_channel_value hr hc hq) hd hacc⟩

/-- Settles O24: the Writer takes the operand. -/
theorem writeCompletes : Obligations.WriteCompletes :=
  fun _ _ v hv => ⟨fun _ hw => execWrite_done hv (writerWrite_fixedSeq hw v),
    fun _ _ hw hc ho hroom => execWrite_done hv
      (writerWrite_channel_room hw hc ho (Channel.full_eq_false_iff.2 hroom) v)⟩

/-- Settles O30: the Reader has given the value before the destination fails. -/
theorem readLosesItsInputToABadDestination : Obligations.ReadLosesItsInputToABadDestination := by
  intro s m1 v q e hbad
  have hlost {u : State} (hr : readerRead s = .done v u) :
      exec (.read m1) s = .next (u.raise e) := by
    rcases hbad with hd | ⟨d, hd, hacc, rfl⟩
    · exact execRead_lost hr hd
    · exact execRead_lost_at hr hd hacc
  exact ⟨fun hr => hlost (readerRead_fixedSeq hr),
    fun c ch hr hc hq => hlost (readerRead_channel_value hr hc hq)⟩

/-! ### AdjustRelativeBase, Halt and Skip -/

/-- Settles O25: a sum that fits passes `chk64` as it is. -/
theorem adjustRelativeBaseCompletes : Obligations.AdjustRelativeBaseCompletes := by
  intro s m1 v hv hfits
  refine ⟨_, toInt_wordOfInt hfits, ?_⟩
  show execAdjustRelativeBase m1 s = _
  rw [execAdjustRelativeBase, hv, ok_bind, chk64_fits hfits, ok_bind]
  rfl

/-- Settles O26: Halt enters the terminal status, with which the core lets go of its channel sides.
-/
theorem haltCompletes : Obligations.HaltCompletes :=
  fun s => ⟨_, released_channels s, rfl⟩

/-- Settles O27: Skip's meaning. -/
theorem skipCompletes : Obligations.SkipCompletes := fun _ => rfl

/-! ### A step, and the first error reached -/

theorem step_of_fetch {s : State} {i : Instr} (hs : s.isRunning = true)
    (h : s.fetchDecode = .ok i) : step s = exec i s := by
  rw [step, if_pos hs, h]

theorem step_of_fetch_error {s : State} {e : ErrorValue} (hs : s.isRunning = true)
    (h : s.fetchDecode = .error e) : step s = .next (s.raise e) := by
  rw [step, if_pos hs, h]

/-- Settles O39: the fetch and the decode answer the instruction, which is executed. -/
theorem stepRunsTheDecodedInstruction : Obligations.StepRunsTheDecodedInstruction :=
  fun s w _ hs hw hd => step_of_fetch ((State.isRunning_iff s).2 hs) (fetchDecode_ok.2 ⟨w, hw, hd⟩)

theorem chk64_of_fits_or_wrap {cfg : Config} {v : Int} (h : FitsInt64 v ∨ cfg.arithOverflow = .wrap)
    (op : ArithOp) : chk64 cfg op v = .ok (wordOfInt v) := by
  rcases h with h | h
  · exact chk64_fits h cfg op
  · exact chk64_wrap h op v

/-- Settles O33: each instruction's chain ends at the first of its parts that raises. -/
theorem firstErrorReachedIsTaken : Obligations.FirstErrorReachedIsTaken := by
  refine ⟨fun s e hs h => ?_, fun s i m1 m2 m3 e hi => ?_,
    fun s m1 m2 m3 a b d ha hb hd hacc => ⟨?_, ?_, fun h => ?_, fun h => ?_⟩,
    fun s i m1 m2 e hi => ?_, fun s i m1 e hi h => ?_, fun s m1 e h => ?_⟩
  · exact step_of_fetch_error hs (fetchDecode_error.2 (.inl h))
  · obtain ⟨f, hf⟩ := IsFourWords.exec_eq hi s
    rw [hf]
    exact ⟨binaryToDest_error_first, fun _ ha => binaryToDest_error_second ha,
      fun _ _ ha hb => binaryToDest_error_dest ha hb⟩
  · exact binaryToDest_error_store ha hb hd rfl hacc
  · exact binaryToDest_error_store ha hb hd rfl hacc
  · exact binaryToDest_error_store ha hb hd (chk64_of_fits_or_wrap h _) hacc
  · exact binaryToDest_error_store ha hb hd (chk64_of_fits_or_wrap h _) hacc
  · obtain ⟨taken, ht⟩ : ∃ taken, exec i s = jumpWhen taken m1 m2 s := by
      rcases hi with rfl | rfl <;> exact ⟨_, rfl⟩
    rw [ht]
    exact ⟨jumpWhen_error_first, fun _ hc => jumpWhen_error_second hc⟩
  · rcases hi with ⟨rfl, hb⟩ | rfl
    · exact execWrite_operand_error hb h
    · show execAdjustRelativeBase m1 s = _
      rw [execAdjustRelativeBase, h, error_bind, settle_error]
  · exact execRead_port_error h m1

end Sys2Proof.Machine
end

