-- ==== Sys2Proof/Proofs/Frames.lean ====
section
/-! PROOFS. What an instruction and a step leave unchanged, how they move `pc`, and when they stop
the core (10_state.md R23 to R28, 60_exceptions.md R201, R210). -/

namespace Sys2Proof.Machine

/-! ### Everything an instruction can end in -/

/-- The next states an instruction executed in `s` can answer (30 R87): one constructor for each way
to complete, the two waits, and the two ways to take an error. -/
inductive InstrEnd (s : State) : Instr → State → Prop where
  | stored {i : Instr} {m1 m2 m3 : Mode} {d : Nat} (r : Word) (hi : IsFourWords i m1 m2 m3)
      (hd : dest s 3 m3 = .ok d) : InstrEnd s i ((s.setMem (s.mem.poke d r)).advance 4)
  | read {m1 : Mode} {v : Word} {u : State} {d : Nat} (hr : readerRead s = .done v u)
      (hd : dest u 1 m1 = .ok d) : InstrEnd s (.read m1) ((u.setMem (u.mem.poke d v)).advance 2)
  | readWaits {m1 : Mode} (hb : s.readerBlocked = true) : InstrEnd s (.read m1) s
  | readLost {m1 : Mode} {v : Word} {u : State} (hr : readerRead s = .done v u) (e : ErrorValue) :
      InstrEnd s (.read m1) (u.raise e)
  | write {m1 : Mode} {v : Word} {u : State} (hv : operand s 1 m1 = .ok v)
      (hw : writerWrite s v = .done () u) : InstrEnd s (.write m1) (u.advance 2)
  | writeWaits {m1 : Mode} (hb : s.writerBlocked = true) : InstrEnd s (.write m1) s
  | jumpIfTrue {m1 m2 : Mode} {c w : Word} (hc : operand s 1 m1 = .ok c)
      (hw : operand s 2 m2 = .ok w) : InstrEnd s (.jumpIfTrue m1 m2)
        (s.setPc (if c.toInt ≠ 0 then w.toInt.toNat else s.pc + 3))
  | jumpIfFalse {m1 m2 : Mode} {c w : Word} (hc : operand s 1 m1 = .ok c)
      (hw : operand s 2 m2 = .ok w) : InstrEnd s (.jumpIfFalse m1 m2)
        (s.setPc (if c.toInt = 0 then w.toInt.toNat else s.pc + 3))
  | adjustRelativeBase {m1 : Mode} (b : Word) :
      InstrEnd s (.adjustRelativeBase m1) ((s.setRb b).advance 2)
  | halt : InstrEnd s .halt (s.terminate .halted)
  | skip : InstrEnd s .skip (s.advance 1)
  | raised (i : Instr) (e : ErrorValue) : InstrEnd s i (s.raise e)

theorem binaryToDest_end {f : Word → Word → Except ErrorValue Word} {m1 m2 m3 : Mode} {s t : State}
    {i : Instr} (hi : IsFourWords i m1 m2 m3) (h : binaryToDest f m1 m2 m3 s = .next t) :
    InstrEnd s i t := by
  rcases binaryToDest_next h with ⟨a, b, d, r, -, -, hd, -, -, rfl⟩ | ⟨e, rfl, -⟩
  · exact .stored r hi hd
  · exact .raised i e

/-- Where a conditional jump that does not raise leads. -/
theorem jumpWhen_pc {taken : Word → Bool} {m1 m2 : Mode} {s t : State}
    (h : jumpWhen taken m1 m2 s = .next t) : (∃ e, t = s.raise e) ∨
      ∃ c w, operand s 1 m1 = .ok c ∧ operand s 2 m2 = .ok w ∧
        t = s.setPc (if taken c = true then w.toInt.toNat else s.pc + 3) := by
  rcases jumpWhen_next h with ⟨c, w, hc, hw, ⟨ht, -, rfl⟩ | ⟨ht, rfl⟩⟩ | ⟨e, rfl, -⟩
  · exact .inr ⟨c, w, hc, hw, by rw [if_pos ht]⟩
  · exact .inr ⟨c, w, hc, hw, by rw [ht]; rfl⟩
  · exact .inl ⟨e, rfl⟩

theorem exec_end {i : Instr} {s t : State} (h : exec i s = .next t) : InstrEnd s i t := by
  cases i with
  | add m1 m2 m3 => exact binaryToDest_end (.inl rfl) h
  | mul m1 m2 m3 => exact binaryToDest_end (.inr (.inl rfl)) h
  | lessThan m1 m2 m3 => exact binaryToDest_end (.inr (.inr (.inl rfl))) h
  | equals m1 m2 m3 => exact binaryToDest_end (.inr (.inr (.inr rfl))) h
  | read m1 =>
    rcases execRead_next h with ⟨v, u, hr, ⟨d, hd, -, rfl⟩ | ⟨e, -, rfl⟩⟩ | ⟨e, -, rfl⟩ | ⟨hb, rfl⟩
    · exact .read hr hd
    · exact .readLost hr e
    · exact .raised _ e
    · exact .readWaits hb
  | write m1 =>
    rcases execWrite_next h with ⟨v, u, hv, hw, rfl⟩ | ⟨e, rfl, -⟩ | ⟨hb, rfl⟩
    · exact .write hv hw
    · exact .raised _ e
    · exact .writeWaits hb
  | jumpIfTrue m1 m2 =>
    rcases jumpWhen_pc h with ⟨e, rfl⟩ | ⟨c, w, hc, hw, rfl⟩
    · exact .raised _ e
    · simp only [wordIsTrue_iff]
      exact .jumpIfTrue hc hw
  | jumpIfFalse m1 m2 =>
    rcases jumpWhen_pc h with ⟨e, rfl⟩ | ⟨c, w, hc, hw, rfl⟩
    · exact .raised _ e
    · simp only [wordIsFalse_iff]
      exact .jumpIfFalse hc hw
  | adjustRelativeBase m1 =>
    rcases execAdjustRelativeBase_next h with ⟨v, -, -, rfl⟩ | ⟨e, rfl, -⟩
    · exact .adjustRelativeBase _
    · exact .raised _ e
  | halt => cases h; exact .halt
  | skip => cases h; exact .skip

/-! ### Status and `pc` -/

/-- A Reader that gives a value is not blocked. -/
theorem readerBlocked_of_done {s u : State} {v : Word} (h : readerRead s = .done v u) :
    s.readerBlocked = false := Bool.eq_false_iff.2 fun hb => by
  rw [readerRead_eq_wait.2 hb] at h
  cases h

/-- A Writer that takes a value is not blocked. -/
theorem writerBlocked_of_done {s u : State} {v : Word} (h : writerWrite s v = .done () u) :
    s.writerBlocked = false := writerBlocked_of_write (by rw [h]; simp)

/-- Settles O41: each way an instruction can end. -/
theorem pcAndStatusAfterAnInstruction : Obligations.PcAndStatusAfterAnInstruction := by
  intro i s t hs h
  have hrun : s.status = .running := (State.isRunning_iff s).1 hs
  cases exec_end h with
  | stored r hi hd => exact .inr (by rcases hi with rfl | rfl | rfl | rfl <;> exact ⟨hrun, rfl⟩)
  | read hr hd =>
    obtain ⟨-, hpc, -, hstatus, -⟩ := readerRead_frame hr
    exact .inr (.inr ⟨readerBlocked_of_done hr, hstatus.trans hrun, congrArg (· + 2) hpc⟩)
  | readWaits hb => exact .inr (.inl ⟨hb, rfl⟩)
  | readLost hr e =>
    obtain ⟨-, hpc, -⟩ := readerRead_frame hr
    exact .inl ⟨e, rfl, hpc⟩
  | write hv hw =>
    obtain ⟨-, hpc, -, hstatus, -⟩ := writerWrite_frame hw
    exact .inr (.inr ⟨writerBlocked_of_done hw, hstatus.trans hrun, congrArg (· + 2) hpc⟩)
  | writeWaits hb => exact .inr (.inl ⟨hb, rfl⟩)
  | jumpIfTrue hc hw => exact .inr ⟨hrun, _, _, hc, hw, rfl⟩
  | jumpIfFalse hc hw => exact .inr ⟨hrun, _, _, hc, hw, rfl⟩
  | adjustRelativeBase b => exact .inr ⟨hrun, rfl⟩
  | halt => exact .inr ⟨rfl, rfl⟩
  | skip => exact .inr ⟨hrun, rfl⟩
  | raised _ e => exact .inl ⟨e, rfl, rfl⟩

/-- Settles O40: a run of a stopped core repeats it. -/
theorem stoppedCoreNeverChanges : Obligations.StoppedCoreNeverChanges := by
  intro s k hs
  have hstep : step s = .next s :=
    step_stopped (Bool.eq_false_iff.2 fun hr => hs ((State.isRunning_iff s).1 hr))
  induction k with
  | zero => rfl
  | succ k ih => rw [run_succ hstep, ih]

/-! ### `rb` -/

theorem exec_rb {i : Instr} {s t : State} (h : exec i s = .next t) :
    t.rb = s.rb ∨ ∃ m1, i = .adjustRelativeBase m1 := by
  cases exec_end h with
  | read hr hd =>
    obtain ⟨-, -, hrb, -⟩ := readerRead_frame hr
    exact .inl hrb
  | readLost hr e =>
    obtain ⟨-, -, hrb, -⟩ := readerRead_frame hr
    exact .inl hrb
  | write hv hw =>
    obtain ⟨-, -, hrb, -⟩ := writerWrite_frame hw
    exact .inl hrb
  | adjustRelativeBase b => exact .inr ⟨_, rfl⟩
  | _ => exact .inl rfl

/-- Settles O42: `rb` by the ways an instruction can end, the rest by the shape of every step. -/
theorem onlyAdjustRelativeBaseChangesRb : Obligations.OnlyAdjustRelativeBaseChangesRb := by
  intro s t h
  refine ⟨fun hne => ?_, step_frame h⟩
  cases hs : s.isRunning with
  | false =>
    rw [step_stopped hs] at h
    cases h
    exact absurd rfl hne
  | true =>
    rcases step_running hs h with ⟨i, hi, hx⟩ | ⟨e, -, rfl⟩
    · obtain ⟨m1, rfl⟩ := (exec_rb hx).resolve_left hne
      exact ⟨m1, hi⟩
    · exact absurd rfl hne

/-! ### Errors -/

/-- An error is taken in the state the instruction began in, or, by a Read, in the state that has
lost the value taken (60 R210, 92 D8). -/
theorem exec_errored_from {i : Instr} {s t : State} {e : ErrorValue} (hs : s.status = .running)
    (h : exec i s = .next t) (ht : t.status = .errored e) : t = s.raise e ∨
      ∃ m1 v u, i = .read m1 ∧ readerRead s = .done v u ∧ t = u.raise e := by
  cases exec_end h with
  | read hr hd =>
    obtain ⟨-, -, -, hstatus, -⟩ := readerRead_frame hr
    exact absurd ht (not_errored_of_running (hstatus.trans hs))
  | readLost hr d =>
    cases errored_raise ht
    exact .inr ⟨_, _, _, rfl, hr, rfl⟩
  | write hv hw =>
    obtain ⟨-, -, -, hstatus, -⟩ := writerWrite_frame hw
    exact absurd ht (not_errored_of_running (hstatus.trans hs))
  | halt => cases ht
  | raised _ d =>
    cases errored_raise ht
    exact .inl rfl
  | _ => exact absurd ht (not_errored_of_running hs)

/-- Settles O34: the state that takes the error is the one the step began in, but for a Read's
input. -/
theorem errorEntryIsPrecise : Obligations.ErrorEntryIsPrecise := by
  intro s t e hs h ht
  have hstopped : step t = .next t := step_stopped <| Bool.eq_false_iff.2 fun hr =>
    not_errored_of_running ((State.isRunning_iff t).1 hr) ht
  have hfrom : t = s.raise e ∨
      ∃ m1 v u, s.fetchDecode = .ok (.read m1) ∧ readerRead s = .done v u ∧ t = u.raise e := by
    rcases step_running hs h with ⟨i, hi, hx⟩ | ⟨d, -, rfl⟩
    · rcases exec_errored_from ((State.isRunning_iff s).1 hs) hx ht with
        rfl | ⟨m1, v, u, rfl, hr, rfl⟩
      · exact .inl rfl
      · exact .inr ⟨m1, v, u, hi, hr, rfl⟩
    · cases errored_raise ht
      exact .inl rfl
  rcases hfrom with rfl | ⟨m1, v, u, hi, hr, rfl⟩
  · exact ⟨rfl, rfl, rfl, rfl, rfl, hstopped, .inl ⟨rfl, released_channels s⟩⟩
  · obtain ⟨hmem, hpc, hrb, -, hwriter, hcfg⟩ := readerRead_frame hr
    exact ⟨hpc, hrb, hmem, hwriter, hcfg, hstopped,
      .inr ⟨m1, hi, v, u, hr, rfl, released_channels u⟩⟩

/-- Settles O38: each cause of an error is of an instruction that the table names. -/
theorem eachErrorComesFromItsInstructions : Obligations.EachErrorComesFromItsInstructions := by
  intro i s t e hs h ht
  cases exec_errored ((State.isRunning_iff s).1 hs) ht h with
  | address hi ha =>
    cases e with
    | indexNotFound a => exact ⟨hi, (Memory.accessible_eq_false_iff.1 ha).1⟩
    | negativeAddress a => exact ⟨hi, ha⟩
    | arithmeticOverflow op =>
      obtain ⟨rfl, -⟩ := ha
      exact hi
    | _ => exact ha.elim
  | add _ => exact ⟨_, _, _, rfl⟩
  | mul _ => exact ⟨_, _, _, rfl⟩
  | adjustRelativeBase _ => exact ⟨_, rfl⟩
  | jumpIfTrue h0 => exact ⟨h0, _, _, .inl rfl⟩
  | jumpIfFalse h0 => exact ⟨h0, _, _, .inr rfl⟩
  | readDisabled _ => exact .inl ⟨rfl, _, rfl⟩
  | readExhausted _ => exact ⟨_, rfl⟩
  | writeDisabled _ => exact .inr ⟨rfl, _, rfl⟩
  | writeClosed _ => exact ⟨_, rfl⟩

/-! ### Fetches of what was, or was not, written -/

/-- Settles O43: the sum is at the new `pc` of the memory after the Add, which has the same
parameters. -/
theorem writtenWordIsWhatTheNextFetchReads : Obligations.WrittenWordIsWhatTheNextFetchReads := by
  intro s t m1 m2 m3 r j hwf _ hd h hrun hr hdec
  rcases binaryToDest_next h with ⟨a, b, d, r', ha, hb, hd', hsum, hacc, rfl⟩ | ⟨e, rfl, -⟩
  · obtain rfl : s.pc + 4 = d := Except.ok.inj (hd.symm.trans hd')
    obtain rfl : r = r' := (hr a b ha hb).trans (chk64_ok hsum).symm
    refine step_of_fetch hrun (fetchDecode_ok.2 ⟨r, Memory.read_ok.2 ⟨?_, ?_⟩, hdec⟩)
    · exact (Memory.accessible_of_size (s.mem.size_poke _ r) _).trans hacc
    · exact Memory.peek_poke_same hwf _ r
  · cases hrun

/-- A fetched 0 is a Skip. -/
theorem step_of_zero {s : State} (hs : s.status = .running)
    (hacc : s.mem.accessible s.cfg s.pc = true) (h : s.mem.peek s.pc = 0) :
    step s = .next { s with pc := s.pc + 1 } := by
  have hfetch : s.fetchDecode = .ok .skip :=
    fetchDecode_ok.2 ⟨0, Memory.read_ok.2 ⟨hacc, h⟩, decode_of_opcodeRow_none rfl s.cfg⟩
  rw [step_of_fetch ((State.isRunning_iff s).2 hs) hfetch]
  rfl

/-- Settles O44: the first step is a Skip to a state of which the same holds. -/
theorem unwrittenMemorySkipsForEver : Obligations.UnwrittenMemorySkipsForEver := by
  intro s k hs hregion hzero
  induction k generalizing s with
  | zero => rfl
  | succ k ih =>
    have hstep := step_of_zero hs (Memory.accessible_enabled hregion _ _) (hzero s.pc le_rfl)
    have hrest := ih { s with pc := s.pc + 1 } hs hregion fun a ha => hzero a (Nat.le_of_succ_le ha)
    rw [run_succ hstep, hrest, Nat.succ_add_eq_add_succ]

/-! ### Frames -/

/-- Settles O45: a four-word instruction stores one word at its destination or takes an error. -/
theorem fourWordInstructionsFrame : Obligations.FourWordInstructionsFrame := by
  intro s t i m1 m2 m3 hwf hi h
  obtain ⟨f, hf⟩ := IsFourWords.exec_eq hi s
  rw [hf] at h
  rcases binaryToDest_next h with ⟨a, b, d, r, -, -, hd, -, -, rfl⟩ | ⟨e, rfl, -⟩
  · refine ⟨rfl, rfl, rfl, rfl, s.mem.size_poke d r, .inl ⟨rfl, rfl⟩, fun d' hd' x hx => ?_,
      fun e he => ?_⟩
    · obtain rfl : d = d' := Except.ok.inj (hd.symm.trans hd')
      exact Memory.peek_poke_other hwf hx r
    · cases hd.symm.trans he
  · exact ⟨rfl, rfl, rfl, rfl, rfl, .inr ⟨e, rfl, rfl, rfl, released_channels s⟩,
      fun _ _ _ _ => rfl, fun _ _ _ => rfl⟩

/-- Settles O46: none of the ways in which these instructions can end stores a word or moves a port.
-/
theorem instructionsThatStoreNothingFrame : Obligations.InstructionsThatStoreNothingFrame := by
  intro s t i m1 m2 hi h
  cases exec_end h with
  | stored r hfour hd =>
    rcases hfour with rfl | rfl | rfl | rfl <;> simp at hi
  | read | readWaits | readLost | write | writeWaits => simp at hi
  | jumpIfTrue _ _ => exact ⟨rfl, rfl, rfl, rfl, fun _ => rfl, .inl ⟨rfl, rfl⟩⟩
  | jumpIfFalse _ _ => exact ⟨rfl, rfl, rfl, rfl, fun _ => rfl, .inl ⟨rfl, rfl⟩⟩
  | @adjustRelativeBase m b =>
    obtain rfl : m = m1 := by simpa using hi
    exact ⟨rfl, rfl, rfl, rfl, fun hne => absurd rfl hne, .inl ⟨rfl, rfl⟩⟩
  | halt =>
    exact ⟨rfl, rfl, rfl, rfl, fun _ => rfl, .inr ⟨.inl rfl, rfl, rfl, released_channels s⟩⟩
  | skip => exact ⟨rfl, rfl, rfl, rfl, fun _ => rfl, .inl ⟨rfl, rfl⟩⟩
  | raised _ e =>
    exact ⟨rfl, rfl, rfl, rfl, fun _ => rfl, .inr ⟨.inr ⟨e, rfl⟩, rfl, rfl, released_channels s⟩⟩

/-- `u` is `s`, or `s` with at most one value taken from its Reader: what Read leaves of the ports
and the channels (41 R124). -/
structure ReaderTook (s u : State) : Prop where
  frame    : u.mem = s.mem ∧ u.pc = s.pc ∧ u.rb = s.rb ∧ u.status = s.status ∧
    u.writer = s.writer ∧ u.cfg = s.cfg
  reader   : u.reader = s.reader ∨ ∃ v q, s.reader = .fixedSeq (v :: q) ∧ u.reader = .fixedSeq q
  others   : ∀ c, s.reader ≠ .channel c → u.channels[c]? = s.channels[c]?
  queues   : ∀ (c : Nat) (ch : Channel), s.channels[c]? = some ch →
    ∃ ch', u.channels[c]? = some ch' ∧ (ch'.queue = ch.queue ∨
      (s.reader = .channel c ∧ ∃ v, ch.queue = v :: ch'.queue))

theorem ReaderTook.refl (s : State) : ReaderTook s s :=
  ⟨⟨rfl, rfl, rfl, rfl, rfl, rfl⟩, .inl rfl, fun _ _ => rfl, fun _ ch hc => ⟨ch, hc, .inl rfl⟩⟩

theorem readerRead_took {s u : State} {v : Word} (h : readerRead s = .done v u) :
    ReaderTook s u := by
  have hframe := readerRead_frame h
  rcases readerRead_done h with ⟨q, hr, rfl⟩ | ⟨k, x, y, hr, hx, hrec, rfl⟩
  · exact ⟨hframe, .inr ⟨v, q, hr, rfl⟩, fun _ _ => rfl, fun _ ch hc => ⟨ch, hc, .inl rfl⟩⟩
  · obtain ⟨hq, -⟩ := Channel.receive_received hrec
    refine ⟨hframe, .inl rfl, fun c hc => ?_, fun c ch hc => ?_⟩
    · refine List.getElem?_set_ne ?_
      rintro rfl
      exact hc hr
    · by_cases he : k = c
      · subst he
        obtain rfl : x = ch := Option.some.inj (hx.symm.trans hc)
        exact ⟨y, List.getElem?_set_self (List.getElem?_eq_some_iff.1 hc).1, .inr ⟨hr, v, hq⟩⟩
      · exact ⟨ch, (List.getElem?_set_ne he).trans hc, .inl rfl⟩

/-- Taking an error leaves every queue as it was (41 R136). -/
theorem raise_queue {s : State} {c : Nat} {ch : Channel} (h : s.channels[c]? = some ch)
    (e : ErrorValue) : ∃ ch', (s.raise e).channels[c]? = some ch' ∧ ch'.queue = ch.queue := by
  rw [State.raise, State.terminate_channels_getElem?, h]
  exact ⟨_, rfl, rfl⟩

/-- Everything Read can do, by what it has taken: it stores the value, takes an error, or waits. -/
theorem execRead_took {m1 : Mode} {s t : State} (h : execRead m1 s = .next t) :
    (∃ u d v, ReaderTook s u ∧ dest s 1 m1 = .ok d ∧ t = (u.setMem (u.mem.poke d v)).advance 2) ∨
    (∃ u e, ReaderTook s u ∧ t = u.raise e) ∨ t = s := by
  rcases execRead_next h with ⟨v, u, hr, ⟨d, hd, -, rfl⟩ | ⟨e, -, rfl⟩⟩ | ⟨e, -, rfl⟩ | ⟨-, rfl⟩
  · obtain ⟨hmem, hpc, hrb, -, -, hcfg⟩ := readerRead_frame hr
    rw [dest_congr hmem hpc hrb hcfg] at hd
    exact .inl ⟨u, d, v, readerRead_took hr, hd, rfl⟩
  · exact .inr (.inl ⟨u, e, readerRead_took hr, rfl⟩)
  · exact .inr (.inl ⟨s, e, .refl s, rfl⟩)
  · exact .inr (.inr rfl)

/-- Settles O47: the value taken is stored at the destination, or an error is taken, or the Read
waits. -/
theorem readFrame : Obligations.ReadFrame := by
  intro s t m1 hwf hs h
  have hrun : s.status = .running := (State.isRunning_iff s).1 hs
  rcases execRead_took h with ⟨u, d, v, htook, hd, rfl⟩ | ⟨u, e, htook, rfl⟩ | rfl
  · obtain ⟨hmem, -, hrb, hstatus, hwriter, hcfg⟩ := htook.frame
    have hsize : (u.mem.poke d v).size = s.mem.size := by rw [Memory.size_poke, hmem]
    refine ⟨hrb, hwriter, hcfg, hsize, htook.reader, .inl (hstatus.trans hrun),
      fun _ => htook.others, htook.queues, fun d' hd' a ha => ?_, fun e he => ?_⟩
    · obtain rfl : d = d' := Except.ok.inj (hd.symm.trans hd')
      rw [← hmem]
      exact Memory.peek_poke_other (hmem ▸ hwf) ha v
    · cases hd.symm.trans he
  · obtain ⟨hmem, hpc, hrb, -, hwriter, hcfg⟩ := htook.frame
    have hpeek (a : Nat) : (u.raise e).mem.peek a = s.mem.peek a := congrArg (Memory.peek · a) hmem
    refine ⟨hrb, hwriter, hcfg, congrArg Memory.size hmem, htook.reader,
      .inr ⟨e, rfl, hpc, hmem⟩, nofun, fun c ch hch => ?_, fun _ _ a _ => hpeek a, fun _ _ => hpeek⟩
    obtain ⟨x, hx, hq⟩ := htook.queues c ch hch
    obtain ⟨y, hy, hsame⟩ := raise_queue hx e
    exact ⟨y, hy, by rwa [hsame]⟩
  · exact ⟨rfl, rfl, rfl, rfl, .inl rfl, .inl hrun, fun _ _ _ => rfl,
      fun _ ch hch => ⟨ch, hch, .inl rfl⟩, fun _ _ _ _ => rfl, fun _ _ _ => rfl⟩

/-- What a Writer that takes a value does to itself and to the channels (41 R128). -/
theorem writerWrite_gave {s u : State} {v : Word} (h : writerWrite s v = .done () u) :
    (u.writer = s.writer ∨
      ∃ log, s.writer = .fixedSeq log ∧ u.writer = .fixedSeq (log ++ [v])) ∧
    (∀ c, s.writer ≠ .channel c → u.channels[c]? = s.channels[c]?) ∧
    ∀ (c : Nat) (ch : Channel), s.channels[c]? = some ch → ∃ ch', u.channels[c]? = some ch' ∧
      (ch'.queue = ch.queue ∨ (s.writer = .channel c ∧ ch'.queue = ch.queue ++ [v])) := by
  rcases writerWrite_done h with ⟨log, hw, rfl⟩ | ⟨k, x, y, hw, hx, hsend, rfl⟩
  · exact ⟨.inr ⟨log, hw, rfl⟩, fun _ _ => rfl, fun _ ch hc => ⟨ch, hc, .inl rfl⟩⟩
  · obtain ⟨-, -, hy⟩ := Channel.send_sent.1 hsend
    refine ⟨.inl rfl, fun c hc => ?_, fun c ch hc => ?_⟩
    · refine List.getElem?_set_ne ?_
      rintro rfl
      exact hc hw
    · by_cases he : k = c
      · subst he
        obtain rfl : x = ch := Option.some.inj (hx.symm.trans hc)
        exact ⟨y, List.getElem?_set_self (List.getElem?_eq_some_iff.1 hc).1, .inr ⟨hw, by rw [hy]⟩⟩
      · exact ⟨ch, (List.getElem?_set_ne he).trans hc, .inl rfl⟩

/-- Settles O48: the Writer takes the operand, or an error is taken, or the Write waits. -/
theorem writeFrame : Obligations.WriteFrame := by
  intro s t m1 hs h
  have hrun : s.status = .running := (State.isRunning_iff s).1 hs
  rcases execWrite_next h with ⟨v, u, hv, hw, rfl⟩ | ⟨e, rfl, -⟩ | ⟨-, rfl⟩
  · obtain ⟨hmem, -, hrb, hstatus, hreader, hcfg⟩ := writerWrite_frame hw
    obtain ⟨hwriter, hothers, hqueues⟩ := writerWrite_gave hw
    have hurun : u.status = .running := hstatus.trans hrun
    refine ⟨hmem, hrb, hreader, hcfg, ?_, .inl hurun, fun _ => hothers, fun c ch hch => ?_⟩
    · exact hwriter.imp_right fun ⟨log, hlog, hnew⟩ => ⟨log, v, hv, hlog, hnew⟩
    · obtain ⟨ch', hch', hq⟩ := hqueues c ch hch
      exact ⟨ch', hch', hq.imp_right fun ⟨hbound, hnew⟩ =>
        ⟨hbound, (State.isRunning_iff _).2 hurun, v, hv, hnew⟩⟩
  · refine ⟨rfl, rfl, rfl, rfl, .inl rfl, .inr ⟨e, rfl, rfl, rfl⟩, nofun, fun c ch hch => ?_⟩
    obtain ⟨ch', hch', hsame⟩ := raise_queue hch e
    exact ⟨ch', hch', .inl hsame⟩
  · exact ⟨rfl, rfl, rfl, rfl, .inl rfl, .inl hrun, fun _ _ _ => rfl,
      fun _ ch hch => ⟨ch, hch, .inl rfl⟩⟩

end Sys2Proof.Machine
end

