-- ==== Sys2Proof/Proofs/Waiting.lean ====
section
/-! PROOFS. Waiting Reads and Writes (10_state.md R27, 41_io.md R134): that a wait changes nothing,
when a core waits, and what lifts it. -/

namespace Sys2Proof.Machine

/-! ### Waits -/

theorem execRead_blocked {m1 : Mode} {s : State} (hb : s.readerBlocked = true) :
    execRead m1 s = .next s := by
  rw [execRead, readerRead_eq_wait.2 hb, afterPort]

theorem waiting_of_read {s : State} {m1 : Mode} (hs : s.status = .running)
    (hf : s.fetchDecode = .ok (.read m1)) : s.waiting = s.readerBlocked := by
  rw [State.waiting, (State.isRunning_iff s).2 hs, hf, Bool.true_and]

theorem waiting_of_write {s : State} {m1 : Mode} (hs : s.status = .running)
    (hf : s.fetchDecode = .ok (.write m1)) : s.waiting = s.writerBlocked := by
  rw [State.waiting, (State.isRunning_iff s).2 hs, hf, Bool.true_and]

theorem readerBlocked_channel {s : State} {c : Nat} {ch : Channel} (hr : s.reader = .channel c)
    (hc : s.channels[c]? = some ch) : s.readerBlocked = (ch.queue.isEmpty && ch.senderOpen) := by
  simp only [State.readerBlocked, hr, hc]

theorem writerBlocked_channel {s : State} {c : Nat} {ch : Channel} (hw : s.writer = .channel c)
    (hc : s.channels[c]? = some ch) : s.writerBlocked = (ch.full && ch.receiverOpen) := by
  simp only [State.writerBlocked, hw, hc]

theorem step_of_waiting {s : State} (h : s.waiting = true) : step s = .next s := by
  obtain ⟨hs, ⟨m1, hf, hb⟩ | ⟨m1, hf, hb⟩⟩ := State.waiting_iff.1 h
  · rw [step_of_fetch ((State.isRunning_iff s).2 hs) hf]
    exact execRead_blocked hb
  · rw [step_of_fetch ((State.isRunning_iff s).2 hs) hf]
    exact execWrite_blocked hb

/-- Settles O31: a blocked port makes its instruction answer the state it is given, and a core waits
exactly at such an instruction. -/
theorem waitingChangesNothing : Obligations.WaitingChangesNothing := by
  refine ⟨fun s m1 c ch hr hc hq ho => ?_, fun s m1 c ch n hw hc hcap hle ho => ?_, fun s => ?_,
    fun s => step_of_waiting⟩
  · exact execRead_blocked (readerBlocked_iff.2 ⟨c, ch, hr, hc, hq, ho⟩)
  · have hfull : ch.full = true := Channel.full_iff.2 ⟨n, hcap, hle⟩
    exact execWrite_blocked (writerBlocked_iff.2 ⟨c, ch, hw, hc, hfull, ho⟩)
  · rw [State.waiting_iff]
    refine and_congr_right fun _ => or_congr ?_ ?_
    · simp only [readerBlocked_iff, exists_and_left]
    · constructor
      · rintro ⟨m1, hf, hb⟩
        obtain ⟨c, ch, hw, hc, hfull, ho⟩ := writerBlocked_iff.1 hb
        obtain ⟨n, hcap, hle⟩ := Channel.full_iff.1 hfull
        exact ⟨m1, c, ch, n, hf, hw, hc, hcap, hle, ho⟩
      · rintro ⟨m1, c, ch, n, hf, hw, hc, hcap, hle, ho⟩
        exact ⟨m1, hf, writerBlocked_iff.2 ⟨c, ch, hw, hc, Channel.full_iff.2 ⟨n, hcap, hle⟩, ho⟩⟩

/-! ### What lifts a waiting Read -/

theorem set_of_getElem? {α : Type} {l : List α} {k : Nat} {x : α} (h : l[k]? = some x) :
    l.set k x = l := by
  obtain ⟨hk, rfl⟩ := List.getElem?_eq_some_iff.1 h
  exact List.set_getElem_self hk

theorem getElem?_set_of_getElem? {α : Type} {l : List α} {k : Nat} {x : α} (h : l[k]? = some x)
    (y : α) : (l.set k y)[k]? = some y :=
  List.getElem?_set_self (List.getElem?_eq_some_iff.1 h).1

theorem getElem?_of_releaseSender {cs ds : List Channel} {c : Nat} {ch : Channel}
    (hc : cs[c]? = some ch) (h : hostAct (.releaseSender c) cs = some ds) :
    ds[c]? = some { ch with senderHost := false } := by
  cases h
  rw [modify_of_getElem? hc]
  exact getElem?_set_of_getElem? hc _

theorem getElem?_of_releaseReceiver {cs ds : List Channel} {c : Nat} {ch : Channel}
    (hc : cs[c]? = some ch) (h : hostAct (.releaseReceiver c) cs = some ds) :
    ds[c]? = some { ch with receiverHost := false } := by
  cases h
  rw [modify_of_getElem? hc]
  exact getElem?_set_of_getElem? hc _

/-- The channels may change under a core, but not what it fetches. -/
theorem step_setChannels {s : State} {i : Instr} (hs : s.status = .running)
    (hf : s.fetchDecode = .ok i) (cs : List Channel) :
    step (s.setChannels cs) = exec i (s.setChannels cs) :=
  step_of_fetch (s := s.setChannels cs) ((State.isRunning_iff s).2 hs) hf

theorem waiting_setChannels_read {s : State} {m1 : Mode} {c : Nat} {d : Channel} {cs : List Channel}
    (hs : s.status = .running) (hf : s.fetchDecode = .ok (.read m1)) (hr : s.reader = .channel c)
    (hd : cs[c]? = some d) :
    (s.setChannels cs).waiting = false ↔ d.queue ≠ [] ∨ d.senderOpen = false := by
  rw [waiting_of_read (s := s.setChannels cs) hs hf,
    readerBlocked_channel (s := s.setChannels cs) hr hd, Bool.and_eq_false_iff,
    List.isEmpty_eq_false_iff]

/-- Settles O32: whether the core waits is read off its channel, to which the host's send adds a
value and the host's release leaves no holder of the sending side. -/
theorem waitingReadIsLiftedBySendOrClose : Obligations.WaitingReadIsLiftedBySendOrClose := by
  intro s m1 c hwait hf hr
  obtain ⟨hs, -⟩ := State.waiting_iff.1 hwait
  rw [waiting_of_read hs hf] at hwait
  obtain ⟨c', ch, hr', hc, hq, -⟩ := readerBlocked_iff.1 hwait
  obtain rfl : c = c' := ReaderPort.channel.inj (hr.symm.trans hr')
  refine ⟨fun d cs hd => waiting_setChannels_read hs hf hr hd, fun v cs hact => ?_,
    fun x cs hx hport hact => ?_⟩
  · obtain ⟨x, d, hx, -, hsend, rfl⟩ := hostSend_some hact
    obtain rfl : ch = x := Option.some.inj (hc.symm.trans hx)
    obtain ⟨-, -, rfl⟩ := Channel.send_sent.1 hsend
    have hd := getElem?_set_of_getElem? hc { ch with queue := ch.queue ++ [v] }
    refine ⟨(waiting_setChannels_read hs hf hr hd).2 (.inl (by simp)), _,
      readerRead_channel_value (s := s.setChannels _) (q := []) hr hd ?_, ?_⟩
    · show ch.queue ++ [v] = [v]
      rw [hq, List.nil_append]
    · show (s.channels.set c _).set c { ch with queue := [] } = s.channels
      rw [List.set_set, ← hq]
      exact set_of_getElem? hc
  · obtain rfl : ch = x := Option.some.inj (hc.symm.trans hx)
    have hd := getElem?_of_releaseSender hc hact
    have hclosed : Channel.senderOpen { ch with senderHost := false } = false := by
      simp [Channel.senderOpen, hport]
    refine (step_setChannels hs hf _).trans (execRead_port_error ?_ m1)
    exact readerRead_readFromInput_iff.2 (.inr ⟨c, _, hr, hd, hq, hclosed⟩)

/-! ### What lifts a waiting Write -/

/-- A channel within its capacity has room once its head is taken. -/
theorem not_full_of_received {ch : Channel} {cfg : Config} {v : Word} {q : List Word}
    (hwf : ch.wf cfg = true) (hq : ch.queue = v :: q) :
    Channel.full { ch with queue := q } = false := by
  obtain ⟨-, -, hroom⟩ := Channel.wf_iff.1 hwf
  refine Bool.eq_false_iff.2 fun hfull => ?_
  obtain ⟨n, hn, hle⟩ := Channel.full_iff.1 hfull
  have hlen := hroom n hn
  rw [hq, List.length_cons] at hlen
  exact absurd hle (Nat.not_le.2 hlen)

theorem waiting_setChannels_write {s : State} {m1 : Mode} {c : Nat} {d : Channel}
    {cs : List Channel} (hs : s.status = .running) (hf : s.fetchDecode = .ok (.write m1))
    (hw : s.writer = .channel c) (hd : cs[c]? = some d) :
    (s.setChannels cs).waiting = false ↔ d.full = false ∨ d.receiverOpen = false := by
  rw [waiting_of_write (s := s.setChannels cs) hs hf,
    writerBlocked_channel (s := s.setChannels cs) hw hd, Bool.and_eq_false_iff]

/-- Once its channel has room or a closed receiving side, a Write takes an error of its operand. -/
theorem step_write_operand_error {s : State} {m1 : Mode} {c : Nat} {d : Channel} {cs : List Channel}
    (hs : s.status = .running) (hf : s.fetchDecode = .ok (.write m1)) (hw : s.writer = .channel c)
    (hd : cs[c]? = some d) (hfree : d.full = false ∨ d.receiverOpen = false) (e : ErrorValue)
    (he : operand s 1 m1 = .error e) :
    step (s.setChannels cs) = .next ((s.setChannels cs).raise e) := by
  have hblocked : (s.setChannels cs).writerBlocked = false :=
    (writerBlocked_channel (s := s.setChannels cs) hw hd).trans (Bool.and_eq_false_iff.2 hfree)
  exact (step_setChannels hs hf cs).trans (execWrite_operand_error hblocked he)

/-- Settles O58: whether the core waits is read off its channel, from which the host's receive takes
a value and which the host's release leaves without a holder of the receiving side. -/
theorem waitingWriteIsLiftedByReceiveOrClose :
    Obligations.WaitingWriteIsLiftedByReceiveOrClose := by
  intro s m1 c ch hwf hwait hf hw hc
  obtain ⟨hs, -⟩ := State.waiting_iff.1 hwait
  obtain ⟨-, -, hchannels, -, -⟩ := hwf
  rw [waiting_of_write hs hf, writerBlocked_channel hw hc] at hwait
  obtain ⟨-, hopen⟩ := Bool.and_eq_true_iff.1 hwait
  refine ⟨fun d cs hd => waiting_setChannels_write hs hf hw hd, fun cs hact => ?_,
    fun cs hport hact => ?_⟩
  · obtain ⟨⟨v, ds⟩, hreceive, rfl⟩ := Option.map_eq_some_iff.1 hact
    obtain ⟨x, d, hx, -, -, hreceived, rfl⟩ := hostReceive_some hreceive
    obtain rfl : ch = x := Option.some.inj (hc.symm.trans hx)
    obtain ⟨hq, hdeq⟩ := Channel.receive_received hreceived
    have hfree : d.full = false := by
      rw [hdeq]
      exact not_full_of_received (hchannels ch (List.mem_of_getElem? hc)) hq
    have hopen' : d.receiverOpen = true := by rw [hdeq]; exact hopen
    have hd := getElem?_set_of_getElem? hc d
    refine ⟨v, d.queue, hq, (waiting_setChannels_write hs hf hw hd).2 (.inl hfree), fun w hop => ?_,
      step_write_operand_error hs hf hw hd (.inl hfree)⟩
    have hop' : operand (s.setChannels (s.channels.set c d)) 1 m1 = .ok w := hop
    have hdone := writerWrite_channel_room (s := s.setChannels (s.channels.set c d)) hw hd
      hopen' hfree w
    have hsame : { ch with queue := d.queue ++ [w] } = { d with queue := d.queue ++ [w] } := by
      rw [hdeq]
    rw [hsame]
    exact (step_setChannels hs hf _).trans (execWrite_done hop' hdone)
  · have hd := getElem?_of_releaseReceiver hc hact
    have hclosed : Channel.receiverOpen { ch with receiverHost := false } = false := by
      simp [Channel.receiverOpen, hport]
    refine ⟨fun w hop => ?_, step_write_operand_error hs hf hw hd (.inr hclosed)⟩
    have hop' : operand (s.setChannels cs) 1 m1 = .ok w := hop
    have herror := writerWrite_receiver_closed (s := s.setChannels cs) hw hd hclosed w
    exact (step_setChannels hs hf _).trans (execWrite_port_error hop' herror)

end Sys2Proof.Machine
end
